-- ==== Sys2Proof/Word.lean ====
section
/-! DEFINITION. The two bit-vector types of the machine: register and virtual-address words (spec/10_state.md R10, XLEN = 32,
decision D1) and bytes. -/

namespace Sys2Proof

/-- A general register, the program counter or a virtual address: `XLEN = 32` bits (R10, R34; decision D1). -/
abbrev Word := BitVec 32

/-- The unit of memory (R34). -/
abbrev Byte := BitVec 8

end Sys2Proof
end

