-- ==== Sys2Proof/Syntax.lean ====
section
/-! DEFINITION. The syntax: the names of the four caches (spec/00_scope.md R8) and the two instructions
(spec/30_encoding.md R68, spec/40_cache.md R71, R72). -/

namespace Sys2Proof

/-- The four caches `I`, `D`, `T`, `S` (R8). -/
inductive CacheName where
  | icache
  | dcache
  | tcache
  | scache
  deriving DecidableEq, Repr

/-- The two instructions of spec/opcode_table.json, written as the assembler writes them (R68): the operation
`op` (0 to 31), the signed byte `offset` and the base register `rs`. -/
inductive Instr where
  /-- `CACHE op, offset(rs)` (R71). -/
  | cache (op : BitVec 5) (rs : BitVec 5) (offset : Int)
  /-- `CACHEE op, offset(rs)` (R72). -/
  | cachee (op : BitVec 5) (rs : BitVec 5) (offset : Int)
  deriving DecidableEq, Repr

end Sys2Proof
end

