-- ==== Sys2Proof/WellFormed.lean ====
section
/-! DEFINITION. Which instructions the encoding can hold: the offset is a signed byte offset in -256 .. 255
(spec/30_encoding.md R59, R68). The fields `op` and `rs` are five bits wide by their type. -/

namespace Sys2Proof

/-- The offset fits the nine-bit signed field (R59, R68). -/
def offsetFits (offset : Int) : Bool := decide (-256 ≤ offset) && decide (offset ≤ 255)

/-- An instruction that has an encoding. -/
def Instr.wellFormed : Instr → Bool
  | .cache _ _ offset => offsetFits offset
  | .cachee _ _ offset => offsetFits offset

end Sys2Proof
end

