-- ==== Sys2Proof/Decode.lean ====
section
/-! DEFINITION. Decoding and encoding of the two 32-bit forms (spec/30_encoding.md R56 to R61), and the arrangement of
the instruction word in memory bytes (the parameter `FetchInstr32` of spec/00_scope.md R4). -/

namespace Sys2Proof

/-- Why a list of bytes is not one of the two instructions (R61: the model refuses such a word). -/
inductive DecodeError where
  /-- Fewer than four bytes: both encodings are 32 bits long (R56). -/
  | tooShort
  /-- Bits 31:26 are not `101001`. -/
  | majorOpcode
  /-- Bits 14:11 are not `0111`. -/
  | minorOpcode
  /-- Bit 10 is not 0. -/
  | fixedBit
  /-- Bits 9:8 are neither `01` (CACHE) nor `10` (CACHEE). -/
  | selector
  deriving DecidableEq, Repr

/-- Bits 31:26 of both instructions (R57). -/
def majorOpcode : BitVec 6 := 0b101001#6

/-- Bits 14:11 of both instructions (R57). -/
def minorOpcode : BitVec 4 := 0b0111#4

/-- The nine-bit offset field `s`, bit 15 above bits 7:0 (R59). -/
def offsetField (w : Word) : BitVec 9 := w.extractLsb' 15 1 ++ w.extractLsb' 0 8

/-- The decode procedure (R61): total, every refusal by name. -/
def decode (w : Word) : Except DecodeError Instr :=
  if w.extractLsb' 26 6 ≠ majorOpcode then .error .majorOpcode
  else if w.extractLsb' 11 4 ≠ minorOpcode then .error .minorOpcode
  else if w.extractLsb' 10 1 ≠ 0#1 then .error .fixedBit
  else if w.extractLsb' 8 2 = 0b01#2 then
    .ok (.cache (w.extractLsb' 21 5) (w.extractLsb' 16 5) (offsetField w).toInt)
  else if w.extractLsb' 8 2 = 0b10#2 then
    .ok (.cachee (w.extractLsb' 21 5) (w.extractLsb' 16 5) (offsetField w).toInt)
  else .error .selector

/-- The eight fields of R56, leftmost most significant. -/
def encodeFields (selector : BitVec 2) (op rs : BitVec 5) (offset : Int) : Word :=
  majorOpcode ++ op ++ rs ++ (BitVec.ofInt 9 offset).extractLsb' 8 1 ++ minorOpcode ++ 0#1 ++ selector
    ++ (BitVec.ofInt 9 offset).extractLsb' 0 8

/-- The word of an instruction (R56, R57); meaningful for a well-formed one. -/
def encode : Instr → Word
  | .cache op rs offset => encodeFields 0b01#2 op rs offset
  | .cachee op rs offset => encodeFields 0b10#2 op rs offset

/-- Where the four bytes of an instruction word lie, as offsets from its address: `b3` is the offset of the
byte that holds bits 31:24, `b0` that of bits 7:0. The parameter `FetchInstr32` (R4, decision D3). -/
structure FetchOrder where
  b3 : Fin 4
  b2 : Fin 4
  b1 : Fin 4
  b0 : Fin 4
  deriving DecidableEq, Repr

/-- The word that four bytes at consecutive addresses make under an order. -/
def FetchOrder.assemble (o : FetchOrder) (byteAt : Fin 4 → Byte) : Word :=
  byteAt o.b3 ++ byteAt o.b2 ++ byteAt o.b1 ++ byteAt o.b0

/-- The byte of word `w` that lies at offset `k` under an order (0 where the order uses `k` for no byte). -/
def FetchOrder.byteOf (o : FetchOrder) (w : Word) (k : Fin 4) : Byte :=
  if o.b3 = k then w.extractLsb' 24 8
  else if o.b2 = k then w.extractLsb' 16 8
  else if o.b1 = k then w.extractLsb' 8 8
  else if o.b0 = k then w.extractLsb' 0 8
  else 0#8

/-- Two 16-bit halfwords, the upper half first, each little-endian (R42, general knowledge; the reset
configuration uses it, log entry 15). -/
def FetchOrder.halfwords : FetchOrder := ⟨1, 0, 3, 2⟩

/-- The decoder on bytes as the hardware stores them: the instruction and the bytes after it. -/
def decodeBytes (o : FetchOrder) : List Byte → Except DecodeError (Instr × List Byte)
  | b0 :: b1 :: b2 :: b3 :: rest =>
    match decode (o.assemble ![b0, b1, b2, b3]) with
    | .ok i => .ok (i, rest)
    | .error e => .error e
  | _ => .error .tooShort

/-- The bytes of a word in address order. -/
def wordBytes (o : FetchOrder) (w : Word) : List Byte :=
  [o.byteOf w 0, o.byteOf w 1, o.byteOf w 2, o.byteOf w 3]

/-- What the decoder reads from the word numbered as spec/opcode_table.json numbers it. Both instructions are one
32-bit word, so the bits above `nbits` are those of `w` itself, which are 0. -/
def decodeTableWord (nbits w : Nat) : Option Instr :=
  match decodeBytes .halfwords (wordBytes .halfwords (BitVec.ofNat 32 (w % 2 ^ nbits))) with
  | .ok (i, _) => some i
  | .error _ => none

end Sys2Proof
end

