-- ==== Sys2Proof/Config.lean ====
section
/-! DEFINITION. The configuration record of spec/00_scope.md R4 as plain data, and the free values of spec/41_cache_operations.md
R104, R106, R130. The functions that read the record are in Machine/Params.lean.

A parameter of R4 that is a function of an address or of a register pair is held as a finite table of rows over the bits of its
argument; every function of a bounded argument is such a table (Laws/Params.lean, `formula_represents` and `table_represents`),
so holding the record as data leaves no value of a parameter out (log entry 1). -/

namespace Sys2Proof

/-- One value for each of the four caches. -/
structure PerCache (α : Type) where
  icache : α
  dcache : α
  tcache : α
  scache : α
  deriving DecidableEq, Repr

/-- The value of one cache. -/
def PerCache.get {α : Type} (p : PerCache α) : CacheName → α
  | .icache => p.icache
  | .dcache => p.dcache
  | .tcache => p.tcache
  | .scache => p.scache

/-- The family with one cache's value replaced. -/
def PerCache.set {α : Type} (p : PerCache α) (c : CacheName) (v : α) : PerCache α :=
  match c with
  | .icache => { p with icache := v }
  | .dcache => { p with dcache := v }
  | .tcache => { p with tcache := v }
  | .scache => { p with scache := v }

/-- A row of a table: it matches a key whose bits under `mask` are `value`. -/
structure Row where
  mask : Nat
  value : Nat
  deriving DecidableEq, Repr

/-- A predicate on keys: some row matches. -/
abbrev Formula := List Row

/-- A function on keys: the value of the first row that matches. -/
abbrev Table (α : Type) := List (Row × α)

/-- An address range that translates: a matching virtual address goes to `paBase` plus its bits outside the row's mask,
with Cache Coherency Attribute `cca` (R38, R40). -/
structure Region where
  row : Row
  paBase : Nat
  cca : Nat
  deriving DecidableEq, Repr

/-- A row of the translation of mapped addresses (R38, R154, R155). -/
inductive Mapping where
  /-- A valid translation. -/
  | page (region : Region)
  /-- A translation that is marked invalid. -/
  | invalid (row : Row)
  deriving DecidableEq, Repr

/-- What `AddrErr`, `TransType` and `Translate` answer for one value of `is_eva` (R36, R38, R39, R76). An address that matches
a row of `unmapped` is unmapped; any other is mapped and goes through `mapped`. -/
structure AddressView where
  addrErr : Formula
  unmapped : List Region
  mapped : List Mapping
  deriving DecidableEq, Repr

/-- `DecodeTag` and `EncodeTag` of one cache (R106, R107). The decoding formulas read the 64-bit key `TagHi : TagLo`, one formula a bit
of the result; the encoding formulas read the line record as one key (`Line.key`), one formula a bit of `TagLo` and of `TagHi`. -/
structure TagFormat where
  valid : Formula
  dirty : Formula
  locked : Formula
  addr : List Formula
  lo : List Formula
  hi : List Formula
  deriving DecidableEq, Repr

/-- What a configuration supplies for a value of op 12 to 15 (R122 to R125, decision D8). -/
inductive ImplDepBehaviour where
  /-- Described operations on the cache that the value names (R62), by kind `op[4:2]`, performed in order. -/
  | operations (kinds : List (BitVec 3))
  /-- Any other behaviour: what the free function `Config.freeImplDep` answers (log entry 28). -/
  | other
  deriving DecidableEq, Repr

/-- The parameters of one cache (R4, R22, R101). -/
structure CacheConfig where
  /-- `Slots(c)`: one entry a slot, the number of the set the slot belongs to; empty when the cache is absent. -/
  sets : List Nat
  /-- `LineSize(c)` in bytes. -/
  lineSize : Nat
  /-- `WriteThrough(c)`. -/
  writeThrough : Bool
  /-- `IndexSlot(c, va)`, keyed by the line address of `va`. -/
  indexSlot : Table Nat
  /-- `SetOf(c, pa, va)`: some slot of the set, keyed by `pa` above the 32 bits of `va`. -/
  setOf : Table Nat
  /-- `DecodeTag(c, lo, hi)` and `EncodeTag(c, line)`. -/
  tag : TagFormat
  /-- Which of the four register pairs is `TagLo[c]`, `TagHi[c]`; two caches with one pair share it (`TagRegShared`, R18). -/
  tagPair : CacheName
  /-- `LockSpread(c, va)` beyond the line of the address itself: distances in lines (R138), keyed by `va`. -/
  lockExtra : Table (List Int)
  /-- `ImplDepOp` of the value of op 12 .. 15 that names this cache, or none where the configuration supplies no behaviour (R122). -/
  implDepOp : Option ImplDepBehaviour
  /-- `ImplDepIsIndex` of that value of op (R77). -/
  implDepIsIndex : Bool
  deriving DecidableEq, Repr

/-- The configuration record (R4): the constants of a run. -/
structure Config where
  /-- `PALEN`. -/
  palen : Nat
  /-- `Config.AT` (R14). -/
  configAT : Nat
  /-- `Config1.IL` (R15). -/
  config1IL : Nat
  /-- `Config1.DL` (R15). -/
  config1DL : Nat
  /-- `Config2.SL` (R16). -/
  config2SL : Nat
  /-- `Config2.TL` (R16). -/
  config2TL : Nat
  /-- `Config5.L2C` (R17). -/
  config5L2C : Nat
  /-- `Config5.NMS` (R17). -/
  config5NMS : Bool
  /-- `Config5.EVA` (R17). -/
  config5EVA : Bool
  /-- The four caches. -/
  caches : PerCache CacheConfig
  /-- The Recommended and Optional values of op that the core implements (R64). -/
  offered : List (BitVec 5)
  /-- `DataRegsImplemented` (R19). -/
  dataRegs : Bool
  /-- The address map as the current mode sees it (`is_eva` false). -/
  kernelView : AddressView
  /-- The address map as user mode sees it (`is_eva` true, R39). -/
  userView : AddressView
  /-- `Globalized(op, cca)`: the pairs of kind of operation `op[4:2]` and cca that are broadcast (R53, R54). -/
  globalized : List (BitVec 3 × Nat)
  /-- `WatchMatchesCache`: R4 and decision D18 give it the value false, which `Config.Legal` (Safety.lean) requires; no rule reads it
  (R85; log entry 30). -/
  watchMatchesCache : Bool
  /-- `FetchInstr32` (decision D3). -/
  fetchOrder : FetchOrder
  /-- `BigEndian`, the byte order of data: a parameter of R4 that no rule depends on (R42, decision D24). -/
  bigEndian : Bool
  deriving DecidableEq, Repr

/-- Free value: the victim of a fill, as a number reduced to a place among the candidates (R104: any unlocked slot). -/
opaque Config.freeVictim : Nat → Nat

/-- Free value: whether a Fill of a line already present keeps it (R130, decision D25). -/
opaque Config.freeFillKeeps : Nat → Bool

/-- Free value: the data Index Load Tag leaves in `DataLo`, `DataHi` (R106, decision D29). -/
opaque Config.freeData : Nat → Word

end Sys2Proof
end

