-- ==== Sys2Proof/Machine/Params.lean ====
section
/-! DEFINITION. What the configuration record answers: the parameters of spec/00_scope.md R4 as functions, with the constraints the
spec puts on them kept by construction (log entry 12), and the configuration that the reset state carries. -/

namespace Sys2Proof

/-! ### Tables -/

/-- The row's bits of the key are the row's value. -/
def Row.holds (r : Row) (key : Nat) : Bool := decide (key &&& r.mask = r.value)

/-- Some row of the formula matches. -/
def Formula.holds (f : Formula) (key : Nat) : Bool := f.any fun r => r.holds key

/-- The value of the first matching row, or the default. -/
def Table.lookup {α : Type} (t : Table α) (default : α) (key : Nat) : α :=
  match t.find? fun e => e.1.holds key with
  | some e => e.2
  | none => default

/-- The number whose bit i is the i-th formula's answer. -/
def formulaBits : List Formula → Nat → Nat
  | [], _ => 0
  | f :: fs, key => (f.holds key).toNat + 2 * formulaBits fs key

/-! ### The op field (R62, R63, R64) -/

/-- `cache(op) = op[1:0]` (R62). -/
def opCache (op : BitVec 5) : CacheName :=
  match (op.extractLsb' 0 2).toNat with
  | 0 => .icache
  | 1 => .dcache
  | 2 => .tcache
  | _ => .scache

/-- `kind(op) = op[4:2]` (R62). -/
def opKind (op : BitVec 5) : BitVec 3 := op.extractLsb' 2 3

/-- The two low bits of op that name a cache (R62). -/
def cacheCode : CacheName → BitVec 2
  | .icache => 0#2
  | .dcache => 1#2
  | .tcache => 2#2
  | .scache => 3#2

/-- The value of op of a kind of operation and a cache (R62). -/
def opOf (kind : BitVec 3) (c : CacheName) : BitVec 5 := kind ++ cacheCode c

/-- The values 24, 30 and 31 that the table calls Unused (R63). -/
def opUnused (op : BitVec 5) : Bool := decide (op = 24#5) || decide (op = 30#5) || decide (op = 31#5)

/-- The values the table calls Required when their cache is present (R63): 0 to 3, 8 to 11 and 16. -/
def opRequired (op : BitVec 5) : Bool :=
  decide (opKind op = 0#3) || decide (opKind op = 2#3) || decide (op = 16#5)

/-- The values 12 to 15 (R122 to R125). -/
def opImplDep (op : BitVec 5) : Bool := decide (opKind op = 3#3)

/-! ### Cores, caches and operations (R22, R64) -/

/-- `NoCaches` (R22): the five fields are zero. -/
def Config.noCaches (cfg : Config) : Bool :=
  decide (cfg.config1DL = 0) && decide (cfg.config1IL = 0) && decide (cfg.config2SL = 0) && decide (cfg.config2TL = 0)
    && decide (cfg.config5L2C = 0)

/-- The parameters of one cache. -/
def Config.cacheOf (cfg : Config) (c : CacheName) : CacheConfig := cfg.caches.get c

/-- `Slots(c)` numbered from 0: how many there are (R23). -/
def Config.slots (cfg : Config) (c : CacheName) : Nat := (cfg.cacheOf c).sets.length

/-- `Present(c)`: the cache has slots, and not `NoCaches` (R22). -/
def Config.present (cfg : Config) (c : CacheName) : Bool := !cfg.noCaches && decide (cfg.slots c ≠ 0)

/-- `LineSize(c)`. -/
def Config.lineSize (cfg : Config) (c : CacheName) : Nat := (cfg.cacheOf c).lineSize

/-- Whether a line of c can be dirty: not in the instruction cache and not in a write-through cache (R24). -/
def Config.canBeDirty (cfg : Config) (c : CacheName) : Bool :=
  decide (c ≠ .icache) && !(cfg.cacheOf c).writeThrough

/-- A kind of operation that the spec describes for a cache (R63): neither unused nor implementation dependent. -/
def kindDescribed (c : CacheName) (kind : BitVec 3) : Bool := !opUnused (opOf kind c) && !opImplDep (opOf kind c)

/-- Whether the configuration supplies a behaviour (R122); a list that names a kind the spec does not describe supplies none. -/
def behaviourSupplied (c : CacheName) : Option ImplDepBehaviour → Bool
  | none => false
  | some (.operations kinds) => kinds.all fun k => kindDescribed c k
  | some .other => true

/-- `OpImplemented(op)` under the constraints of R64 and R122. -/
def Config.opImplemented (cfg : Config) (op : BitVec 5) : Bool :=
  !opUnused op && cfg.present (opCache op) &&
    if opImplDep op then behaviourSupplied (opCache op) (cfg.cacheOf (opCache op)).implDepOp
    else opRequired op || cfg.offered.contains op

/-- The values of op whose address must be unmapped (R77): op <= 11, and 12 to 15 where `ImplDepIsIndex` says so. -/
def Config.isIndexOp (cfg : Config) (op : BitVec 5) : Bool :=
  decide (op.toNat ≤ 11) || (opImplDep op && (cfg.cacheOf (opCache op)).implDepIsIndex)

/-- `Globalized(op, cca)` (R53); it reads the kind of op and the cca, so it cannot differ between caches (R54). -/
def Config.isGlobalized (cfg : Config) (op : BitVec 5) (cca : Nat) : Bool := cfg.globalized.contains (opKind op, cca)

/-- `TagRegShared(c1, c2)` (R18). -/
def Config.tagRegShared (cfg : Config) (c1 c2 : CacheName) : Bool :=
  decide ((cfg.cacheOf c1).tagPair = (cfg.cacheOf c2).tagPair)

/-! ### Addresses (R34, R36 to R40, R76, R101) -/

/-- A physical address has `PALEN` bits (R34). -/
def Config.phys (cfg : Config) (a : Nat) : Nat := a % 2 ^ cfg.palen

/-- `LineAddr(c, a) = a - (a mod LineSize(c))` (R101). -/
def Config.lineAddr (cfg : Config) (c : CacheName) (a : Nat) : Nat := a - a % cfg.lineSize c

/-- The address map for one value of `is_eva` (R39). -/
def Config.view (cfg : Config) (isEva : Bool) : AddressView := if isEva then cfg.userView else cfg.kernelView

/-- The least common multiple of a block and a line size, a size of 0 (no line) left out. -/
def commonLine (block size : Nat) : Nat := if size = 0 then block else Nat.lcm block size

/-- The block of addresses inside which `AddrErr` cannot tell two addresses apart: a whole number of lines of every cache (R82). For line
sizes that are powers of two it is the longest line. DESIGN CHOICE (log entry 12): where every `LineSize` is 0 (a core without lines), R82
says nothing of `AddrErr`, and the block is one byte, so that `AddrErr` may depend on every bit of the address. -/
def Config.lineBlock (cfg : Config) : Nat :=
  commonLine (commonLine (commonLine (commonLine 1 (cfg.lineSize .icache)) (cfg.lineSize .dcache)) (cfg.lineSize .tcache))
    (cfg.lineSize .scache)

/-- `AddrErr(va, is_eva)` (R76); it does not see the bits inside a line (R82). -/
def Config.addrErr (cfg : Config) (va : Word) (isEva : Bool) : Bool :=
  (cfg.view isEva).addrErr.holds (va.toNat - va.toNat % cfg.lineBlock)

/-- `TransType(va, is_eva) = unmapped` (R36). -/
def Config.isUnmapped (cfg : Config) (va : Word) (isEva : Bool) : Bool :=
  (cfg.view isEva).unmapped.any fun r => r.row.holds va.toNat

/-- The answer of `Translate` (R38). -/
inductive Translation where
  /-- The physical address and its Cache Coherency Attribute. -/
  | ok (pa cca : Nat)
  /-- No translation: TLB Refill (R154). -/
  | refill
  /-- A translation marked invalid: TLB Invalid (R155). -/
  | invalid
  deriving DecidableEq, Repr

/-- The physical address and cca a region gives an address that matches its row. -/
def Config.regionAnswer (cfg : Config) (r : Region) (va : Word) : Translation :=
  .ok (cfg.phys (r.paBase + (va.toNat - (va.toNat &&& r.row.mask)))) r.cca

/-- The virtual addresses a row of the translation is about. -/
def Mapping.row : Mapping → Row
  | .page r => r.row
  | .invalid row => row

/-- `Translate(va, is_eva)` (R38). An unmapped address never fails (decision D19). -/
def Config.translate (cfg : Config) (va : Word) (isEva : Bool) : Translation :=
  match (cfg.view isEva).unmapped.find? fun r => r.row.holds va.toNat with
  | some r => cfg.regionAnswer r va
  | none =>
    match (cfg.view isEva).mapped.find? fun m => m.row.holds va.toNat with
    | some (.page r) => cfg.regionAnswer r va
    | some (.invalid _) => .invalid
    | none => .refill

/-- The cca values 2 and 7 are uncached (R40, R79). -/
def uncached (cca : Nat) : Bool := decide (cca = 2) || decide (cca = 7)

/-- `IndexSlot(c, va)` (R101): it sees `va` only above the line offset. -/
def Config.indexSlot (cfg : Config) (c : CacheName) (va : Word) : Nat :=
  Table.lookup (cfg.cacheOf c).indexSlot 0 (cfg.lineAddr c va.toNat) % cfg.slots c

/-- The number of the set of a slot. -/
def Config.setNumber (cfg : Config) (c : CacheName) (t : Nat) : Nat := (cfg.cacheOf c).sets.getD t 0

/-- The slots of the set with a number, in order. -/
def Config.slotsOfSet (cfg : Config) (c : CacheName) (n : Nat) : List Nat :=
  (List.range (cfg.slots c)).filter fun t => decide (cfg.setNumber c t = n)

/-- `SetOfSlot(c, t)` (R101): all ways of the index of slot t. -/
def Config.setOfSlot (cfg : Config) (c : CacheName) (t : Nat) : List Nat := cfg.slotsOfSet c (cfg.setNumber c t)

/-- `SetOf(c, pa, va)` (R101): the set of the slot that the table names, so it is never empty in a cache that is present. -/
def Config.setOf (cfg : Config) (c : CacheName) (pa : Nat) (va : Word) : List Nat :=
  cfg.setOfSlot c (Table.lookup (cfg.cacheOf c).setOf 0 (2 ^ 32 * pa + va.toNat) % cfg.slots c)

/-- The lines a Fetch and Lock affects, each as the address pair to look it up and fill it by: the line of the address itself
first, then the neighbours `LockSpread` names (R138). -/
def Config.lockTargets (cfg : Config) (c : CacheName) (va : Word) (pa : Nat) : List (Word × Nat) :=
  (va, pa) :: (Table.lookup (cfg.cacheOf c).lockExtra [] va.toNat).map fun d =>
    (va + BitVec.ofInt 32 (d * cfg.lineSize c), (((pa : Int) + d * cfg.lineSize c) % (2 ^ cfg.palen : Nat)).toNat)

/-! ### The configuration of the reset state

A choice of the model (log entry 2): the spec leaves the record open. It is instantiation TV of spec/95_test_vectors.md section 2 made
complete, so that no instruction stops at reset for want of a cache, an option or a translation. -/

/-- TV's tag layout: address bits 31:5, `locked` bit 2, `dirty` bit 1, `valid` bit 0 of `TagLo`; `TagHi` is not used. -/
def standardTag (dirtyBit : Formula) : TagFormat where
  valid := [⟨1, 1⟩]
  dirty := dirtyBit
  locked := [⟨4, 4⟩]
  addr := (List.range 32).map fun i => if i < 5 then [] else [⟨2 ^ i, 2 ^ i⟩]
  lo := [[⟨1, 1⟩], [⟨2, 2⟩], [⟨4, 4⟩], [], []] ++ (List.range 27).map fun i => [⟨2 ^ (i + 8), 2 ^ (i + 8)⟩]
  hi := []

/-- TV's geometry: two ways of four sets of 32-byte lines, slot number `way * 4 + set`. -/
def standardCache (c : CacheName) : CacheConfig where
  sets := [0, 1, 2, 3, 0, 1, 2, 3]
  lineSize := 32
  writeThrough := false
  indexSlot := (List.range 8).map fun t => (⟨0xE0, t * 32⟩, t)
  setOf := (List.range 4).map fun n => (⟨0x60 * 2 ^ 32, n * 32 * 2 ^ 32⟩, n)
  tag := standardTag (if c = .icache then [] else [⟨2, 2⟩])
  tagPair := c
  lockExtra := []
  implDepOp := none
  implDepIsIndex := false

/-- The record the reset state carries (log entry 2). -/
def Config.standard : Config where
  palen := 32
  configAT := 2
  config1IL := 4
  config1DL := 4
  config2SL := 4
  config2TL := 4
  config5L2C := 0
  config5NMS := false
  config5EVA := true
  caches := ⟨standardCache .icache, standardCache .dcache, standardCache .tcache, standardCache .scache⟩
  offered := [4, 5, 6, 7, 17, 18, 19, 20, 21, 22, 23, 25, 26, 27, 28, 29]
  dataRegs := true
  kernelView :=
    { addrErr := []
      unmapped := [⟨⟨0xE0000000, 0x80000000⟩, 0, 3⟩, ⟨⟨0xE0000000, 0xA0000000⟩, 0, 2⟩, ⟨⟨0x80000000, 0⟩, 0, 3⟩]
      mapped := [] }
  userView := { addrErr := [⟨0x80000000, 0x80000000⟩], unmapped := [⟨⟨0x80000000, 0⟩, 0, 3⟩], mapped := [] }
  globalized := []
  watchMatchesCache := false
  fetchOrder := .halfwords
  bigEndian := false

end Sys2Proof
end

