-- ==== Sys2Proof/Machine/State.lean ====
section
/-! DEFINITION. The state of the machine as plain data (spec/10_state.md R10 to R29), the reasons a step can stop
(spec/00_scope.md R7, spec/60_exceptions.md), and the state after reset (R29). -/

namespace Sys2Proof.Machine

/-- A line record (R23). -/
structure Line where
  valid : Bool
  dirty : Bool
  locked : Bool
  /-- The physical address of the line: "the memory address specified by the cache tag". -/
  addr : Nat
  data : List Byte
  deriving DecidableEq, Repr

/-- The record of a slot that no list entry holds, and of every slot after reset (log entry 11). -/
def Line.blank : Line := ⟨false, false, false, 0, []⟩

/-- The line arrays of one core: slot t of cache c is entry t of its list (R23). -/
abbrev Arrays := PerCache (List Line)

/-- A write-back that has started and is not yet visible at the next level (R26). -/
structure Pending where
  pa : Nat
  bytes : List Byte
  deriving DecidableEq, Repr

/-- The free input `hw_error` of one execution of a cache operation (R109). -/
inductive HwError where
  | none
  | cacheError
  | busError
  deriving DecidableEq, Repr

/-- What the environment and the memory system may do between two instructions (R26, R27, R49). `core` 0 is this core, `core` k + 1 is
the k-th of the others. -/
inductive EnvStep where
  /-- R27 (a) for a slot that is not locked: written back if valid and dirty, then invalid. -/
  | evict (core : Nat) (c : CacheName) (slot : Nat)
  /-- R27 (a) for a valid slot hit by an external invalidate or intervention, locked or not (log entry 46). -/
  | external (core : Nat) (c : CacheName) (slot : Nat)
  /-- R27 (b): an invalid unlocked slot is filled with the line of an address. -/
  | fill (core : Nat) (c : CacheName) (slot : Nat) (pa : Nat)
  /-- R26: the pending write-back at a place of the list reaches memory. -/
  | drain (place : Nat)
  /-- R49: a SYNC completes; its encoding and everything else about it are out of scope (R48). -/
  | sync
  deriving DecidableEq, Repr

/-- Who moves next (R27). -/
inductive Turn where
  | core
  | env (e : EnvStep)
  deriving DecidableEq, Repr

/-- The exceptions of R150 with the `info` the rules state. None is taken further: the spec gives no trap entry (R161). -/
inductive Exception where
  /-- R151. -/
  | reservedInstruction
  /-- R152, with the coprocessor number. -/
  | coprocessorUnusable (coprocessor : Nat)
  /-- R153, of the load kind, with the address. -/
  | addressError (va : Word)
  /-- R154. -/
  | tlbRefill (va : Word)
  /-- R155. -/
  | tlbInvalid (va : Word)
  /-- R157. -/
  | cacheError
  /-- R156. -/
  | busError
  deriving DecidableEq, Repr

/-- The UNPREDICTABLE cases (R170, spec/93_implementation_defined.md U1 to U3). -/
inductive UnpredictableCase where
  /-- "Index cacheop unpredictable with VA not unmapped" (R77). -/
  | indexNotUnmapped
  /-- "Cacheop to uncached address is unpredictable" (R79). -/
  | uncachedAddress
  /-- "cacheop targets the line containing the CACHE instruction" (R83). -/
  | ownLine
  deriving DecidableEq, Repr

/-- The UNDEFINED cases (R170, U4). -/
inductive UndefinedCase where
  /-- "all ways of a cache index locked" (R84). -/
  | allWaysLocked
  /-- "miss to a cache index with all ways locked" (R104). -/
  | missAllWaysLocked
  deriving DecidableEq, Repr

/-- Why the machine stops with a fault. -/
inductive Fault where
  /-- Raised by both instructions (R73 to R78, R109) through `raiseException`. Safe: the run ends with the state before the
  instruction, as R161 says. -/
  | exception (e : Exception)
  /-- Raised by both instructions where the spec says UNPREDICTABLE (R77, R79, R83). Safe: no result is given. -/
  | unpredictable (why : UnpredictableCase)
  /-- Raised by Index Store Tag, Fill and Fetch and Lock where the spec says UNDEFINED (R84, R104). Safe: no result is given. -/
  | undefined (why : UndefinedCase)
  deriving DecidableEq, Repr

/-- Why the model has no meaning for a step: the outcome UNSPECIFIED of R7. -/
inductive Refusal where
  /-- Raised by exec's arms for an instruction that has no meaning yet. Safe. -/
  | notModelled (mnemonic : String)
  /-- Raised by both instructions for a value of op that selects no implemented operation (R65, R80). Safe. -/
  | opSelectsNothing (op : BitVec 5)
  /-- Raised by Index Store Tag where it would make two valid lines with one address (R107). Safe. -/
  | duplicateLine (c : CacheName) (addr : Nat)
  /-- Raised by the fetch for a word that is neither instruction (R61). Safe. -/
  | notAnInstruction (why : DecodeError)
  /-- Raised by the fetch where the instruction's own address does not translate: the spec gives no fetch exceptions (R159). Safe. -/
  | fetchNotTranslated (pc : Word)
  deriving DecidableEq, Repr

end Sys2Proof.Machine

namespace Sys2Proof.Machine

/-- The state of the machine. -/
structure State where
  /-- The configuration record (R4): no rule writes it. -/
  cfg : Config
  /-- The general registers; `x[0]` is read through `State.reg` (R10, R11). -/
  x : Vector Word 32
  /-- The address of the instruction being executed (R13). -/
  pc : Word
  /-- What `IsCoprocessor0Enabled` returns (R21). -/
  cp0Enabled : Bool
  /-- The `TagLo` registers, one for each of four pairs; `CacheConfig.tagPair` names a cache's pair (R18). -/
  tagLo : PerCache Word
  /-- The `TagHi` registers (R18). -/
  tagHi : PerCache Word
  /-- `DataLo` (R19). -/
  dataLo : Word
  /-- `DataHi` (R19). -/
  dataHi : Word
  /-- The line records of this core's caches (R23). -/
  caches : Arrays
  /-- The line records of the caches of the other cores of the coherent system (R53, R108). -/
  others : List Arrays
  /-- Pending write-backs, oldest first (R26). -/
  wbPending : List Pending
  /-- Physical memory (R28), in the canonical form of Machine/Memory.lean. -/
  mem : List Host.Cell
  /-- The hardware errors of the coming executions of an operation, soonest first; an empty list is no error (R109, log entry 21). -/
  hwErrors : List HwError
  /-- Who moves in the coming steps, soonest first; an empty list is the core at every step (R27, log entry 23). -/
  turns : List Turn
  /-- How many free values have been drawn (log entry 22). -/
  draws : Nat
  /-- How many bus operations (write-backs and fills, R109) have been started (log entry 44). -/
  busOps : Nat
  deriving DecidableEq, Repr

/-- The lines of a cache after reset: every slot blank (log entry 11; R29 and R180 leave every field unspecified). -/
def resetLines (cfg : Config) (c : CacheName) : List Line :=
  List.replicate (cfg.slots c) { Line.blank with data := List.replicate (cfg.lineSize c) 0#8 }

/-- The machine right after reset (R29; the values the spec does not give are named in log entries 2, 4, 6, 8, 11, 13, 21 to 23, 26 and 44). -/
def State.reset : State where
  cfg := Config.standard
  x := Vector.replicate 32 0#32
  pc := 0xBFC00000#32
  cp0Enabled := true
  tagLo := ⟨0#32, 0#32, 0#32, 0#32⟩
  tagHi := ⟨0#32, 0#32, 0#32, 0#32⟩
  dataLo := 0#32
  dataHi := 0#32
  caches :=
    { icache := resetLines Config.standard .icache
      dcache := resetLines Config.standard .dcache
      tcache := resetLines Config.standard .tcache
      scache := resetLines Config.standard .scache }
  others := []
  wbPending := []
  mem := []
  hwErrors := []
  turns := []
  draws := 0
  busOps := 0

/-- What an implementation dependent operation may leave (R71, R122): records for slots of the cache that op names, in order, the write-backs
it starts, how many lines it fills, and the values of the tag and data registers. -/
structure ImplDepAnswer where
  lines : List (Nat × Line)
  sent : List Pending
  fills : Nat
  tagLo : Word
  tagHi : Word
  dataLo : Word
  dataHi : Word
  deriving DecidableEq, Repr, Inhabited

end Sys2Proof.Machine

namespace Sys2Proof

/-- Free value: the parameter `ImplDepOp(op, ...)` (R4, R122 to R125; log entry 28), a function of everything it could depend on. -/
opaque Config.freeImplDep : BitVec 5 → Word → Nat → Nat → Machine.State → Machine.ImplDepAnswer

end Sys2Proof
end

