-- ==== Sys2Proof/Machine/Memory.lean ====
section
/-! DEFINITION. Physical memory (spec/10_state.md R28): reading and writing bytes of a list of cells in canonical form, line
transfers (spec/20_memory.md R44), and memory as a fill sees it (spec/41_cache_operations.md R103). -/

namespace Sys2Proof.Machine

/-- What an address that is not listed reads as (log entry 13; R29 leaves memory unspecified). -/
def unlistedByte : Byte := 0#8

/-- Canonical form: addresses strictly rising, no cell equal to what an unlisted address reads as. -/
def memoryWf (m : List Host.Cell) : Bool :=
  decide (m.Pairwise fun p q => p.1 < q.1) && m.all fun p => decide (p.2 ≠ unlistedByte)

/-- The byte at an address. -/
def readByte : List Host.Cell → Nat → Byte
  | [], _ => unlistedByte
  | (b, v) :: rest, a => if a = b then v else readByte rest a

/-- The cell of an address put before a list of higher addresses, or left out when it is what an unlisted address reads as. -/
def consCell (a : Nat) (v : Byte) (m : List Host.Cell) : List Host.Cell := if v = unlistedByte then m else (a, v) :: m

/-- Memory with the byte at an address replaced; keeps the canonical form. -/
def writeByte : List Host.Cell → Nat → Byte → List Host.Cell
  | [], a, v => consCell a v []
  | (b, w) :: rest, a, v =>
    if a < b then consCell a v ((b, w) :: rest)
    else if a = b then consCell a v rest
    else (b, w) :: writeByte rest a v

/-- Memory with bytes stored at consecutive physical addresses, each a `PALEN`-bit address (R34; log entry 14). -/
def writeBytes (cfg : Config) : List Host.Cell → Nat → List Byte → List Host.Cell
  | m, _, [] => m
  | m, a, v :: vs => writeBytes cfg (writeByte m (cfg.phys a) v) (a + 1) vs

/-- The bytes at `n` consecutive physical addresses. -/
def readBytes (cfg : Config) (m : List Host.Cell) : Nat → Nat → List Byte
  | _, 0 => []
  | a, n + 1 => readByte m (cfg.phys a) :: readBytes cfg m (a + 1) n

/-- Memory with one pending write-back stored. -/
def storePending (cfg : Config) (m : List Host.Cell) (p : Pending) : List Host.Cell := writeBytes cfg m p.pa p.bytes

/-- Memory with pending write-backs stored in order. -/
def storeAll (cfg : Config) (m : List Host.Cell) (ps : List Pending) : List Host.Cell := ps.foldl (storePending cfg) m

/-- `MemView(a, n)` (R103): memory with every pending write-back applied in order. -/
def State.memView (s : State) (a n : Nat) : List Byte := readBytes s.cfg (storeAll s.cfg s.mem s.wbPending) a n

end Sys2Proof.Machine
end

