-- ==== Sys2Proof/Machine/Flags.lean ====
section
/-! DEFINITION. The hardware has no condition flags (spec/10_state.md section 3). The only flags are those of a line record,
`valid`, `dirty` and `locked` (R23): what each operation makes of them, and the tag a line shows to software
(spec/41_cache_operations.md R102, R105 to R107). -/

namespace Sys2Proof.Machine

/-- `InvalidateSlot` on a record (R105): not valid, not dirty, not locked; address and data stay. -/
def Line.invalidated (l : Line) : Line := { l with valid := false, dirty := false, locked := false }

/-- Hit Writeback leaves the line clean and otherwise as it was (R135). -/
def Line.cleaned (l : Line) : Line := { l with dirty := false }

/-- Fetch and Lock leaves the line locked and otherwise as it was (R138). -/
def Line.lockSet (l : Line) : Line := { l with locked := true }

/-- Whether a write-back of the line sends its bytes on (R102): valid and dirty, in a cache whose lines can be dirty (R24). -/
def Line.mustWriteBack (cfg : Config) (c : CacheName) (l : Line) : Bool := cfg.canBeDirty c && l.valid && l.dirty

/-- The record holds the line with an address (R101). -/
def Line.holdsLine (l : Line) (a : Nat) : Bool := l.valid && decide (l.addr = a)

/-- What `DecodeTag` returns (R107). -/
structure Tag where
  valid : Bool
  dirty : Bool
  locked : Bool
  addr : Nat
  deriving DecidableEq, Repr

/-- The key of the decoding formulas: `TagHi` above the 32 bits of `TagLo`. -/
def tagKey (lo hi : Word) : Nat := 2 ^ 32 * hi.toNat + lo.toNat

/-- `DecodeTag(c, lo, hi)` under the three constraints of R107: zero registers give no flag, no dirty line in a cache that has none,
and a line address. -/
def decodeTag (cfg : Config) (c : CacheName) (lo hi : Word) : Tag where
  valid := decide (tagKey lo hi ≠ 0) && (cfg.cacheOf c).tag.valid.holds (tagKey lo hi)
  dirty := decide (tagKey lo hi ≠ 0) && cfg.canBeDirty c && (cfg.cacheOf c).tag.dirty.holds (tagKey lo hi)
  locked := decide (tagKey lo hi ≠ 0) && (cfg.cacheOf c).tag.locked.holds (tagKey lo hi)
  addr := cfg.lineAddr c (cfg.phys (formulaBits (cfg.cacheOf c).tag.addr (tagKey lo hi)))

/-- A list of bytes as a number, the first byte lowest. -/
def bytesNumber : List Byte → Nat
  | [] => 0
  | b :: bs => b.toNat + 256 * bytesNumber bs

/-- A line record as the key of the encoding formulas: bit 0 `valid`, bit 1 `dirty`, bit 2 `locked`, then `PALEN` bits of `addr`, then
the data. -/
def Line.key (cfg : Config) (l : Line) : Nat :=
  l.valid.toNat + 2 * l.dirty.toNat + 4 * l.locked.toNat + 8 * (cfg.phys l.addr + 2 ^ cfg.palen * bytesNumber l.data)

/-- The first result of `EncodeTag(c, line)` (R106). -/
def encodeTagLo (cfg : Config) (c : CacheName) (l : Line) : Word :=
  BitVec.ofNat 32 (formulaBits (cfg.cacheOf c).tag.lo (l.key cfg))

/-- The second result of `EncodeTag(c, line)` (R106). -/
def encodeTagHi (cfg : Config) (c : CacheName) (l : Line) : Word :=
  BitVec.ofNat 32 (formulaBits (cfg.cacheOf c).tag.hi (l.key cfg))

/-- A list of bytes cut or filled up with zeros to a length. -/
def fitBytes (n : Nat) (bs : List Byte) : List Byte := (bs ++ List.replicate n 0#8).take n

/-- A record as cache c can hold it (R23, R24, R34): a record that the cache can hold is as it was. -/
def Line.fitted (cfg : Config) (c : CacheName) (l : Line) : Line :=
  { l with
    dirty := cfg.canBeDirty c && l.dirty
    addr := cfg.lineAddr c (cfg.phys l.addr)
    data := fitBytes (cfg.lineSize c) l.data }

/-- A write-back as a write-back of a line of cache c (R44): whole lines are as they were. -/
def Pending.fitted (cfg : Config) (c : CacheName) (p : Pending) : Pending :=
  ⟨cfg.lineAddr c (cfg.phys p.pa), fitBytes (cfg.lineSize c) p.bytes⟩

/-- Index Store Tag on a record: the tag replaces everything but the data (R107). -/
def Line.retagged (l : Line) (tag : Tag) : Line :=
  { valid := tag.valid, dirty := tag.dirty, locked := tag.locked, addr := tag.addr, data := l.data }

end Sys2Proof.Machine
end

