-- ==== Sys2Proof/Machine/Ops.lean ====
section
/-! DEFINITION. The named operations over the state: line records, tag registers, exceptions and completion, and the helper
procedures of spec/41_cache_operations.md R101 to R108. The core that runs the instruction is core 0. -/

namespace Sys2Proof.Machine

/-- The outcome of an instruction or of a part of one (R7). -/
abbrev Result := Host.Outcome State Fault Refusal

/-- The next part runs on the state the first leaves; an exception, fault or refusal ends the instruction (R6). -/
def andThen (o : Result) (f : State → Result) : Result :=
  match o with
  | .next s => f s
  | .fault r => .fault r
  | .refused r => .refused r

/-- Raising an exception (R161, decision D6): the run ends with the state before the instruction; the spec describes no trap entry and
no return (R162), so there is no saved register, mode or handler to write. -/
def raiseException (e : Exception) : Result := .fault (.exception e)

/-- Completion (R81): the next instruction is four bytes on, modulo 2^32 (log entry 7). -/
def State.advance (s : State) : State := { s with pc := s.pc + 4#32 }

/-! ### Line records (R23) -/

/-- The line arrays of a core. -/
def State.arrays (s : State) : Nat → Arrays
  | 0 => s.caches
  | k + 1 => s.others.getD k ⟨[], [], [], []⟩

/-- The state with a core's line arrays replaced (a core that does not exist has none to replace). -/
def State.setArrays (s : State) (core : Nat) (a : Arrays) : State :=
  match core with
  | 0 => { s with caches := a }
  | k + 1 => { s with others := s.others.set k a }

/-- The record of slot t of a list of records. -/
def slotLine (ls : List Line) (t : Nat) : Line := ls.getD t Line.blank

/-- The list of records with slot t's record replaced. -/
def putLine : List Line → Nat → Line → List Line
  | [], 0, l => [l]
  | [], t + 1, l => Line.blank :: putLine [] t l
  | _ :: ls, 0, l => l :: ls
  | k :: ls, t + 1, l => k :: putLine ls t l

/-- `cache[c][t]` of a core. -/
def State.line (s : State) (core : Nat) (c : CacheName) (t : Nat) : Line := slotLine ((s.arrays core).get c) t

/-- `cache[c][t] <- l` of a core. -/
def State.setLine (s : State) (core : Nat) (c : CacheName) (t : Nat) (l : Line) : State :=
  s.setArrays core ((s.arrays core).set c (putLine ((s.arrays core).get c) t l))

/-! ### Tag registers (R18) -/

/-- `TagLo[c]`. -/
def State.tagLoOf (s : State) (c : CacheName) : Word := s.tagLo.get (s.cfg.cacheOf c).tagPair

/-- `TagHi[c]`. -/
def State.tagHiOf (s : State) (c : CacheName) : Word := s.tagHi.get (s.cfg.cacheOf c).tagPair

/-- `TagLo[c] <- lo; TagHi[c] <- hi`. -/
def State.setTag (s : State) (c : CacheName) (lo hi : Word) : State :=
  { s with
    tagLo := s.tagLo.set (s.cfg.cacheOf c).tagPair lo
    tagHi := s.tagHi.set (s.cfg.cacheOf c).tagPair hi }

/-- `DataLo <- lo; DataHi <- hi`, where the registers are implemented (R19). -/
def State.setData (s : State) (lo hi : Word) : State := if s.cfg.dataRegs then { s with dataLo := lo, dataHi := hi } else s

/-! ### Lookup (R101) -/

/-- `HitSlot(c, pa)` of a core: the slot that holds the line of a physical address. -/
def State.hitSlot (s : State) (core : Nat) (c : CacheName) (pa : Nat) : Option Nat :=
  (List.range (s.cfg.slots c)).find? fun t => (s.line core c t).holdsLine (s.cfg.lineAddr c pa)

/-- Another slot of c than t holds the line with an address (R107). -/
def State.heldElsewhere (s : State) (c : CacheName) (t a : Nat) : Bool :=
  (List.range (s.cfg.slots c)).any fun u => decide (u ≠ t) && (s.line 0 c u).holdsLine a

/-- The physical addresses of the four bytes of the instruction at `pc` (R83), those that translate. -/
def State.ownBytes (s : State) : List Nat :=
  [0#32, 1#32, 2#32, 3#32].filterMap fun k =>
    match s.cfg.translate (s.pc + k) false with
    | .ok pa _ => some pa
    | .refill => none
    | .invalid => none

/-- The test of R83 on a record of cache c: it holds the line of some byte of the instruction. -/
def State.isOwnLine (s : State) (c : CacheName) (l : Line) : Bool :=
  s.ownBytes.any fun p => l.holdsLine (s.cfg.lineAddr c p)

/-- `OwnLineCheck(c, t)` (R83), then the rest. -/
def ownLineCheck (core : Nat) (c : CacheName) (t : Nat) (s : State) (rest : State → Result) : Result :=
  if s.isOwnLine c (s.line core c t) then .fault (.unpredictable .ownLine) else rest s

/-! ### Actions on one line (R102 to R105) -/

/-- Bus operations are started (R109). -/
def State.busOp (s : State) (n : Nat) : State := { s with busOps := s.busOps + n }

/-- A write-back is started, which is a bus operation (R102). -/
def State.send (s : State) (p : Pending) : State := { s with wbPending := s.wbPending ++ [p], busOps := s.busOps + 1 }

/-- `WriteBackLine(c, t)` (R102). -/
def State.writeBackLine (s : State) (core : Nat) (c : CacheName) (t : Nat) : State :=
  if (s.line core c t).mustWriteBack s.cfg c then s.send ⟨(s.line core c t).addr, (s.line core c t).data⟩ else s

/-- `InvalidateSlot(c, t)` (R105). -/
def State.invalidateSlot (s : State) (core : Nat) (c : CacheName) (t : Nat) : State :=
  s.setLine core c t (s.line core c t).invalidated

/-- The record a fill makes (R103). -/
def State.filledLine (s : State) (c : CacheName) (pa : Nat) : Line where
  valid := true
  dirty := false
  locked := false
  addr := s.cfg.lineAddr c pa
  data := s.memView (s.cfg.lineAddr c pa) (s.cfg.lineSize c)

/-- `FillLine(c, t, pa)` (R103), which is a bus operation. -/
def State.fillLine (s : State) (core : Nat) (c : CacheName) (t pa : Nat) : State :=
  (s.setLine core c t (s.filledLine c pa)).busOp 1

/-- The slots `ChooseVictim(c, pa, va)` may return (R104). -/
def State.victims (s : State) (c : CacheName) (pa : Nat) (va : Word) : List Nat :=
  (s.cfg.setOf c pa va).filter fun t => !(s.line 0 c t).locked

/-- The candidate a free value picks: any one of them (R104). -/
def pickFrom (candidates : List Nat) (choice : Nat) : Nat := candidates.getD (choice % candidates.length) 0

/-- `ChooseVictim(c, pa, va)` (R104), then the rest with the slot chosen; `choice` is the free value. -/
def chooseVictim (c : CacheName) (pa : Nat) (va : Word) (choice : Nat) (s : State) (rest : Nat → State → Result) : Result :=
  if (s.victims c pa va).isEmpty then .fault (.undefined .missAllWaysLocked)
  else rest (pickFrom (s.victims c pa va) choice) s

/-- Every slot of the set of slot t other than t is locked (R84). -/
def State.othersLocked (s : State) (c : CacheName) (t : Nat) : Bool :=
  (s.cfg.setOfSlot c t).all fun u => decide (u = t) || (s.line 0 c u).locked

/-- The test of R84 for locking slot t, then the rest. -/
def lockAllWaysCheck (c : CacheName) (t : Nat) (s : State) (rest : State → Result) : Result :=
  if s.othersLocked c t then .fault (.undefined .allWaysLocked) else rest s

/-- One free value is used up (log entry 22). -/
def State.drawn (s : State) : State := { s with draws := s.draws + 1 }

/-! ### What an implementation dependent operation may write (R71, R122; log entry 28) -/

/-- A record is put in a slot of this core's cache c as the cache can hold it; it is not valid where another slot holds its line (R25). -/
def State.writeSlot (s : State) (c : CacheName) (t : Nat) (l : Line) : State :=
  if t < s.cfg.slots c then
    s.setLine 0 c t
      { l.fitted s.cfg c with valid := l.valid && !s.heldElsewhere c t (s.cfg.lineAddr c (s.cfg.phys l.addr)) }
  else s

/-- Records are put in slots in order. -/
def State.writeSlots (s : State) (c : CacheName) : List (Nat × Line) → State
  | [] => s
  | w :: ws => (s.writeSlot c w.1 w.2).writeSlots c ws

/-- Write-backs of lines of cache c are started in order. -/
def State.sendAll (s : State) (c : CacheName) : List Pending → State
  | [] => s
  | p :: ps => (s.send (p.fitted s.cfg c)).sendAll c ps

/-- The state with an answer of `Config.freeImplDep` for cache c carried out; one free value is used up. -/
def State.answered (s : State) (c : CacheName) (a : ImplDepAnswer) : State :=
  (((((s.writeSlots c a.lines).sendAll c a.sent).busOp a.fills).setTag c a.tagLo a.tagHi).setData a.dataLo a.dataHi).drawn

/-! ### Broadcast (R53, R108) -/

/-- An action for each of a list of cores in turn. -/
def eachCore (act : Nat → State → Result) : List Nat → State → Result
  | [], s => .next s
  | k :: ks, s => andThen (act k s) (eachCore act ks)

/-- `Broadcast(op, cca, act)` (R108): on every core when globalized, else on this core alone. -/
def broadcast (op : BitVec 5) (cca : Nat) (act : Nat → State → Result) (s : State) : Result :=
  eachCore act (if s.cfg.isGlobalized op cca then List.range (s.others.length + 1) else [0]) s

end Sys2Proof.Machine
end

