-- ==== Sys2Proof/Machine/Operands.lean ====
section
/-! DEFINITION. The one operand form, register plus signed nine-bit byte offset (spec/30_encoding.md R59, spec/40_cache.md R76), and
general register reads (spec/10_state.md R10, R11). No instruction writes a general register. -/

namespace Sys2Proof.Machine

/-- `x[i]`; `x[0]` reads as zero (R11). -/
def State.reg (s : State) (i : BitVec 5) : Word := if i = 0#5 then 0#32 else s.x[i.toNat]

/-- `sext_XLEN` of the offset field (R59). -/
def offsetWord (offset : Int) : Word := BitVec.ofInt 32 offset

/-- `va := x[rs] + offset`, modulo 2^32 (R76). -/
def State.effectiveAddress (s : State) (rs : BitVec 5) (offset : Int) : Word := s.reg rs + offsetWord offset

end Sys2Proof.Machine
end

