-- ==== Sys2Proof/Machine/Environment.lean ====
section
/-! DEFINITION. What the environment of the caches and the memory system do between two instructions (spec/10_state.md R26, R27,
spec/20_memory.md R49). A move that its rule does not admit in the state leaves the state as it is (log entry 23). -/

namespace Sys2Proof.Machine

/-- The slot is one of a cache that is present (R22, R23). -/
def State.hasSlot (s : State) (c : CacheName) (t : Nat) : Bool := s.cfg.present c && decide (t < s.cfg.slots c)

/-- R27 (a): the slot is written back if valid and dirty, and becomes invalid. DESIGN CHOICE (log entry 45): it becomes invalid as
`InvalidateSlot` of R105 makes a slot invalid, its dirty and locked flags cleared too, a locked line hit by an external invalidate included;
R27 says only "becomes invalid", and R105's list of what clears a lock does not name displacement. -/
def State.displace (s : State) (core : Nat) (c : CacheName) (t : Nat) : State :=
  if s.hasSlot c t then (s.writeBackLine core c t).invalidateSlot core c t else s

/-- R27 (b): the slot is invalid and not locked, and no slot holds the line already (R25). -/
def State.admitsFill (s : State) (core : Nat) (c : CacheName) (t pa : Nat) : Bool :=
  s.hasSlot c t && !(s.line core c t).valid && !(s.line core c t).locked && (s.hitSlot core c pa).isNone

/-- R26: no earlier record of the list is for the same address. -/
def mayDrain (ps : List Pending) (k : Nat) : Bool :=
  match ps[k]? with
  | some p => (ps.take k).all fun q => decide (q.pa ≠ p.pa)
  | none => false

/-- R26: the record at a place of the list is stored to memory and leaves the list. -/
def State.drain (s : State) (k : Nat) : State :=
  match s.wbPending[k]? with
  | some p =>
    if mayDrain s.wbPending k then
      { s with wbPending := s.wbPending.eraseIdx k, mem := storePending s.cfg s.mem p }
    else s
  | none => s

/-- R49: when a SYNC completes every record has been stored, in order. -/
def State.synced (s : State) : State := { s with wbPending := [], mem := storeAll s.cfg s.mem s.wbPending }

/-- One move of the environment. DEDUCED (log entry 46): an external invalidate or intervention hits a slot only if the slot is valid, since a
hit is on a valid line (R101); so it leaves a slot that is locked but not valid as it is (R27, R187). -/
def environmentStep (e : EnvStep) (s : State) : State :=
  match e with
  | .evict core c t => if (s.line core c t).locked then s else s.displace core c t
  | .external core c t => if (s.line core c t).valid then s.displace core c t else s
  | .fill core c t pa => if s.admitsFill core c t (s.cfg.phys pa) then s.fillLine core c t (s.cfg.phys pa) else s
  | .drain k => s.drain k
  | .sync => s.synced

end Sys2Proof.Machine
end

