-- ==== Sys2Proof/Machine/CacheOps.lean ====
section
/-! DEFINITION. The cache operations, one definition for each value of `op` (spec/41_cache_operations.md R110 to R141), over the shapes
the spec gives them, and `CacheOp` (spec/40_cache.md R80, spec/41_cache_operations.md R100, R109). -/

namespace Sys2Proof.Machine

/-! ### Shapes -/

/-- Index Invalidate (R110). -/
def indexInvalidate (c : CacheName) (va : Word) (s : State) : Result :=
  ownLineCheck 0 c (s.cfg.indexSlot c va) s fun s => .next (s.invalidateSlot 0 c (s.cfg.indexSlot c va))

/-- Index Writeback Invalidate (R111). -/
def indexWriteBackInvalidate (c : CacheName) (va : Word) (s : State) : Result :=
  ownLineCheck 0 c (s.cfg.indexSlot c va) s fun s =>
    .next ((s.writeBackLine 0 c (s.cfg.indexSlot c va)).invalidateSlot 0 c (s.cfg.indexSlot c va))

/-- The data registers after Index Load Tag (R106): two free values where the registers are implemented. -/
def State.loadData (s : State) : State :=
  (s.setData (Config.freeData s.draws) (Config.freeData (s.draws + 1))).drawn.drawn

/-- `IndexLoadTag(c, va)` (R106). -/
def indexLoadTag (c : CacheName) (va : Word) (s : State) : Result :=
  .next (s.setTag c (encodeTagLo s.cfg c (s.line 0 c (s.cfg.indexSlot c va)))
    (encodeTagHi s.cfg c (s.line 0 c (s.cfg.indexSlot c va)))).loadData

/-- `IndexStoreTag(c, va)` with the tag the registers decode to (R107). -/
def storeTag (c : CacheName) (t : Nat) (tag : Tag) (s : State) : Result :=
  if tag.valid && s.heldElsewhere c t tag.addr then .refused (.duplicateLine c tag.addr)
  else if tag.locked && s.othersLocked c t then .fault (.undefined .allWaysLocked)
  else .next (s.setLine 0 c t ((s.line 0 c t).retagged tag))

/-- `IndexStoreTag(c, va)` (R107). -/
def indexStoreTag (c : CacheName) (va : Word) (s : State) : Result :=
  storeTag c (s.cfg.indexSlot c va) (decodeTag s.cfg c (s.tagLoOf c) (s.tagHiOf c)) s

/-- Hit Invalidate on one core (R126). -/
def hitInvalidateOn (c : CacheName) (pa : Nat) (core : Nat) (s : State) : Result :=
  match s.hitSlot core c pa with
  | none => .next s
  | some t => ownLineCheck core c t s fun s => .next (s.invalidateSlot core c t)

/-- Hit Invalidate (R126). -/
def hitInvalidate (op : BitVec 5) (c : CacheName) (pa cca : Nat) (s : State) : Result :=
  broadcast op cca (hitInvalidateOn c pa) s

/-- Hit Writeback Invalidate on one core (R131). -/
def hitWriteBackInvalidateOn (c : CacheName) (pa : Nat) (core : Nat) (s : State) : Result :=
  match s.hitSlot core c pa with
  | none => .next s
  | some t => ownLineCheck core c t s fun s => .next ((s.writeBackLine core c t).invalidateSlot core c t)

/-- Hit Writeback Invalidate (R131). -/
def hitWriteBackInvalidate (op : BitVec 5) (c : CacheName) (pa cca : Nat) (s : State) : Result :=
  broadcast op cca (hitWriteBackInvalidateOn c pa) s

/-- Hit Writeback on one core (R135). -/
def hitWriteBackOn (c : CacheName) (pa : Nat) (core : Nat) (s : State) : Result :=
  match s.hitSlot core c pa with
  | none => .next s
  | some t =>
    if (s.line core c t).dirty then
      .next ((s.writeBackLine core c t).setLine core c t (s.line core c t).cleaned)
    else .next s

/-- Hit Writeback (R135). -/
def hitWriteBack (op : BitVec 5) (c : CacheName) (pa cca : Nat) (s : State) : Result :=
  broadcast op cca (hitWriteBackOn c pa) s

/-- A Fill of a line that is present (R130, decision D25): `keep` is the free value; a line read again keeps its lock, and reading it is
a bus operation (R103). -/
def refill (c : CacheName) (pa t : Nat) (keep : Bool) (s : State) : State :=
  if keep then s else (s.setLine 0 c t { s.filledLine c pa with locked := (s.line 0 c t).locked }).busOp 1

/-- Fill (R130). Either path uses up one free value. -/
def fill (c : CacheName) (va : Word) (pa : Nat) (s : State) : Result :=
  match s.hitSlot 0 c pa with
  | some t => .next (refill c pa t (Config.freeFillKeeps s.draws) s).drawn
  | none => chooseVictim c pa va (Config.freeVictim s.draws) s fun t s => .next (s.fillLine 0 c t pa).drawn

/-- Locking slot t (R138): the test of R84, then the lock. -/
def lockSlot (c : CacheName) (t : Nat) (s : State) : Result :=
  lockAllWaysCheck c t s fun s => .next (s.setLine 0 c t (s.line 0 c t).lockSet)

/-- Fetch and Lock of one line (R138); `choice` is the free value of the victim. -/
def fetchAndLockLine (c : CacheName) (va : Word) (pa choice : Nat) (s : State) : Result :=
  match s.hitSlot 0 c pa with
  | some t => lockSlot c t s
  | none =>
    chooseVictim c pa va choice s fun t s => lockSlot c t ((s.writeBackLine 0 c t).fillLine 0 c t pa)

/-- Fetch and Lock of lines in turn (R138); each uses up one free value. -/
def fetchAndLockLines (c : CacheName) : List (Word × Nat) → State → Result
  | [], s => .next s
  | (va, pa) :: rest, s =>
    andThen (fetchAndLockLine c va pa (Config.freeVictim s.draws) s) fun s => fetchAndLockLines c rest s.drawn

/-- Fetch and Lock (R138): the line of the address, and the neighbours `LockSpread` names. -/
def fetchAndLock (c : CacheName) (va : Word) (pa : Nat) (s : State) : Result :=
  fetchAndLockLines c (s.cfg.lockTargets c va pa) s

/-! ### The values of op -/

/-- op 0, ICache Index Invalidate (R110). -/
def op0 (va : Word) (s : State) : Result := indexInvalidate .icache va s

/-- op 1, DCache Index Writeback Invalidate (R111). -/
def op1 (va : Word) (s : State) : Result := indexWriteBackInvalidate .dcache va s

/-- op 2, TCache Index Writeback Invalidate (R112). -/
def op2 (va : Word) (s : State) : Result := indexWriteBackInvalidate .tcache va s

/-- op 3, SCache Index Writeback Invalidate (R113). -/
def op3 (va : Word) (s : State) : Result := indexWriteBackInvalidate .scache va s

/-- op 4, ICache Index Load Tag (R114). -/
def op4 (va : Word) (s : State) : Result := indexLoadTag .icache va s

/-- op 5, DCache Index Load Tag (R115). -/
def op5 (va : Word) (s : State) : Result := indexLoadTag .dcache va s

/-- op 6, TCache Index Load Tag (R116). -/
def op6 (va : Word) (s : State) : Result := indexLoadTag .tcache va s

/-- op 7, SCache Index Load Tag (R117). -/
def op7 (va : Word) (s : State) : Result := indexLoadTag .scache va s

/-- op 8, ICache Index Store Tag (R118). -/
def op8 (va : Word) (s : State) : Result := indexStoreTag .icache va s

/-- op 9, DCache Index Store Tag (R119). -/
def op9 (va : Word) (s : State) : Result := indexStoreTag .dcache va s

/-- op 10, TCache Index Store Tag (R120). -/
def op10 (va : Word) (s : State) : Result := indexStoreTag .tcache va s

/-- op 11, SCache Index Store Tag (R121). -/
def op11 (va : Word) (s : State) : Result := indexStoreTag .scache va s

/-- op 16, ICache Hit Invalidate (R126). -/
def op16 (pa cca : Nat) (s : State) : Result := hitInvalidate 16#5 .icache pa cca s

/-- op 17, DCache Hit Invalidate (R127): a dirty line is lost. -/
def op17 (pa cca : Nat) (s : State) : Result := hitInvalidate 17#5 .dcache pa cca s

/-- op 18, TCache Hit Invalidate (R128). -/
def op18 (pa cca : Nat) (s : State) : Result := hitInvalidate 18#5 .tcache pa cca s

/-- op 19, SCache Hit Invalidate (R129). -/
def op19 (pa cca : Nat) (s : State) : Result := hitInvalidate 19#5 .scache pa cca s

/-- op 20, ICache Fill (R130). -/
def op20 (va : Word) (pa : Nat) (s : State) : Result := fill .icache va pa s

/-- op 21, DCache Hit Writeback Invalidate (R131). -/
def op21 (pa cca : Nat) (s : State) : Result := hitWriteBackInvalidate 21#5 .dcache pa cca s

/-- op 22, TCache Hit Writeback Invalidate (R132). -/
def op22 (pa cca : Nat) (s : State) : Result := hitWriteBackInvalidate 22#5 .tcache pa cca s

/-- op 23, SCache Hit Writeback Invalidate (R133). -/
def op23 (pa cca : Nat) (s : State) : Result := hitWriteBackInvalidate 23#5 .scache pa cca s

/-- op 24, unused (R134): UNSPECIFIED. -/
def op24 : Result := .refused (.opSelectsNothing 24#5)

/-- op 25, DCache Hit Writeback (R135). -/
def op25 (pa cca : Nat) (s : State) : Result := hitWriteBack 25#5 .dcache pa cca s

/-- op 26, TCache Hit Writeback (R136). -/
def op26 (pa cca : Nat) (s : State) : Result := hitWriteBack 26#5 .tcache pa cca s

/-- op 27, SCache Hit Writeback (R137). -/
def op27 (pa cca : Nat) (s : State) : Result := hitWriteBack 27#5 .scache pa cca s

/-- op 28, ICache Fetch and Lock (R138). -/
def op28 (va : Word) (pa : Nat) (s : State) : Result := fetchAndLock .icache va pa s

/-- op 29, DCache Fetch and Lock (R139). -/
def op29 (va : Word) (pa : Nat) (s : State) : Result := fetchAndLock .dcache va pa s

/-- op 30, unused (R140): UNSPECIFIED. -/
def op30 : Result := .refused (.opSelectsNothing 30#5)

/-- op 31, unused (R141): UNSPECIFIED. -/
def op31 : Result := .refused (.opSelectsNothing 31#5)

/-- The operations the source describes, by value of op; 12 to 15 have no behaviour of their own. -/
def standardOp (op : BitVec 5) (va : Word) (pa cca : Nat) (s : State) : Result :=
  match op.toNat with
  | 0 => op0 va s
  | 1 => op1 va s
  | 2 => op2 va s
  | 3 => op3 va s
  | 4 => op4 va s
  | 5 => op5 va s
  | 6 => op6 va s
  | 7 => op7 va s
  | 8 => op8 va s
  | 9 => op9 va s
  | 10 => op10 va s
  | 11 => op11 va s
  | 16 => op16 pa cca s
  | 17 => op17 pa cca s
  | 18 => op18 pa cca s
  | 19 => op19 pa cca s
  | 20 => op20 va pa s
  | 21 => op21 pa cca s
  | 22 => op22 pa cca s
  | 23 => op23 pa cca s
  | 24 => op24
  | 25 => op25 pa cca s
  | 26 => op26 pa cca s
  | 27 => op27 pa cca s
  | 28 => op28 va pa s
  | 29 => op29 va pa s
  | 30 => op30
  | 31 => op31
  | _ => .refused (.opSelectsNothing op)

/-- Described operations on one cache in turn, by kind (log entry 28). All of them act on the cache that op names, so an instruction affects
one level of cache (R54, R62). -/
def standardOps (c : CacheName) : List (BitVec 3) → Word → Nat → Nat → State → Result
  | [], _, _, _, s => .next s
  | k :: ks, va, pa, cca, s => andThen (standardOp (opOf k c) va pa cca s) (standardOps c ks va pa cca)

/-- The behaviour the configuration supplies for a value 12 to 15; UNSPECIFIED where it supplies none (R122). -/
def implDep (op : BitVec 5) (va : Word) (pa cca : Nat) (s : State) : Result :=
  match (s.cfg.cacheOf (opCache op)).implDepOp with
  | some (.operations kinds) => standardOps (opCache op) kinds va pa cca s
  | some .other => .next (s.answered (opCache op) (Config.freeImplDep op va pa cca s))
  | none => .refused (.opSelectsNothing op)

/-- op 12, ICache Implementation Dependent Op (R122). -/
def op12 (va : Word) (pa cca : Nat) (s : State) : Result := implDep 12#5 va pa cca s

/-- op 13, DCache Implementation Dependent Op (R123). -/
def op13 (va : Word) (pa cca : Nat) (s : State) : Result := implDep 13#5 va pa cca s

/-- op 14, TCache Implementation Dependent Op (R124). -/
def op14 (va : Word) (pa cca : Nat) (s : State) : Result := implDep 14#5 va pa cca s

/-- op 15, SCache Implementation Dependent Op (R125). -/
def op15 (va : Word) (pa cca : Nat) (s : State) : Result := implDep 15#5 va pa cca s

/-- The rule numbered 110 + op (R100). -/
def operation (op : BitVec 5) (va : Word) (pa cca : Nat) (s : State) : Result :=
  match op.toNat with
  | 12 => op12 va pa cca s
  | 13 => op13 va pa cca s
  | 14 => op14 va pa cca s
  | 15 => op15 va pa cca s
  | _ => standardOp op va pa cca s

/-! ### Hardware errors and CacheOp (R109, R80) -/

/-- Whether an execution of op may raise Cache Error (R109, R142): every operation but 4 to 11. -/
def mayCacheError (op : BitVec 5) : Bool := !(decide (opKind op = 1#3) || decide (opKind op = 2#3))

/-- Whether an execution of op may raise Bus Error (R142), provided that it makes a write-back or a fill (R109); 12 to 15 are the
implementation's. -/
def mayBusError (op : BitVec 5) : Bool :=
  decide (op = 1#5) || decide (op = 2#5) || decide (op = 3#5) || opImplDep op || decide (opKind op = 5#3)
    || decide (opKind op = 6#3) || decide (opKind op = 7#3)

/-- The hardware error of this execution of op: the next of the list, as far as R109 lets it occur. `bus` says whether the execution
makes a write-back or a fill: only then is there a bus operation to end in an error (R109, R156, decision D14). -/
def State.hwError (s : State) (op : BitVec 5) (bus : Bool) : HwError :=
  match s.hwErrors with
  | [] => .none
  | .none :: _ => .none
  | .cacheError :: _ => if mayCacheError op then .cacheError else .none
  | .busError :: _ => if mayBusError op && bus then .busError else .none

/-- The error of this execution is used up. -/
def State.errorTaken (s : State) : State := { s with hwErrors := s.hwErrors.tail }

/-- The end of an execution of an operation (R109), from the state before it and the state it would leave: the exception of its
hardware error, else its effect. -/
def reportError (op : BitVec 5) (before after : State) : Result :=
  match before.hwError op (decide (after.busOps ≠ before.busOps)) with
  | .none => .next after.errorTaken
  | .cacheError => raiseException .cacheError
  | .busError => raiseException .busError

/-- `CacheOp(va, pa, cca, op)` (R80, R100). -/
def cacheOp (op : BitVec 5) (va : Word) (pa cca : Nat) (s : State) : Result :=
  if s.cfg.opImplemented op then andThen (operation op va pa cca s) (reportError op s)
  else .refused (.opSelectsNothing op)

end Sys2Proof.Machine
end

