-- ==== Sys2Proof/Machine/CacheInstr.lean ====
section
/-! DEFINITION. The step list of both instructions (spec/40_cache.md R70, R73 to R81) and the meaning of each (R71, R72). -/

namespace Sys2Proof.Machine

/-- Steps 7 and 8 of R70 for a translated address (R79, R80, R81). -/
def operateAndAdvance (op : BitVec 5) (va : Word) (pa cca : Nat) (s : State) : Result :=
  if uncached cca then
    if 2 ≤ s.cfg.configAT then .next s.advance else .fault (.unpredictable .uncachedAddress)
  else andThen (cacheOp op va pa cca s) fun s => .next s.advance

/-- Steps 4 to 8 of R70 for the effective address (R76 to R81). -/
def cacheAt (isEva : Bool) (op : BitVec 5) (va : Word) (s : State) : Result :=
  if s.cfg.addrErr va isEva then raiseException (.addressError va)
  else if s.cfg.isIndexOp op && !s.cfg.isUnmapped va isEva then .fault (.unpredictable .indexNotUnmapped)
  else
    match s.cfg.translate va isEva with
    | .refill => raiseException (.tlbRefill va)
    | .invalid => raiseException (.tlbInvalid va)
    | .ok pa cca => operateAndAdvance op va pa cca s

/-- `CacheInstr(op, rs, offset, is_eva)` (R70). -/
def cacheInstr (isEva : Bool) (op rs : BitVec 5) (offset : Int) (s : State) : Result :=
  if s.cfg.config5NMS && s.cfg.noCaches then raiseException .reservedInstruction
  else if isEva && !s.cfg.config5EVA then raiseException .reservedInstruction
  else if !s.cp0Enabled then raiseException (.coprocessorUnusable 0)
  else cacheAt isEva op (s.effectiveAddress rs offset) s

/-- `CACHE op, offset(rs)` (R71). -/
def execCache (op rs : BitVec 5) (offset : Int) (s : State) : Result := cacheInstr false op rs offset s

/-- `CACHEE op, offset(rs)` (R72). -/
def execCachee (op rs : BitVec 5) (offset : Int) (s : State) : Result := cacheInstr true op rs offset s

end Sys2Proof.Machine
end

