-- ==== Sys2Proof/Machine/Dispatch.lean ====
section
/-! DEFINITION. The dispatch: one arm per instruction of spec/opcode_table.json. -/

namespace Sys2Proof.Machine

def exec (i : Instr) (s : State) : Host.Outcome State Fault Refusal :=
  match i with
  | .cache op rs offset => Sys2Proof.Machine.execCache op rs offset s
  | .cachee op rs offset => Sys2Proof.Machine.execCachee op rs offset s

end Sys2Proof.Machine
end

