-- ==== Sys2Proof/Machine/Fetch.lean ====
section
/-! DEFINITION. Fetching the instruction word at `pc` from physical memory (the parameter `FetchInstr32`, spec/00_scope.md R4, spec/20_memory.md
R42; log entries 15 to 17) and executing it. -/

namespace Sys2Proof.Machine

/-- The physical address a byte of the instruction is fetched from, if it translates. -/
def State.fetchAddress (s : State) (k : Word) : Option Nat :=
  match s.cfg.translate (s.pc + k) false with
  | .ok pa _ => some pa
  | .refill => none
  | .invalid => none

/-- The four bytes at `pc`, in address order. -/
def State.fetchBytes (s : State) : Option (List Byte) :=
  match s.fetchAddress 0#32, s.fetchAddress 1#32, s.fetchAddress 2#32, s.fetchAddress 3#32 with
  | some a, some b, some c, some d => some [readByte s.mem a, readByte s.mem b, readByte s.mem c, readByte s.mem d]
  | _, _, _, _ => none

/-- The core's move: fetch, decode, execute. A word that is neither instruction is refused (R61). -/
def coreStep (s : State) : Result :=
  match s.fetchBytes with
  | none => .refused (.fetchNotTranslated s.pc)
  | some bytes =>
    match decodeBytes s.cfg.fetchOrder bytes with
    | .error why => .refused (.notAnInstruction why)
    | .ok (i, _) => exec i s

/-- A byte of an instruction word stored where it is fetched from. -/
def State.placeByte (s : State) (w : Word) (k : Fin 4) : State :=
  match s.fetchAddress (BitVec.ofNat 32 k.val) with
  | some a => { s with mem := writeByte s.mem a (s.cfg.fetchOrder.byteOf w k) }
  | none => s

/-- An instruction word stored at `pc`. -/
def State.placeWord (s : State) (w : Word) : State := (((s.placeByte w 0).placeByte w 1).placeByte w 2).placeByte w 3

end Sys2Proof.Machine
end

