-- ==== Sys2Proof/Machine/Step.lean ====
section
/-! DEFINITION. One step of the machine: the move of the agent whose turn it is (spec/10_state.md R27). -/

namespace Sys2Proof.Machine

/-- The state once the turn at the head of the list is taken up. -/
def State.turnTaken (s : State) : State := { s with turns := s.turns.tail }

/-- One step: an environment move where one is due, else the core's. -/
def step (s : State) : Host.Outcome State Fault Refusal :=
  match s.turns with
  | .env e :: _ => .next (environmentStep e s.turnTaken)
  | .core :: _ => coreStep s.turnTaken
  | [] => coreStep s

/-- The list of turns with the core next. -/
def coreNext : List Turn → List Turn
  | [] => []
  | .core :: ts => .core :: ts
  | .env e :: ts => .core :: .env e :: ts

/-- The state with an instruction stored where the next step fetches it, and the core to move. Both instructions are one 32-bit
word, so the bits of the word above `nbits` are 0. -/
def State.withFetchWord (s : State) (nbits w : Nat) : State :=
  { s.placeWord (BitVec.ofNat 32 (w % 2 ^ nbits)) with turns := coreNext s.turns }

end Sys2Proof.Machine
end

