-- ==== Sys2Proof/Safety.lean ====
section
/-! DEFINITION. The words statements about the machine are made in: the invariants of the state (spec/10_state.md R24, R25), what it is for
an instruction to reach its operation (spec/41_cache_operations.md R100), and what an instruction leaves as it was. -/

namespace Sys2Proof.Machine

/-! ### Instructions -/

/-- CACHE for `isEva` false, CACHEE for `isEva` true (R60). -/
def cacheop (isEva : Bool) (op rs : BitVec 5) (offset : Int) : Instr :=
  if isEva then .cachee op rs offset else .cache op rs offset

/-! ### Reaching the operation -/

/-- Steps 1 to 3 of R70 pass. -/
structure Enabled (isEva : Bool) (s : State) : Prop where
  caches : s.cfg.config5NMS = true → s.cfg.noCaches = false
  eva : isEva = true → s.cfg.config5EVA = true
  cp0 : s.cp0Enabled = true

/-- Steps 1 to 6 of R70 pass with an answer of the translation, and step 5 does not stop the instruction. -/
structure Translates (isEva : Bool) (op : BitVec 5) (va : Word) (pa cca : Nat) (s : State) : Prop where
  enabled : Enabled isEva s
  legal : s.cfg.addrErr va isEva = false
  index : s.cfg.isIndexOp op = true → s.cfg.isUnmapped va isEva = true
  translation : s.cfg.translate va isEva = .ok pa cca

/-- The operation is entered (R100): the address is not uncached and op selects an implemented operation. The last field is
the premise "no hardware error occurs" of R109, whether or not the execution makes a bus operation. -/
structure EntersOp (isEva : Bool) (op : BitVec 5) (va : Word) (pa cca : Nat) (s : State) : Prop where
  translates : Translates isEva op va pa cca s
  cached : cca ≠ 2 ∧ cca ≠ 7
  implemented : s.cfg.opImplemented op = true
  noError : s.hwError op true = .none

/-- The effective address of an instruction's operands (R76), in the terms of R11 and R59. -/
def addressOf (s : State) (rs : BitVec 5) (offset : Int) : Word :=
  (if rs = 0#5 then 0#32 else s.x[rs.toNat]) + BitVec.ofInt 32 offset

/-- The line with address a of cache c holds a byte of the instruction at `pc` (R83). -/
def InstructionIn (s : State) (c : CacheName) (a : Nat) : Prop :=
  ∃ k : Nat, k < 4 ∧ ∃ pa cca, s.cfg.translate (s.pc + BitVec.ofNat 32 k) false = .ok pa cca ∧ s.cfg.lineAddr c pa = a

/-- Slot t of cache c of a core holds the line with address a (R101). -/
def Holds (s : State) (core : Nat) (c : CacheName) (t a : Nat) : Prop :=
  t < s.cfg.slots c ∧ (s.line core c t).valid = true ∧ (s.line core c t).addr = a

/-- No slot of cache c of a core holds the line with address a. -/
def Misses (s : State) (core : Nat) (c : CacheName) (a : Nat) : Prop := ∀ t, ¬Holds s core c t a

/-! ### What an instruction leaves as it was -/

/-- The registers and the configuration: everything of the state that no cache operation writes (R6, R10, R21, R28), and every byte of
memory. The model's list of turns is as it was too. -/
structure KeepsMachine (s t : State) : Prop where
  cfg : t.cfg = s.cfg
  x : t.x = s.x
  cp0Enabled : t.cp0Enabled = s.cp0Enabled
  mem : ∀ a, readByte t.mem a = readByte s.mem a
  turns : t.turns = s.turns

/-- The tag and data registers. -/
structure KeepsTags (s t : State) : Prop where
  tagLo : t.tagLo = s.tagLo
  tagHi : t.tagHi = s.tagHi
  dataLo : t.dataLo = s.dataLo
  dataHi : t.dataHi = s.dataHi

/-- Every line record of every core. -/
def KeepsLines (s t : State) : Prop := ∀ core c u, t.line core c u = s.line core c u

/-- Every line record of every core but one of this core. -/
def KeepsOtherLines (s t : State) (c : CacheName) (slot : Nat) : Prop :=
  ∀ core c' u, (core, c', u) ≠ (0, c, slot) → t.line core c' u = s.line core c' u

/-- What a write-back of a record of cache c adds to the pending write-backs (R102): its bytes for its address if it is valid and
dirty, in a cache whose lines can be dirty (R24). -/
def writtenBack (s : State) (c : CacheName) (l : Line) : List Pending :=
  if s.cfg.canBeDirty c = true ∧ l.valid = true ∧ l.dirty = true then [⟨l.addr, l.data⟩] else []

/-- What a write-back of the line that a core's lookup finds adds (R101, R102): nothing where the lookup misses. -/
def hitWrittenBack (s : State) (c : CacheName) (pa core : Nat) : List Pending :=
  match s.hitSlot core c pa with
  | none => []
  | some t => writtenBack s c (s.line core c t)

end Sys2Proof.Machine

namespace Sys2Proof

/-! ### Constraints on the configuration record -/

/-- The constraints of the spec on the record that its readers do not keep by construction (log entry 12). `index` is the reading of R101 and
decision D10 that R181 needs: every range of `LineSize(c) * |Slots(c)|` bytes below the top of the address space reaches every slot. -/
structure Config.Legal (cfg : Config) : Prop where
  /-- R101: `IndexSlot` reaches every slot. -/
  index : ∀ c, cfg.present c = true → ∀ base : Word, base.toNat + cfg.lineSize c * cfg.slots c ≤ 2 ^ 32 →
    ∀ t, t < cfg.slots c → ∃ k, k < cfg.slots c ∧ cfg.indexSlot c (base + BitVec.ofNat 32 (cfg.lineSize c * k)) = t
  /-- R101: the values of `SetOf` cover the slots; that they are not empty and that two of them are equal or disjoint holds by
  construction. -/
  sets : ∀ c, cfg.present c = true → ∀ t, t < cfg.slots c → ∃ pa va, pa < 2 ^ cfg.palen ∧ t ∈ cfg.setOf c pa va
  /-- R4, decision D18. -/
  watch : cfg.watchMatchesCache = false

end Sys2Proof

namespace Sys2Proof.Machine

/-! ### Invariants -/

/-- Memory is in canonical form. -/
abbrev State.CanonicalMemory (s : State) : Prop := memoryWf s.mem = true

/-- The uniqueness premise (R25), for every core. -/
def State.UniqueLines (s : State) : Prop :=
  ∀ core c t u a, Holds s core c t a → Holds s core c u a → t = u

/-- No line of the instruction cache or of a write-through cache is dirty (R24 a, b), for every core. -/
def State.CleanLines (s : State) : Prop :=
  ∀ core c t, c = .icache ∨ (s.cfg.cacheOf c).writeThrough = true → (s.line core c t).dirty = false

/-- A pending write-back is a whole line of some cache (R26, R44). -/
def WholeLine (s : State) (p : Pending) : Prop :=
  ∃ c, p.bytes.length = s.cfg.lineSize c ∧ p.pa % s.cfg.lineSize c = 0 ∧ p.pa < 2 ^ s.cfg.palen

/-- The shape of the line records, the pending write-backs and memory (R23, R26, R34): each present slot has one record, with a line
address of the cache and a line's worth of bytes. -/
structure State.Shaped (s : State) : Prop where
  slots : ∀ core, core ≤ s.others.length → ∀ c, ((s.arrays core).get c).length = s.cfg.slots c
  data : ∀ core, core ≤ s.others.length → ∀ c t, t < s.cfg.slots c → (s.line core c t).data.length = s.cfg.lineSize c
  addr : ∀ core, core ≤ s.others.length → ∀ c t, t < s.cfg.slots c →
    (s.line core c t).addr % s.cfg.lineSize c = 0 ∧ (s.line core c t).addr < 2 ^ s.cfg.palen
  pending : ∀ p, p ∈ s.wbPending → WholeLine s p
  mem : ∀ cell, cell ∈ s.mem → cell.1 < 2 ^ s.cfg.palen

end Sys2Proof.Machine
end

