-- ==== Sys2Proof/Certificates/Slice0/Obligations.lean ====
section
/-! DEFINITION. The statements for the provers, from the numbered rules of spec/. `isEva` ranges over both instructions everywhere:
`cacheop false` is CACHE, `cacheop true` is CACHEE (spec/40_cache.md R71, R72). -/

open Sys2Proof Sys2Proof.Machine

/-! ### Encoding (spec/30_encoding.md) -/

/-- Words written out from the encoding (R57; V1, E1 to E3, E7 of spec/95_test_vectors.md) decode to their instructions, and the
words E10 to E15 are neither (R61). -/
def Obligations.DecodesWrittenWords : Prop :=
  decode 0xA5253900#32 = .ok (.cache 9 5 0) ∧ decode 0xA4003900#32 = .ok (.cache 0 0 0) ∧
  decode 0xA7FFB9FF#32 = .ok (.cache 31 31 (-1)) ∧ decode 0xA6A4BA00#32 = .ok (.cachee 21 4 (-256)) ∧
  decode 0xA6863A55#32 = .ok (.cachee 20 6 85) ∧
  decode 0xA4003800#32 = .error .selector ∧ decode 0xA4003B00#32 = .error .selector ∧
  decode 0xA4003D00#32 = .error .fixedBit ∧ decode 0xA4003100#32 = .error .minorOpcode ∧
  decode 0x84003900#32 = .error .majorOpcode ∧ decode 0xA4007900#32 = .error .minorOpcode

/-- R58, R61: a word is CACHE when its masked bits are 0xA4003900 and CACHEE when they are 0xA4003A00, with `op` in bits 25:21, `rs`
in bits 20:16 and the offset the signed value of bit 15 above bits 7:0; any other word is neither. -/
def Obligations.DecodesByMatchAndMask : Prop :=
  ∀ w : Word,
    (w &&& 0xFC007F00#32 = 0xA4003900#32 → decode w =
      .ok (.cache (w.extractLsb' 21 5) (w.extractLsb' 16 5) (w.extractLsb' 15 1 ++ w.extractLsb' 0 8).toInt)) ∧
    (w &&& 0xFC007F00#32 = 0xA4003A00#32 → decode w =
      .ok (.cachee (w.extractLsb' 21 5) (w.extractLsb' 16 5) (w.extractLsb' 15 1 ++ w.extractLsb' 0 8).toInt)) ∧
    (w &&& 0xFC007F00#32 ≠ 0xA4003900#32 → w &&& 0xFC007F00#32 ≠ 0xA4003A00#32 → ∃ e, decode w = .error e)

/-- Decoding the word of a well-formed instruction gives the instruction back, for both instructions and every operand. -/
def Obligations.DecodeOfEncode : Prop := ∀ i : Instr, i.wellFormed = true → decode (encode i) = .ok i

/-- A word that decodes is the word of the instruction it decodes to, and that instruction is well formed. -/
def Obligations.EncodeOfDecode : Prop := ∀ (w : Word) (i : Instr), decode w = .ok i → i.wellFormed = true ∧ encode i = w

/-- R59: the offset of a decoded word is the sign extension of its nine-bit field to 32 bits, unscaled, in -256 .. 255; the corner
values of the field give 0, 255, -256 and -1. -/
def Obligations.OffsetIsSignExtended : Prop :=
  (∀ (w : Word) (isEva : Bool) (op rs : BitVec 5) (offset : Int), decode w = .ok (cacheop isEva op rs offset) →
    -256 ≤ offset ∧ offset ≤ 255 ∧
    BitVec.ofInt 32 offset = (w.extractLsb' 15 1 ++ w.extractLsb' 0 8 : BitVec 9).signExtend 32 ∧
    offset = (w.extractLsb' 15 1 ++ w.extractLsb' 0 8 : BitVec 9).toInt) ∧
  (0x000#9).toInt = 0 ∧ (0x0FF#9).toInt = 255 ∧ (0x100#9).toInt = -256 ∧ (0x1FF#9).toInt = -1

/-! ### The step -/

/-- A step of the core runs the instruction that the four bytes at `pc` decode to; what the step adds is that the turn is taken (log
entries 15 and 23). -/
def Obligations.StepRunsDecodedInstruction : Prop :=
  ∀ (s : State) (pa0 pa1 pa2 pa3 cca0 cca1 cca2 cca3 : Nat) (i : Instr) (rest : List Byte),
    (s.turns = [] ∨ ∃ ts, s.turns = .core :: ts) →
    s.cfg.translate s.pc false = .ok pa0 cca0 → s.cfg.translate (s.pc + 1#32) false = .ok pa1 cca1 →
    s.cfg.translate (s.pc + 2#32) false = .ok pa2 cca2 → s.cfg.translate (s.pc + 3#32) false = .ok pa3 cca3 →
    decodeBytes s.cfg.fetchOrder [readByte s.mem pa0, readByte s.mem pa1, readByte s.mem pa2, readByte s.mem pa3]
      = .ok (i, rest) →
    step s = exec i { s with turns := s.turns.tail }

/-- A step of the core at a word that is neither instruction is refused (R61: the model refuses it). -/
def Obligations.StepRefusesOtherWords : Prop :=
  ∀ (s : State) (pa0 pa1 pa2 pa3 cca0 cca1 cca2 cca3 : Nat) (why : DecodeError),
    (s.turns = [] ∨ ∃ ts, s.turns = .core :: ts) →
    s.cfg.translate s.pc false = .ok pa0 cca0 → s.cfg.translate (s.pc + 1#32) false = .ok pa1 cca1 →
    s.cfg.translate (s.pc + 2#32) false = .ok pa2 cca2 → s.cfg.translate (s.pc + 3#32) false = .ok pa3 cca3 →
    decodeBytes s.cfg.fetchOrder [readByte s.mem pa0, readByte s.mem pa1, readByte s.mem pa2, readByte s.mem pa3]
      = .error why →
    step s = .refused (.notAnInstruction why)

/-! ### The tests before the operation, each exactly when (spec/40_cache.md R73 to R82, spec/60_exceptions.md R151 to R155) -/

/-- R151: Reserved Instruction is raised exactly on an NMS core whose five cache fields are all zero, and by CACHEE without EVA,
whatever op is and whether or not coprocessor 0 is enabled. -/
def Obligations.ReservedInstructionExactlyWhen : Prop :=
  ∀ (isEva : Bool) (op rs : BitVec 5) (offset : Int) (s : State),
    exec (cacheop isEva op rs offset) s = .fault (.exception .reservedInstruction) ↔
      ((s.cfg.config5NMS = true ∧ s.cfg.config1DL = 0 ∧ s.cfg.config1IL = 0 ∧ s.cfg.config2SL = 0 ∧ s.cfg.config2TL = 0 ∧
        s.cfg.config5L2C = 0) ∨ (isEva = true ∧ s.cfg.config5EVA = false))

/-- R75, R152: Coprocessor Unusable, with coprocessor number 0, is raised exactly when `cp0_enabled` is false and the two tests for
Reserved Instruction have passed. -/
def Obligations.CoprocessorUnusableExactlyWhen : Prop :=
  ∀ (isEva : Bool) (op rs : BitVec 5) (offset : Int) (s : State) (n : Nat),
    exec (cacheop isEva op rs offset) s = .fault (.exception (.coprocessorUnusable n)) ↔
      (n = 0 ∧ s.cp0Enabled = false ∧ ¬(s.cfg.config5NMS = true ∧ s.cfg.noCaches = true) ∧
        ¬(isEva = true ∧ s.cfg.config5EVA = false))

/-- R76: the effective address is `x[rs]` plus the sign-extended offset modulo 2^32, `x[0]` read as 0, and Address Error is raised
with it exactly when steps 1 to 3 pass and `AddrErr` holds of it; a completed instruction modifies no `x[rs]`. The sum modulo 2^32
and `AddrErr` as a parameter are the spec's decision D4; that `x[0]` reads as 0 is R11, general knowledge in the spec and PRESUMED in log
entry 5. -/
def Obligations.AddressErrorExactlyWhen : Prop :=
  ∀ (isEva : Bool) (op rs : BitVec 5) (offset : Int) (s : State),
    (∀ va, exec (cacheop isEva op rs offset) s = .fault (.exception (.addressError va)) ↔
      (Enabled isEva s ∧ va = addressOf s rs offset ∧ s.cfg.addrErr va isEva = true)) ∧
    (∀ t, exec (cacheop isEva op rs offset) s = .next t → t.x = s.x)

/-- R77: an Index operation at an address that is not unmapped is UNPREDICTABLE, exactly when steps 1 to 4 pass; the values 12 to 15
are Index operations when `ImplDepIsIndex` says so. The test for 12 to 15 is the spec's decision D20. -/
def Obligations.IndexNotUnmappedExactlyWhen : Prop :=
  ∀ (isEva : Bool) (op rs : BitVec 5) (offset : Int) (s : State),
    exec (cacheop isEva op rs offset) s = .fault (.unpredictable .indexNotUnmapped) ↔
      (Enabled isEva s ∧ s.cfg.addrErr (addressOf s rs offset) isEva = false ∧
        (op.toNat ≤ 11 ∨ (12 ≤ op.toNat ∧ op.toNat ≤ 15 ∧ (s.cfg.cacheOf (opCache op)).implDepIsIndex = true)) ∧
        s.cfg.isUnmapped (addressOf s rs offset) isEva = false)

/-- R78, R154, R155: TLB Refill and TLB Invalid are raised with the effective address exactly when steps 1 to 5 pass and the
translation answers so; never for op <= 11. The failures as a parameter `Translate` are the spec's decision D19. -/
def Obligations.TlbExceptionsExactlyWhen : Prop :=
  ∀ (isEva : Bool) (op rs : BitVec 5) (offset : Int) (s : State) (va : Word),
    (exec (cacheop isEva op rs offset) s = .fault (.exception (.tlbRefill va)) ↔
      (Enabled isEva s ∧ va = addressOf s rs offset ∧ s.cfg.addrErr va isEva = false ∧
        (s.cfg.isIndexOp op = true → s.cfg.isUnmapped va isEva = true) ∧ s.cfg.translate va isEva = .refill)) ∧
    (exec (cacheop isEva op rs offset) s = .fault (.exception (.tlbInvalid va)) ↔
      (Enabled isEva s ∧ va = addressOf s rs offset ∧ s.cfg.addrErr va isEva = false ∧
        (s.cfg.isIndexOp op = true → s.cfg.isUnmapped va isEva = true) ∧ s.cfg.translate va isEva = .invalid)) ∧
    (op.toNat ≤ 11 → exec (cacheop isEva op rs offset) s ≠ .fault (.exception (.tlbRefill va)) ∧
      exec (cacheop isEva op rs offset) s ≠ .fault (.exception (.tlbInvalid va)))

/-- R79: at an uncached address (cca 2 or 7) the instruction, whatever op is, moves `pc` on and changes nothing else when
`Config.AT` is at least 2, and is UNPREDICTABLE when it is less. -/
def Obligations.UncachedAddressResult : Prop :=
  ∀ (isEva : Bool) (op rs : BitVec 5) (offset : Int) (s : State) (pa cca : Nat),
    Translates isEva op (addressOf s rs offset) pa cca s → (cca = 2 ∨ cca = 7) →
    exec (cacheop isEva op rs offset) s =
      if 2 ≤ s.cfg.configAT then .next { s with pc := s.pc + 4#32 } else .fault (.unpredictable .uncachedAddress)

/-- R80: after steps 1 to 7, an op that is 24, 30 or 31, whose cache is absent, or that is not implemented is UNSPECIFIED; the model
refuses it. The outcome UNSPECIFIED is the spec's decision D8. -/
def Obligations.OpThatSelectsNothingIsRefused : Prop :=
  ∀ (isEva : Bool) (op rs : BitVec 5) (offset : Int) (s : State) (pa cca : Nat),
    Translates isEva op (addressOf s rs offset) pa cca s → cca ≠ 2 → cca ≠ 7 →
    (op = 24#5 ∨ op = 30#5 ∨ op = 31#5 ∨ s.cfg.present (opCache op) = false ∨ s.cfg.opImplemented op = false) →
    exec (cacheop isEva op rs offset) s = .refused (.opSelectsNothing op)

/-- R64: a Required value of op is implemented when its cache is present, an implemented value has its cache present, and the three
unused values are never implemented; R22: without caches none is present. The reading of the availability words is the spec's
decision D8. -/
def Obligations.AvailabilityOfOperations : Prop :=
  ∀ (cfg : Config) (op : BitVec 5),
    (op.toNat ∈ [0, 1, 2, 3, 8, 9, 10, 11, 16] → cfg.present (opCache op) = true → cfg.opImplemented op = true) ∧
    (cfg.opImplemented op = true → cfg.present (opCache op) = true) ∧
    (op.toNat ∈ [24, 30, 31] → cfg.opImplemented op = false) ∧
    (cfg.config1DL = 0 → cfg.config1IL = 0 → cfg.config2SL = 0 → cfg.config2TL = 0 → cfg.config5L2C = 0 →
      cfg.present (opCache op) = false)

/-- R82: the bits of an address that lie inside a line of any cache decide nothing about Address Error. The spec marks the
independence of `AddrErr` as derived. -/
def Obligations.AlignmentNeverRaisesAddressError : Prop :=
  ∀ (cfg : Config) (c : CacheName) (va va' : Word) (isEva : Bool),
    0 < cfg.lineSize c → va.toNat / cfg.lineSize c = va'.toNat / cfg.lineSize c → cfg.addrErr va isEva = cfg.addrErr va' isEva

/-- R11: `x[0]` reads as zero whatever it holds, so with `rs = 0` the effective address is the sign-extended offset. The spec marks
R11 as general knowledge (decision D12; log entry 5). -/
def Obligations.RegisterZeroReadsZero : Prop :=
  ∀ (s : State) (offset : Int),
    s.reg 0#5 = 0#32 ∧ s.effectiveAddress 0#5 offset = BitVec.ofInt 32 offset ∧
    ∀ i : BitVec 5, i ≠ 0#5 → s.reg i = s.x[i.toNat]

/-! ### Choosing the line (R101) -/

/-- R101: `IndexSlot` names a slot and ignores the bits of the address inside a line; the values of `SetOf` are not empty, two of them are
equal or have no slot in common, each is `SetOfSlot` of its slots, and in a legal record they cover the slots. That a record is legal is a
premise, where the functions do not keep the constraint by construction (log entry 12). -/
def Obligations.IndexAndSetSelectSlots : Prop :=
  ∀ (cfg : Config) (c : CacheName), cfg.present c = true →
    (∀ va va' : Word, cfg.indexSlot c va < cfg.slots c ∧
      (va.toNat / cfg.lineSize c = va'.toNat / cfg.lineSize c → 0 < cfg.lineSize c →
        cfg.indexSlot c va = cfg.indexSlot c va')) ∧
    (∀ pa va, cfg.setOf c pa va ≠ [] ∧ ∀ t, t ∈ cfg.setOf c pa va → t < cfg.slots c ∧ cfg.setOfSlot c t = cfg.setOf c pa va) ∧
    (∀ pa va pa' va', cfg.setOf c pa va = cfg.setOf c pa' va' ∨ ∀ t, t ∈ cfg.setOf c pa va → t ∉ cfg.setOf c pa' va') ∧
    (cfg.Legal → ∀ t, t < cfg.slots c → ∃ pa va, t ∈ cfg.setOf c pa va)

/-! ### Index operations (spec/41_cache_operations.md R110 to R121) -/

/-- R110: op 0 makes the slot invalid, clean and unlocked, whatever address its tag holds, with no write-back, and changes nothing
else; premise: the line does not hold the instruction (R83). -/
def Obligations.IndexInvalidateResult : Prop :=
  ∀ (isEva : Bool) (rs : BitVec 5) (offset : Int) (s : State) (pa cca slot : Nat) (l : Line),
    EntersOp isEva 0#5 (addressOf s rs offset) pa cca s →
    slot = s.cfg.indexSlot .icache (addressOf s rs offset) → l = s.line 0 .icache slot →
    (l.valid = true → ¬InstructionIn s .icache l.addr) →
    ∃ t, exec (cacheop isEva 0#5 rs offset) s = .next t ∧
      t.line 0 .icache slot = { l with valid := false, dirty := false, locked := false } ∧
      KeepsOtherLines s t .icache slot ∧ t.wbPending = s.wbPending ∧ KeepsTags s t ∧ KeepsMachine s t ∧
      t.pc = s.pc + 4#32

/-- R111 to R113: op 1, 2, 3 send a valid and dirty line to the pending write-backs for its own address, make the slot invalid,
clean and unlocked whether or not it was dirty, and change nothing else; premise as for op 0. -/
def Obligations.IndexWritebackInvalidateResult : Prop :=
  ∀ (isEva : Bool) (c : CacheName) (rs : BitVec 5) (offset : Int) (s : State) (pa cca slot : Nat) (l : Line),
    c ≠ .icache → EntersOp isEva (opOf 0#3 c) (addressOf s rs offset) pa cca s →
    slot = s.cfg.indexSlot c (addressOf s rs offset) → l = s.line 0 c slot →
    (l.valid = true → ¬InstructionIn s c l.addr) →
    ∃ t, exec (cacheop isEva (opOf 0#3 c) rs offset) s = .next t ∧
      t.line 0 c slot = { l with valid := false, dirty := false, locked := false } ∧
      t.wbPending = s.wbPending ++ writtenBack s c l ∧
      KeepsOtherLines s t c slot ∧ KeepsTags s t ∧ KeepsMachine s t ∧ t.pc = s.pc + 4#32

/-- R106, R114 to R117: op 4 to 7 leave the encoded tag of the slot, valid or not, in `TagLo[c]` and `TagHi[c]`, change no line and
no tag register that is not one with theirs, and leave `DataLo` and `DataHi` alone where they are not implemented (where they are,
their values are free). The tag format and the free data are the spec's decisions D11 and D29. -/
def Obligations.IndexLoadTagResult : Prop :=
  ∀ (isEva : Bool) (c : CacheName) (rs : BitVec 5) (offset : Int) (s : State) (pa cca slot : Nat),
    EntersOp isEva (opOf 1#3 c) (addressOf s rs offset) pa cca s →
    slot = s.cfg.indexSlot c (addressOf s rs offset) →
    ∃ t, exec (cacheop isEva (opOf 1#3 c) rs offset) s = .next t ∧
      t.tagLoOf c = encodeTagLo s.cfg c (s.line 0 c slot) ∧ t.tagHiOf c = encodeTagHi s.cfg c (s.line 0 c slot) ∧
      (∀ d, s.cfg.tagRegShared c d = false → t.tagLoOf d = s.tagLoOf d ∧ t.tagHiOf d = s.tagHiOf d) ∧
      (s.cfg.dataRegs = false → t.dataLo = s.dataLo ∧ t.dataHi = s.dataHi) ∧
      KeepsLines s t ∧ t.wbPending = s.wbPending ∧ KeepsMachine s t ∧ t.pc = s.pc + 4#32

/-- R107, R118 to R121: op 8 to 11 give the slot the flags and the address that the tag registers decode to, keep its data, make no
write-back, and change nothing else; premises: the store makes no second valid line with one address and does not lock the last
unlocked way. The tag format is the spec's decision D11. -/
def Obligations.IndexStoreTagResult : Prop :=
  ∀ (isEva : Bool) (c : CacheName) (rs : BitVec 5) (offset : Int) (s : State) (pa cca slot : Nat) (l : Line) (tag : Tag),
    EntersOp isEva (opOf 2#3 c) (addressOf s rs offset) pa cca s →
    slot = s.cfg.indexSlot c (addressOf s rs offset) → l = s.line 0 c slot →
    tag = decodeTag s.cfg c (s.tagLoOf c) (s.tagHiOf c) →
    (tag.valid = true → ∀ u, u ≠ slot → ¬Holds s 0 c u tag.addr) →
    (tag.locked = true → ∃ u, u ∈ s.cfg.setOfSlot c slot ∧ u ≠ slot ∧ (s.line 0 c u).locked = false) →
    ∃ t, exec (cacheop isEva (opOf 2#3 c) rs offset) s = .next t ∧
      t.line 0 c slot = { valid := tag.valid, dirty := tag.dirty, locked := tag.locked, addr := tag.addr, data := l.data } ∧
      KeepsOtherLines s t c slot ∧ t.wbPending = s.wbPending ∧ KeepsTags s t ∧ KeepsMachine s t ∧ t.pc = s.pc + 4#32

/-- R107, R84: where the store would make a second valid line with one address the model refuses; else, where it would lock the last
unlocked way of the index, it is UNDEFINED. The refusal is the spec's decision D9, the early fault its decision D31. -/
def Obligations.IndexStoreTagStops : Prop :=
  ∀ (isEva : Bool) (c : CacheName) (rs : BitVec 5) (offset : Int) (s : State) (pa cca slot : Nat) (tag : Tag),
    EntersOp isEva (opOf 2#3 c) (addressOf s rs offset) pa cca s →
    slot = s.cfg.indexSlot c (addressOf s rs offset) → tag = decodeTag s.cfg c (s.tagLoOf c) (s.tagHiOf c) →
    ((tag.valid = true ∧ ∃ u, u ≠ slot ∧ Holds s 0 c u tag.addr) →
      exec (cacheop isEva (opOf 2#3 c) rs offset) s = .refused (.duplicateLine c tag.addr)) ∧
    (¬(tag.valid = true ∧ ∃ u, u ≠ slot ∧ Holds s 0 c u tag.addr) → tag.locked = true →
      (∀ u, u ∈ s.cfg.setOfSlot c slot → u ≠ slot → (s.line 0 c u).locked = true) →
      exec (cacheop isEva (opOf 2#3 c) rs offset) s = .fault (.undefined .allWaysLocked))

/-- R107 on `DecodeTag`: with both tag registers zero, an Index Store Tag of any cache completes whatever the slot and the rest of
the cache hold, and leaves the slot invalid, clean and unlocked with its data as it was. -/
def Obligations.ZeroTagInitialisesAnySlot : Prop :=
  ∀ (isEva : Bool) (c : CacheName) (rs : BitVec 5) (offset : Int) (s : State) (pa cca slot : Nat),
    EntersOp isEva (opOf 2#3 c) (addressOf s rs offset) pa cca s → s.tagLoOf c = 0#32 → s.tagHiOf c = 0#32 →
    slot = s.cfg.indexSlot c (addressOf s rs offset) →
    ∃ t, exec (cacheop isEva (opOf 2#3 c) rs offset) s = .next t ∧
      (t.line 0 c slot).valid = false ∧ (t.line 0 c slot).dirty = false ∧ (t.line 0 c slot).locked = false ∧
      (t.line 0 c slot).data = (s.line 0 c slot).data ∧ KeepsOtherLines s t c slot ∧ t.wbPending = s.wbPending

/-- R181, R101: in a legal record, stepping an unmapped cached address through `|Slots(c)|` lines from any base reaches every slot: for some
step the Index Store Tag at that address, with both tag registers zero, completes and leaves the slot invalid, clean and unlocked, whatever
the general registers that give the address hold. The range the record must reach is the reading of log entry 12. -/
def Obligations.InitialisationReachesEverySlot : Prop :=
  ∀ (isEva : Bool) (c : CacheName) (s : State) (base : Word) (slot : Nat),
    s.cfg.Legal → slot < s.cfg.slots c → base.toNat + s.cfg.lineSize c * s.cfg.slots c ≤ 2 ^ 32 →
    s.tagLoOf c = 0#32 → s.tagHiOf c = 0#32 →
    (∀ k, k < s.cfg.slots c → ∃ pa cca, EntersOp isEva (opOf 2#3 c) (base + BitVec.ofNat 32 (s.cfg.lineSize c * k)) pa cca s) →
    ∃ k, k < s.cfg.slots c ∧ ∀ (x : Vector Word 32) (rs : BitVec 5) (offset : Int),
      addressOf { s with x := x } rs offset = base + BitVec.ofNat 32 (s.cfg.lineSize c * k) →
      ∃ t, exec (cacheop isEva (opOf 2#3 c) rs offset) { s with x := x } = .next t ∧
        (t.line 0 c slot).valid = false ∧ (t.line 0 c slot).dirty = false ∧ (t.line 0 c slot).locked = false

/-! ### Hit operations (R126 to R137) -/

/-- R126 to R129: op 16 to 19, not globalized, make the slot that holds the line of the address invalid, clean and unlocked, with no
write-back even of a dirty line, and change nothing else; premises: one slot at most holds the line (R25), which does not hold the
instruction (R83). -/
def Obligations.HitInvalidateResult : Prop :=
  ∀ (isEva : Bool) (c : CacheName) (rs : BitVec 5) (offset : Int) (s : State) (pa cca slot : Nat) (l : Line),
    EntersOp isEva (opOf 4#3 c) (addressOf s rs offset) pa cca s → s.cfg.isGlobalized (opOf 4#3 c) cca = false →
    s.UniqueLines → Holds s 0 c slot (s.cfg.lineAddr c pa) → l = s.line 0 c slot →
    ¬InstructionIn s c (s.cfg.lineAddr c pa) →
    ∃ t, exec (cacheop isEva (opOf 4#3 c) rs offset) s = .next t ∧
      t.line 0 c slot = { l with valid := false, dirty := false, locked := false } ∧
      KeepsOtherLines s t c slot ∧ t.wbPending = s.wbPending ∧ KeepsTags s t ∧ KeepsMachine s t ∧ t.pc = s.pc + 4#32

/-- R131 to R133: op 21, 22, 23, not globalized, send the line of the address to the pending write-backs if it is valid and dirty,
make its slot invalid, clean and unlocked, and change nothing else; premises as for Hit Invalidate. -/
def Obligations.HitWritebackInvalidateResult : Prop :=
  ∀ (isEva : Bool) (c : CacheName) (rs : BitVec 5) (offset : Int) (s : State) (pa cca slot : Nat) (l : Line),
    c ≠ .icache → EntersOp isEva (opOf 5#3 c) (addressOf s rs offset) pa cca s →
    s.cfg.isGlobalized (opOf 5#3 c) cca = false → s.UniqueLines → Holds s 0 c slot (s.cfg.lineAddr c pa) →
    l = s.line 0 c slot → ¬InstructionIn s c (s.cfg.lineAddr c pa) →
    ∃ t, exec (cacheop isEva (opOf 5#3 c) rs offset) s = .next t ∧
      t.line 0 c slot = { l with valid := false, dirty := false, locked := false } ∧
      t.wbPending = s.wbPending ++ writtenBack s c l ∧
      KeepsOtherLines s t c slot ∧ KeepsTags s t ∧ KeepsMachine s t ∧ t.pc = s.pc + 4#32

/-- R135 to R137: op 25, 26, 27, not globalized, send the line of the address to the pending write-backs if it is dirty, leave it
valid, clean and as locked as it was, and change nothing else, even where the line holds the instruction; premise: R25. -/
def Obligations.HitWritebackResult : Prop :=
  ∀ (isEva : Bool) (c : CacheName) (rs : BitVec 5) (offset : Int) (s : State) (pa cca slot : Nat) (l : Line),
    c ≠ .icache → EntersOp isEva (opOf 6#3 c) (addressOf s rs offset) pa cca s →
    s.cfg.isGlobalized (opOf 6#3 c) cca = false → s.UniqueLines → Holds s 0 c slot (s.cfg.lineAddr c pa) →
    l = s.line 0 c slot →
    ∃ t, exec (cacheop isEva (opOf 6#3 c) rs offset) s = .next t ∧
      t.line 0 c slot = { l with dirty := false } ∧ t.wbPending = s.wbPending ++ writtenBack s c l ∧
      KeepsOtherLines s t c slot ∧ KeepsTags s t ∧ KeepsMachine s t ∧ t.pc = s.pc + 4#32

/-- R126, R131, R135: a Hit operation of any kind, not globalized, on a line that the cache does not hold completes and changes
nothing but `pc`. -/
def Obligations.HitOperationMissChangesNothing : Prop :=
  ∀ (isEva : Bool) (kind : BitVec 3) (c : CacheName) (rs : BitVec 5) (offset : Int) (s : State) (pa cca : Nat),
    (kind = 4#3 ∨ (c ≠ .icache ∧ (kind = 5#3 ∨ kind = 6#3))) →
    EntersOp isEva (opOf kind c) (addressOf s rs offset) pa cca s → s.cfg.isGlobalized (opOf kind c) cca = false →
    Misses s 0 c (s.cfg.lineAddr c pa) →
    ∃ t, exec (cacheop isEva (opOf kind c) rs offset) s = .next t ∧
      KeepsLines s t ∧ t.wbPending = s.wbPending ∧ KeepsTags s t ∧ KeepsMachine s t ∧ t.pc = s.pc + 4#32

/-- R83: an Index Invalidate, Index Writeback Invalidate, Hit Invalidate or Hit Writeback Invalidate whose target line holds a byte
of the instruction is UNPREDICTABLE, in whichever cache, and where the operation is globalized also when only another core holds the
line; Index Store Tag makes no such test. The test in every cache is the spec's decision D30; that it is made on every core of a broadcast
is the model's reading (log entry 38). Where no core that the operation reaches holds the line it completes:
HitOperationMissChangesNothing and GlobalizedHitOperationResult. -/
def Obligations.OwnLineIsUnpredictable : Prop :=
  ∀ (isEva : Bool) (kind : BitVec 3) (c : CacheName) (rs : BitVec 5) (offset : Int) (s : State) (pa cca : Nat),
    EntersOp isEva (opOf kind c) (addressOf s rs offset) pa cca s →
    (kind = 0#3 → ∀ l, l = s.line 0 c (s.cfg.indexSlot c (addressOf s rs offset)) → l.valid = true →
      InstructionIn s c l.addr →
      exec (cacheop isEva (opOf kind c) rs offset) s = .fault (.unpredictable .ownLine)) ∧
    ((kind = 4#3 ∨ (c ≠ .icache ∧ kind = 5#3)) →
      (∃ core, (core = 0 ∨ (s.cfg.isGlobalized (opOf kind c) cca = true ∧ core ≤ s.others.length)) ∧
        ¬Misses s core c (s.cfg.lineAddr c pa)) →
      InstructionIn s c (s.cfg.lineAddr c pa) →
      exec (cacheop isEva (opOf kind c) rs offset) s = .fault (.unpredictable .ownLine)) ∧
    (kind = 2#3 → exec (cacheop isEva (opOf kind c) rs offset) s ≠ .fault (.unpredictable .ownLine))

/-- R52, R53, R108: after a Hit Invalidate or Hit Writeback Invalidate completes no slot of the cache holds the line of the address,
and after a Hit Writeback any slot that holds it is clean; dirty data of the line is then in the pending write-backs, but for Hit
Invalidate, which drops it: on this core, and on every core where the operation is globalized. The broadcast is the spec's decision D16
(log entry 26). -/
def Obligations.HitOperationPostcondition : Prop :=
  ∀ (isEva : Bool) (kind : BitVec 3) (c : CacheName) (rs : BitVec 5) (offset : Int) (s t : State) (pa cca core : Nat),
    EntersOp isEva (opOf kind c) (addressOf s rs offset) pa cca s → s.UniqueLines →
    (core = 0 ∨ (s.cfg.isGlobalized (opOf kind c) cca = true ∧ core ≤ s.others.length)) →
    exec (cacheop isEva (opOf kind c) rs offset) s = .next t →
    ((kind = 4#3 ∨ (c ≠ .icache ∧ kind = 5#3)) → Misses t core c (s.cfg.lineAddr c pa)) ∧
    (c ≠ .icache → kind = 6#3 → ∀ u, Holds t core c u (s.cfg.lineAddr c pa) → (t.line core c u).dirty = false) ∧
    (c ≠ .icache → kind = 5#3 ∨ kind = 6#3 → ∀ u, Holds s core c u (s.cfg.lineAddr c pa) →
      ∀ p, p ∈ writtenBack s c (s.line core c u) → p ∈ t.wbPending)

/-- R53, R108: a globalized Hit operation completes, unless it invalidates and some core holds the line while the instruction is in it.
The slot each core's lookup finds becomes invalid, clean and unlocked, or after a Hit Writeback clean and otherwise as it was; but for Hit
Invalidate the pending write-backs gain the dirty data of each core, this core's first; no other line, register or byte of memory changes.
The broadcast is the spec's decision D16; the order of the cores is log entry 26, the slot found where several hold the line log entry 43. -/
def Obligations.GlobalizedHitOperationResult : Prop :=
  ∀ (isEva : Bool) (kind : BitVec 3) (c : CacheName) (rs : BitVec 5) (offset : Int) (s : State) (pa cca : Nat),
    (kind = 4#3 ∨ (c ≠ .icache ∧ (kind = 5#3 ∨ kind = 6#3))) →
    EntersOp isEva (opOf kind c) (addressOf s rs offset) pa cca s → s.cfg.isGlobalized (opOf kind c) cca = true →
    (kind ≠ 6#3 → InstructionIn s c (s.cfg.lineAddr c pa) →
      ∀ core, core ≤ s.others.length → Misses s core c (s.cfg.lineAddr c pa)) →
    ∃ t, exec (cacheop isEva (opOf kind c) rs offset) s = .next t ∧
      (∀ core u, core ≤ s.others.length → s.hitSlot core c pa = some u →
        t.line core c u = if kind = 6#3 then { s.line core c u with dirty := false }
          else { s.line core c u with valid := false, dirty := false, locked := false }) ∧
      (∀ core d u, ¬(d = c ∧ s.hitSlot core c pa = some u) → t.line core d u = s.line core d u) ∧
      t.wbPending = s.wbPending ++
        (if kind = 4#3 then [] else (List.range (s.others.length + 1)).flatMap (hitWrittenBack s c pa)) ∧
      KeepsTags s t ∧ KeepsMachine s t ∧ t.pc = s.pc + 4#32

/-! ### Fill, Fetch and Lock (R130, R138, R139) -/

/-- R130, R103, R104: op 20 on a line the cache does not hold fills some unlocked slot of the address's set, valid, clean and
unlocked, with the bytes memory shows, and changes nothing else. Which slot is free: the statement holds for every choice. Fills
from `MemView` are the spec's decision D27. -/
def Obligations.FillMissResult : Prop :=
  ∀ (isEva : Bool) (rs : BitVec 5) (offset : Int) (s : State) (pa cca : Nat),
    EntersOp isEva 20#5 (addressOf s rs offset) pa cca s → Misses s 0 .icache (s.cfg.lineAddr .icache pa) →
    (∃ v, v ∈ s.cfg.setOf .icache pa (addressOf s rs offset) ∧ (s.line 0 .icache v).locked = false) →
    ∃ t v, exec (cacheop isEva 20#5 rs offset) s = .next t ∧
      v ∈ s.cfg.setOf .icache pa (addressOf s rs offset) ∧ (s.line 0 .icache v).locked = false ∧
      t.line 0 .icache v = ⟨true, false, false, s.cfg.lineAddr .icache pa,
        s.memView (s.cfg.lineAddr .icache pa) (s.cfg.lineSize .icache)⟩ ∧
      KeepsOtherLines s t .icache v ∧ t.wbPending = s.wbPending ∧ KeepsTags s t ∧ KeepsMachine s t ∧ t.pc = s.pc + 4#32

/-- R130: op 20 on a line the cache holds completes and keeps the line as it is or reads it again with its lock kept (free: U21),
and changes nothing else; premise: R25. The choice is the spec's decision D25. -/
def Obligations.FillHitResult : Prop :=
  ∀ (isEva : Bool) (rs : BitVec 5) (offset : Int) (s : State) (pa cca slot : Nat) (l : Line),
    EntersOp isEva 20#5 (addressOf s rs offset) pa cca s → s.UniqueLines →
    Holds s 0 .icache slot (s.cfg.lineAddr .icache pa) → l = s.line 0 .icache slot →
    ∃ t, exec (cacheop isEva 20#5 rs offset) s = .next t ∧
      (t.line 0 .icache slot = l ∨ t.line 0 .icache slot = ⟨true, false, l.locked, s.cfg.lineAddr .icache pa,
        s.memView (s.cfg.lineAddr .icache pa) (s.cfg.lineSize .icache)⟩) ∧
      KeepsOtherLines s t .icache slot ∧ t.wbPending = s.wbPending ∧ KeepsTags s t ∧ KeepsMachine s t ∧
      t.pc = s.pc + 4#32

/-- R104: a Fill, or a Fetch and Lock of either cache, that misses in a set whose every slot is locked is UNDEFINED. -/
def Obligations.MissWithAllWaysLockedIsUndefined : Prop :=
  ∀ (isEva : Bool) (op : BitVec 5) (rs : BitVec 5) (offset : Int) (s : State) (pa cca : Nat),
    (op = 20#5 ∨ op = 28#5 ∨ op = 29#5) → EntersOp isEva op (addressOf s rs offset) pa cca s →
    Misses s 0 (opCache op) (s.cfg.lineAddr (opCache op) pa) →
    (∀ v, v ∈ s.cfg.setOf (opCache op) pa (addressOf s rs offset) → (s.line 0 (opCache op) v).locked = true) →
    exec (cacheop isEva op rs offset) s = .fault (.undefined .missAllWaysLocked)

/-- R138, R139: op 28, 29 on a line the cache holds lock it as it is, without a refill, a dirty line staying dirty, and change
nothing else; premises: R25, `LockSpread` is the single line (its default), and another way of the index is unlocked. -/
def Obligations.FetchAndLockHitResult : Prop :=
  ∀ (isEva : Bool) (c : CacheName) (rs : BitVec 5) (offset : Int) (s : State) (pa cca slot : Nat) (l : Line),
    (c = .icache ∨ c = .dcache) → EntersOp isEva (opOf 7#3 c) (addressOf s rs offset) pa cca s →
    s.cfg.lockTargets c (addressOf s rs offset) pa = [(addressOf s rs offset, pa)] →
    s.UniqueLines → Holds s 0 c slot (s.cfg.lineAddr c pa) → l = s.line 0 c slot →
    (∃ u, u ∈ s.cfg.setOfSlot c slot ∧ u ≠ slot ∧ (s.line 0 c u).locked = false) →
    ∃ t, exec (cacheop isEva (opOf 7#3 c) rs offset) s = .next t ∧
      t.line 0 c slot = { l with locked := true } ∧
      KeepsOtherLines s t c slot ∧ t.wbPending = s.wbPending ∧ KeepsTags s t ∧ KeepsMachine s t ∧ t.pc = s.pc + 4#32

/-- R138, R139, R104: op 28, 29 on a line the cache does not hold write some unlocked slot of the set back if it is valid and dirty,
fill it from memory as it is after that write-back, and lock it; nothing else changes. Which slot is free. Premises: the single
line, and two unlocked ways. Fills from `MemView` are the spec's decision D27. -/
def Obligations.FetchAndLockMissResult : Prop :=
  ∀ (isEva : Bool) (c : CacheName) (rs : BitVec 5) (offset : Int) (s : State) (pa cca : Nat),
    (c = .icache ∨ c = .dcache) → EntersOp isEva (opOf 7#3 c) (addressOf s rs offset) pa cca s →
    s.cfg.lockTargets c (addressOf s rs offset) pa = [(addressOf s rs offset, pa)] →
    Misses s 0 c (s.cfg.lineAddr c pa) →
    (∃ u v, u ≠ v ∧ u ∈ s.cfg.setOf c pa (addressOf s rs offset) ∧ v ∈ s.cfg.setOf c pa (addressOf s rs offset) ∧
      (s.line 0 c u).locked = false ∧ (s.line 0 c v).locked = false) →
    ∃ t v, exec (cacheop isEva (opOf 7#3 c) rs offset) s = .next t ∧
      v ∈ s.cfg.setOf c pa (addressOf s rs offset) ∧ (s.line 0 c v).locked = false ∧
      t.line 0 c v = ⟨true, false, true, s.cfg.lineAddr c pa, t.memView (s.cfg.lineAddr c pa) (s.cfg.lineSize c)⟩ ∧
      t.wbPending = s.wbPending ++ writtenBack s c (s.line 0 c v) ∧
      KeepsOtherLines s t c v ∧ KeepsTags s t ∧ KeepsMachine s t ∧ t.pc = s.pc + 4#32

/-- R84, R138: a Fetch and Lock that would lock the last unlocked way of an index is UNDEFINED: on a line that is present, and on a
miss that leaves one way to choose. Premise: the line of the address is the first that is locked, so its neighbours do not matter.
The early fault is the spec's decision D31 (log entry 39). -/
def Obligations.LockingEveryWayIsUndefined : Prop :=
  ∀ (isEva : Bool) (c : CacheName) (rs : BitVec 5) (offset : Int) (s : State) (pa cca slot : Nat),
    (c = .icache ∨ c = .dcache) → EntersOp isEva (opOf 7#3 c) (addressOf s rs offset) pa cca s →
    (s.UniqueLines → Holds s 0 c slot (s.cfg.lineAddr c pa) →
      (∀ u, u ∈ s.cfg.setOfSlot c slot → u ≠ slot → (s.line 0 c u).locked = true) →
      exec (cacheop isEva (opOf 7#3 c) rs offset) s = .fault (.undefined .allWaysLocked)) ∧
    (Misses s 0 c (s.cfg.lineAddr c pa) → slot ∈ s.cfg.setOf c pa (addressOf s rs offset) →
      (s.line 0 c slot).locked = false →
      (∀ u, u ∈ s.cfg.setOf c pa (addressOf s rs offset) → u ≠ slot → (s.line 0 c u).locked = true) →
      exec (cacheop isEva (opOf 7#3 c) rs offset) s = .fault (.undefined .allWaysLocked))

/-- R52, R138: after a Fetch and Lock completes, every line that `LockSpread` names, the line of the address among them, is held by
a valid and locked slot of the cache. `LockSpread` is a parameter by the spec's decision D25. -/
def Obligations.FetchAndLockLocksEveryTarget : Prop :=
  ∀ (isEva : Bool) (c : CacheName) (rs : BitVec 5) (offset : Int) (s t : State) (pa cca : Nat) (q : Word × Nat),
    (c = .icache ∨ c = .dcache) → EntersOp isEva (opOf 7#3 c) (addressOf s rs offset) pa cca s →
    exec (cacheop isEva (opOf 7#3 c) rs offset) s = .next t →
    q ∈ s.cfg.lockTargets c (addressOf s rs offset) pa →
    ∃ v, Holds t 0 c v (s.cfg.lineAddr c q.2) ∧ (t.line 0 c v).locked = true

/-! ### Implementation dependent operations and hardware errors (R122 to R125, R109, R157) -/

/-- R122: a value 12 to 15 for which the configuration supplies described operations performs them on its cache in order (premise: each
completes); one for which it supplies any other behaviour completes, and of the state R71 lists it writes only lines of that cache of this
core, its tag pair, the data registers where they are implemented, and the end of the pending write-backs. The two forms are the model's
(log entry 28). -/
def Obligations.ImplementationDependentResult : Prop :=
  ∀ (isEva : Bool) (c : CacheName) (rs : BitVec 5) (offset : Int) (s : State) (pa cca : Nat),
    EntersOp isEva (opOf 3#3 c) (addressOf s rs offset) pa cca s →
    (∀ (kinds : List (BitVec 3)) (u : State), (s.cfg.cacheOf c).implDepOp = some (.operations kinds) →
      standardOps c kinds (addressOf s rs offset) pa cca s = .next u →
      ∃ t, exec (cacheop isEva (opOf 3#3 c) rs offset) s = .next t ∧
        KeepsLines u t ∧ t.wbPending = u.wbPending ∧ KeepsTags u t ∧ KeepsMachine s t ∧ t.pc = s.pc + 4#32) ∧
    ((s.cfg.cacheOf c).implDepOp = some .other →
      ∃ t new, exec (cacheop isEva (opOf 3#3 c) rs offset) s = .next t ∧
        (∀ core d u, (core, d) ≠ (0, c) → t.line core d u = s.line core d u) ∧
        (∀ d, s.cfg.tagRegShared c d = false → t.tagLoOf d = s.tagLoOf d ∧ t.tagHiOf d = s.tagHiOf d) ∧
        (s.cfg.dataRegs = false → t.dataLo = s.dataLo ∧ t.dataHi = s.dataHi) ∧
        t.wbPending = s.wbPending ++ new ∧ KeepsMachine s t ∧ t.pc = s.pc + 4#32)

/-- R109, R102, R103: what makes a bus operation, by kind. Index Invalidate, the tag operations and Hit Invalidate make none; Index
Writeback Invalidate, Hit Writeback Invalidate and Hit Writeback make one for each write-back they start; a Fill makes one on a miss, and on
a hit either keeps every line or makes one; a Fetch and Lock of a single line makes none on a hit, and on a miss one for the fill and one for
the write-back of the victim, if any. The count is the model's own (log entry 44). -/
def Obligations.BusOperationsAreWritebacksAndFills : Prop :=
  ∀ (c : CacheName) (va : Word) (pa cca : Nat) (s u : State),
    (∀ kind, kind ∈ [1#3, 2#3, 4#3] ∨ (kind = 0#3 ∧ c = .icache) → operation (opOf kind c) va pa cca s = .next u →
      u.busOps = s.busOps) ∧
    (∀ kind, kind ∈ [0#3, 5#3, 6#3] → c ≠ .icache → operation (opOf kind c) va pa cca s = .next u →
      u.busOps + s.wbPending.length = s.busOps + u.wbPending.length) ∧
    (operation 20#5 va pa cca s = .next u →
      (Misses s 0 .icache (s.cfg.lineAddr .icache pa) → u.busOps = s.busOps + 1) ∧
      (¬Misses s 0 .icache (s.cfg.lineAddr .icache pa) →
        (u.busOps = s.busOps ∧ KeepsLines s u) ∨ u.busOps = s.busOps + 1)) ∧
    (c = .icache ∨ c = .dcache → s.cfg.lockTargets c va pa = [(va, pa)] → operation (opOf 7#3 c) va pa cca s = .next u →
      (¬Misses s 0 c (s.cfg.lineAddr c pa) → u.busOps = s.busOps) ∧
      (Misses s 0 c (s.cfg.lineAddr c pa) →
        u.busOps + s.wbPending.length = s.busOps + 1 + u.wbPending.length))

/-- R109, R156, R157: when the operation itself would complete, a drawn Cache Error is raised by every operation but 4 to 11, and a drawn Bus
Error by an execution that makes a write-back or a fill (BusOperationsAreWritebacksAndFills says which do); in every other case the
instruction completes with the state the operation leaves, `pc` moved on and the drawn entry used up. The free input is the spec's decision
D14, its form log entry 21. -/
def Obligations.HardwareErrorsAreRaised : Prop :=
  ∀ (isEva : Bool) (op rs : BitVec 5) (offset : Int) (s u : State) (pa cca : Nat) (es : List HwError),
    Translates isEva op (addressOf s rs offset) pa cca s → cca ≠ 2 → cca ≠ 7 → s.cfg.opImplemented op = true →
    operation op (addressOf s rs offset) pa cca s = .next u →
    (s.hwErrors = .cacheError :: es → ¬(4 ≤ op.toNat ∧ op.toNat ≤ 11) →
      exec (cacheop isEva op rs offset) s = .fault (.exception .cacheError)) ∧
    (s.hwErrors = .busError :: es → u.busOps ≠ s.busOps →
      exec (cacheop isEva op rs offset) s = .fault (.exception .busError)) ∧
    (s.hwErrors = [] ∨ s.hwErrors = .none :: es ∨ (s.hwErrors = .cacheError :: es ∧ 4 ≤ op.toNat ∧ op.toNat ≤ 11) ∨
        (s.hwErrors = .busError :: es ∧ u.busOps = s.busOps) →
      exec (cacheop isEva op rs offset) s = .next { u with pc := s.pc + 4#32, hwErrors := s.hwErrors.tail })

/-- R157: Index Load Tag and Index Store Tag never raise Cache Error; nor do they raise Bus Error, since they make no bus operation
(R109). -/
def Obligations.TagOperationsRaiseNoHardwareError : Prop :=
  ∀ (isEva : Bool) (op rs : BitVec 5) (offset : Int) (s : State), 4 ≤ op.toNat → op.toNat ≤ 11 →
    exec (cacheop isEva op rs offset) s ≠ .fault (.exception .cacheError) ∧
    exec (cacheop isEva op rs offset) s ≠ .fault (.exception .busError)

/-! ### The whole machine -/

/-- R81, R10: whatever an instruction does, when it completes `pc` has moved by four and no general register, `cp0_enabled`,
constant of the configuration or byte of memory has changed. `pc + 4` modulo 2^32 rests on the spec's decision D5 (log entry 7). -/
def Obligations.CompletionMovesPcAndWritesNoGeneralRegister : Prop :=
  ∀ (i : Instr) (s t : State), exec i s = .next t → t.pc = s.pc + 4#32 ∧ KeepsMachine s t

/-- R142: only Index Load Tag (4 to 7) writes the tag and data registers; the implementation dependent values are set aside. -/
def Obligations.OnlyLoadTagWritesTagRegisters : Prop :=
  ∀ (isEva : Bool) (op rs : BitVec 5) (offset : Int) (s t : State),
    exec (cacheop isEva op rs offset) s = .next t → ¬(4 ≤ op.toNat ∧ op.toNat ≤ 7) → ¬(12 ≤ op.toNat ∧ op.toNat ≤ 15) →
    KeepsTags s t

/-- R183, R142: an instruction only adds to the pending write-backs, at the end, and only op 1, 2, 3, 21, 22, 23, 25, 26, 27 and 29
add anything; the implementation dependent values are set aside in that clause. -/
def Obligations.OnlyWritebackOperationsAddPending : Prop :=
  ∀ (isEva : Bool) (op rs : BitVec 5) (offset : Int) (s t : State),
    exec (cacheop isEva op rs offset) s = .next t →
    ∃ new, t.wbPending = s.wbPending ++ new ∧
      (op.toNat ∉ [1, 2, 3, 21, 22, 23, 25, 26, 27, 29, 12, 13, 14, 15] → new = [])

/-- R54, R62, R53, R108: each value of op acts on the one cache its low two bits name. On the other cores' caches it acts only if it is a
Hit operation (16 to 19, 21 to 23, 25 to 27), and one that is globalized at the cca the address translates with; a value 12 to 15 only
where some described operation of its cache is globalized at that cca (log entry 28). -/
def Obligations.OperationsStayInTheirCache : Prop :=
  ∀ (isEva : Bool) (op rs : BitVec 5) (offset : Int) (s t : State),
    exec (cacheop isEva op rs offset) s = .next t →
    (∀ core c u, c ≠ opCache op → t.line core c u = s.line core c u) ∧
    (op.toNat ∉ [16, 17, 18, 19, 21, 22, 23, 25, 26, 27, 12, 13, 14, 15] →
      ∀ core c u, core ≠ 0 → t.line core c u = s.line core c u) ∧
    (∀ pa cca, s.cfg.translate (addressOf s rs offset) isEva = .ok pa cca →
      (if 12 ≤ op.toNat ∧ op.toNat ≤ 15 then ∀ kind, s.cfg.isGlobalized (opOf kind (opCache op)) cca = false
        else s.cfg.isGlobalized op cca = false) →
      ∀ core c u, core ≠ 0 → t.line core c u = s.line core c u)

/-- R27, R4: no step of any agent changes the configuration, a general register or `cp0_enabled`, and only the core's moves change
`pc` and the tag and data registers. What the environment does is the spec's decision D26 (log entry 23). -/
def Obligations.StepKeepsConfigurationAndRegisters : Prop :=
  ∀ (s t : State), step s = .next t →
    t.cfg = s.cfg ∧ t.x = s.x ∧ t.cp0Enabled = s.cp0Enabled ∧
    (∀ e ts, s.turns = .env e :: ts → t.pc = s.pc ∧ KeepsTags s t)

/-- Every step keeps memory in canonical form (log entry 13). -/
def Obligations.StepKeepsCanonicalMemory : Prop :=
  ∀ (s t : State), s.CanonicalMemory → step s = .next t → t.CanonicalMemory

/-- R25: every step, of the core and of the environment, keeps at most one valid slot per line address in each cache. The premise
R25 is the spec's decision D9. -/
def Obligations.StepKeepsUniqueLines : Prop :=
  ∀ (s t : State), s.UniqueLines → step s = .next t → t.UniqueLines

/-- R24 (a), (b): every step keeps the lines of the instruction cache and of write-through caches clean. The spec marks both clauses
as derived. -/
def Obligations.StepKeepsCleanLines : Prop :=
  ∀ (s t : State), s.CleanLines → step s = .next t → t.CleanLines

/-- R23, R26, R34: every step keeps the shape of the line records (one a slot, line-aligned physical addresses, a line of bytes), of
the pending write-backs and of memory. The record is the spec's decision D9. -/
def Obligations.StepKeepsShape : Prop :=
  ∀ (s t : State), s.Shaped → step s = .next t → t.Shaped

/-- The reset state meets the four invariants, and its configuration record the constraints of R101 and R4. Its line records, memory and
configuration are the model's choice (log entries 2, 11, 13). -/
def Obligations.InvariantsHoldAtReset : Prop :=
  State.reset.CanonicalMemory ∧ State.reset.UniqueLines ∧ State.reset.CleanLines ∧ State.reset.Shaped ∧ State.reset.cfg.Legal

/-- R29, the values it gives: after reset `x[0]` reads 0, `cp0_enabled` is true and no write-back is pending. The first two are
general knowledge in the spec (R11, R21), the third its decision D13. -/
def Obligations.ResetValues : Prop :=
  State.reset.reg 0#5 = 0#32 ∧ State.reset.cp0Enabled = true ∧ State.reset.wbPending = []

/-! ### The environment and memory (R26, R27, R49, R103) -/

/-- R27 (a): an eviction of a slot that is not locked, or an external invalidate of a slot that is valid, locked or not, sends the line to
the pending write-backs if it is valid and dirty, makes the slot invalid, clean and unlocked, and changes no other line, register or byte of
memory; an eviction of a locked slot, an external invalidate of a slot that is not valid and either on a cache that is absent do not occur.
The spec's decision D26 (log entry 23); that the dirty and locked flags are cleared is log entry 45, that a hit is on a valid slot log
entry 46. -/
def Obligations.DisplacementResult : Prop :=
  ∀ (s t : State) (core slot : Nat) (c : CacheName) (e : EnvStep) (ts : List Turn),
    s.turns = .env e :: ts → core ≤ s.others.length → slot < s.cfg.slots c → step s = .next t →
    (s.cfg.present c = true →
      (e = .external core c slot ∧ (s.line core c slot).valid = true) ∨
        (e = .evict core c slot ∧ (s.line core c slot).locked = false) →
      t.line core c slot = { s.line core c slot with valid := false, dirty := false, locked := false } ∧
      t.wbPending = s.wbPending ++ writtenBack s c (s.line core c slot) ∧
      (∀ k d u, (k, d, u) ≠ (core, c, slot) → t.line k d u = s.line k d u) ∧ t.mem = s.mem ∧ t.turns = ts ∧
      t.pc = s.pc ∧ t.x = s.x ∧ t.cp0Enabled = s.cp0Enabled ∧ KeepsTags s t) ∧
    ((e = .evict core c slot ∧ (s.line core c slot).locked = true) ∨
        (e = .external core c slot ∧ (s.line core c slot).valid = false) ∨
        ((e = .evict core c slot ∨ e = .external core c slot) ∧ s.cfg.present c = false) →
      t = { s with turns := ts })

/-- R27 (b): an environment fill of an invalid unlocked slot of a present cache with a line the cache does not hold makes it valid, clean and
unlocked with the bytes memory shows, and changes no other line, register or byte of memory; any other fill does not occur. The spec's
decision D26 (log entry 23). -/
def Obligations.EnvironmentFillResult : Prop :=
  ∀ (s t : State) (core slot pa : Nat) (c : CacheName) (ts : List Turn),
    s.turns = .env (.fill core c slot pa) :: ts → core ≤ s.others.length → slot < s.cfg.slots c →
    pa < 2 ^ s.cfg.palen → step s = .next t →
    (s.cfg.present c = true ∧ (s.line core c slot).valid = false ∧ (s.line core c slot).locked = false ∧
        Misses s core c (s.cfg.lineAddr c pa) →
      t.line core c slot =
        ⟨true, false, false, s.cfg.lineAddr c pa, s.memView (s.cfg.lineAddr c pa) (s.cfg.lineSize c)⟩ ∧
      (∀ k d u, (k, d, u) ≠ (core, c, slot) → t.line k d u = s.line k d u) ∧
      t.wbPending = s.wbPending ∧ t.mem = s.mem ∧
      t.pc = s.pc ∧ t.x = s.x ∧ t.cp0Enabled = s.cp0Enabled ∧ KeepsTags s t) ∧
    (¬(s.cfg.present c = true ∧ (s.line core c slot).valid = false ∧ (s.line core c slot).locked = false ∧
        Misses s core c (s.cfg.lineAddr c pa)) → t = { s with turns := ts })

/-- R26: the record at a place of the list, when no earlier record is for its address, leaves the list and its bytes are in memory
at its address; a record with an earlier one for its address stays. The spec's decision D13 (log entry 24). -/
def Obligations.DrainResult : Prop :=
  ∀ (s t : State) (before after : List Pending) (p : Pending) (ts : List Turn),
    s.turns = .env (.drain before.length) :: ts → s.wbPending = before ++ p :: after → step s = .next t →
    ((∀ q, q ∈ before → q.pa ≠ p.pa) → s.CanonicalMemory → p.pa + p.bytes.length ≤ 2 ^ s.cfg.palen →
      t.wbPending = before ++ after ∧
      readBytes t.cfg t.mem p.pa p.bytes.length = p.bytes ∧
      (∀ a, (a < p.pa ∨ p.pa + p.bytes.length ≤ a) → readByte t.mem a = readByte s.mem a) ∧
      KeepsLines s t) ∧
    ((∃ q, q ∈ before ∧ q.pa = p.pa) → t = { s with turns := ts })

/-- R49: when a SYNC completes no write-back is pending, and memory reads as a fill would have seen it before: every record stored,
in order. The spec's decision D13 (log entry 25). -/
def Obligations.SyncDrainsEverything : Prop :=
  ∀ (s t : State) (ts : List Turn), s.turns = .env .sync :: ts → step s = .next t →
    t.wbPending = [] ∧ (∀ a n, readBytes t.cfg t.mem a n = s.memView a n) ∧ (∀ a n, t.memView a n = s.memView a n) ∧
    KeepsLines s t

/-- R26, R103: a drain, in whatever order R26 admits, changes nothing of what a fill sees; premises: two records for different
addresses do not overlap, and none runs past the top of physical memory. It rests on the spec's decisions D13 and D27. -/
def Obligations.DrainKeepsMemView : Prop :=
  ∀ (s t : State) (k : Nat) (ts : List Turn),
    s.turns = .env (.drain k) :: ts → s.CanonicalMemory →
    (∀ p q, p ∈ s.wbPending → q ∈ s.wbPending →
      p.pa = q.pa ∨ p.pa + p.bytes.length ≤ q.pa ∨ q.pa + q.bytes.length ≤ p.pa) →
    (∀ p, p ∈ s.wbPending → p.pa + p.bytes.length ≤ 2 ^ s.cfg.palen) → step s = .next t →
    ∀ a n, t.memView a n = s.memView a n

/-- R135, R103: after a Hit Writeback of a dirty line completes, a fill of that line sees the bytes the line held; premises: the
line has its bytes and lies in physical memory. It rests on the spec's decision D27 (log entry 37). -/
def Obligations.WrittenBackLineIsSeenByFills : Prop :=
  ∀ (isEva : Bool) (c : CacheName) (rs : BitVec 5) (offset : Int) (s t : State) (pa cca slot : Nat),
    c ≠ .icache → (s.cfg.cacheOf c).writeThrough = false → EntersOp isEva (opOf 6#3 c) (addressOf s rs offset) pa cca s →
    s.cfg.isGlobalized (opOf 6#3 c) cca = false → s.UniqueLines → s.CanonicalMemory →
    Holds s 0 c slot (s.cfg.lineAddr c pa) → (s.line 0 c slot).dirty = true →
    (s.line 0 c slot).data.length = s.cfg.lineSize c → s.cfg.lineAddr c pa + s.cfg.lineSize c ≤ 2 ^ s.cfg.palen →
    exec (cacheop isEva (opOf 6#3 c) rs offset) s = .next t →
    t.memView (s.cfg.lineAddr c pa) (s.cfg.lineSize c) = (s.line 0 c slot).data
end

