-- ==== Sys2Proof/Laws/Params.lean ====
section
/-! SUPPORT. Facts about the configuration record: that tables of rows lose no generality (log entry 1), and that the constraints the spec puts on
the parameters hold by construction (log entry 12). -/

namespace Sys2Proof

/-! ### Every function of a bounded argument is a table -/

theorem row_full_holds {n k v : Nat} (hk : k < 2 ^ n) : Row.holds ⟨2 ^ n - 1, v⟩ k = decide (k = v) := by
  simp [Row.holds, Nat.and_two_pow_sub_one_eq_mod, Nat.mod_eq_of_lt hk]

/-- Every predicate on keys of n bits is a formula. -/
theorem formula_represents (n : Nat) (p : Nat → Bool) : ∃ f : Formula, ∀ k, k < 2 ^ n → f.holds k = p k := by
  refine ⟨((List.range (2 ^ n)).filter p).map fun v => ⟨2 ^ n - 1, v⟩, fun k hk => ?_⟩
  rw [Bool.eq_iff_iff]
  simp only [Formula.holds, List.any_map, List.any_eq_true, Function.comp_apply, row_full_holds hk, List.mem_filter,
    List.mem_range, decide_eq_true_eq]
  exact ⟨fun ⟨v, ⟨_, hv⟩, e⟩ => e ▸ hv, fun h => ⟨k, ⟨hk, h⟩, rfl⟩⟩

/-- Every function on keys of n bits is a table. -/
theorem table_represents {α : Type} (n : Nat) (d : α) (f : Nat → α) :
    ∃ t : Table α, ∀ k, k < 2 ^ n → Table.lookup t d k = f k := by
  refine ⟨(List.range (2 ^ n)).map fun v => (⟨2 ^ n - 1, v⟩, f v), fun k hk => ?_⟩
  have h : ((List.range (2 ^ n)).map fun v => ((⟨2 ^ n - 1, v⟩ : Row), f v)).find? (fun e => e.1.holds k)
      = some (⟨2 ^ n - 1, k⟩, f k) := by
    rw [List.find?_map]
    have : (List.range (2 ^ n)).find? ((fun e : Row × α => e.1.holds k) ∘ fun v => ((⟨2 ^ n - 1, v⟩ : Row), f v))
        = some k := by
      rw [List.find?_range_eq_some]
      refine ⟨by simp [row_full_holds hk], List.mem_range.2 hk, fun j hj => ?_⟩
      simp [row_full_holds hk, Nat.ne_of_gt hj]
    rw [this]; rfl
  simp only [Table.lookup, h]

/-! ### The op field -/

@[simp] theorem opCache_opOf (kind : BitVec 3) (c : CacheName) : opCache (opOf kind c) = c := by
  revert kind; cases c <;> decide

@[simp] theorem opKind_opOf (kind : BitVec 3) (c : CacheName) : opKind (opOf kind c) = kind := by
  revert kind; cases c <;> decide

/-! ### Constraints of the spec -/

/-- R64: an implemented value of op is used and its cache is present. -/
theorem opImplemented_present {cfg : Config} {op : BitVec 5} (h : cfg.opImplemented op = true) :
    opUnused op = false ∧ cfg.present (opCache op) = true := by
  simp only [Config.opImplemented, Bool.and_eq_true, Bool.not_eq_true'] at h
  exact ⟨h.1.1, h.1.2⟩

/-- R122: the kinds of a behaviour that is supplied as a list are described kinds. -/
theorem kinds_described {cfg : Config} {op : BitVec 5} {kinds : List (BitVec 3)} (hi : opImplDep op = true)
    (h : cfg.opImplemented op = true) (hk : (cfg.cacheOf (opCache op)).implDepOp = some (.operations kinds)) :
    ∀ k, k ∈ kinds → kindDescribed (opCache op) k = true := by
  simp only [Config.opImplemented, hi, hk, behaviourSupplied, if_true, Bool.and_eq_true, List.all_eq_true] at h
  exact h.2

theorem required_not_unused : ∀ op : BitVec 5, opRequired op = true → opUnused op = false ∧ opImplDep op = false := by
  decide

/-- R64: a required value of op is implemented when its cache is present. -/
theorem opImplemented_of_required {cfg : Config} {op : BitVec 5} (hr : opRequired op = true)
    (hp : cfg.present (opCache op) = true) : cfg.opImplemented op = true := by
  obtain ⟨hu, hi⟩ := required_not_unused op hr
  simp [Config.opImplemented, hu, hp, hi, hr]

/-- R22: without caches no cache is present. -/
theorem present_of_noCaches {cfg : Config} (h : cfg.noCaches = true) (c : CacheName) : cfg.present c = false := by
  simp [Config.present, h]

theorem slots_of_present {cfg : Config} {c : CacheName} (h : cfg.present c = true) : 0 < cfg.slots c := by
  simp only [Config.present, Bool.and_eq_true, decide_eq_true_eq] at h
  exact Nat.pos_of_ne_zero h.2

/-- R101: an index selects a slot of the cache. -/
theorem indexSlot_lt {cfg : Config} {c : CacheName} (h : cfg.present c = true) (va : Word) :
    cfg.indexSlot c va < cfg.slots c := Nat.mod_lt _ (slots_of_present h)

/-- R101: the members of a set are slots with its number. -/
theorem mem_slotsOfSet {cfg : Config} {c : CacheName} {n t : Nat} :
    t ∈ cfg.slotsOfSet c n ↔ t < cfg.slots c ∧ cfg.setNumber c t = n := by
  simp [Config.slotsOfSet]

/-- R101: the set of a slot holds the slot. -/
theorem mem_setOfSlot_self {cfg : Config} {c : CacheName} {t : Nat} (h : t < cfg.slots c) : t ∈ cfg.setOfSlot c t :=
  mem_slotsOfSet.2 ⟨h, rfl⟩

/-- R101: the set of a slot that a fill may use is the set the fill chooses from. -/
theorem setOfSlot_of_mem_setOf {cfg : Config} {c : CacheName} {pa t : Nat} {va : Word} (h : t ∈ cfg.setOf c pa va) :
    cfg.setOfSlot c t = cfg.setOf c pa va := by
  unfold Config.setOf Config.setOfSlot at *
  rw [(mem_slotsOfSet.1 h).2]

/-- R101: `SetOf` is never empty in a cache that is present. -/
theorem exists_mem_setOf {cfg : Config} {c : CacheName} (h : cfg.present c = true) (pa : Nat) (va : Word) :
    ∃ t, t ∈ cfg.setOf c pa va := ⟨_, mem_setOfSlot_self (Nat.mod_lt _ (slots_of_present h))⟩

theorem phys_lt (cfg : Config) (a : Nat) : cfg.phys a < 2 ^ cfg.palen := Nat.mod_lt _ (Nat.two_pow_pos _)

theorem lineAddr_le (cfg : Config) (c : CacheName) (a : Nat) : cfg.lineAddr c a ≤ a := Nat.sub_le _ _

/-- R101: a line address is a multiple of the line size. -/
theorem lineAddr_mod (cfg : Config) (c : CacheName) (a : Nat) : cfg.lineAddr c a % cfg.lineSize c = 0 := by
  unfold Config.lineAddr
  exact Nat.mod_eq_zero_of_dvd (Nat.dvd_sub_mod a)

/-- Decision D19: an unmapped address always translates. -/
theorem translate_of_unmapped {cfg : Config} {va : Word} {isEva : Bool} (h : cfg.isUnmapped va isEva = true) :
    ∃ pa cca, cfg.translate va isEva = .ok pa cca := by
  unfold Config.isUnmapped at h
  unfold Config.translate
  cases hf : (cfg.view isEva).unmapped.find? fun r => r.row.holds va.toNat with
  | some r => exact ⟨_, _, rfl⟩
  | none =>
    rw [List.find?_eq_none] at hf
    rw [List.any_eq_true] at h
    obtain ⟨r, hr, h⟩ := h
    exact absurd h (hf r hr)

/-- R34: a translation is a physical address. -/
theorem translate_lt {cfg : Config} {va : Word} {isEva : Bool} {pa cca : Nat} (h : cfg.translate va isEva = .ok pa cca) :
    pa < 2 ^ cfg.palen := by
  have region : ∀ r : Region, cfg.regionAnswer r va = .ok pa cca → pa < 2 ^ cfg.palen := by
    intro r hr
    simp only [Config.regionAnswer, Translation.ok.injEq] at hr
    exact hr.1 ▸ phys_lt _ _
  unfold Config.translate at h
  split at h
  · exact region _ h
  · split at h
    · exact region _ h
    · cases h
    · cases h

/-- R138: the lines of a Fetch and Lock are at physical addresses. -/
theorem lockTargets_lt {cfg : Config} {c : CacheName} {va : Word} {pa : Nat} (h : pa < 2 ^ cfg.palen) :
    ∀ q ∈ cfg.lockTargets c va pa, q.2 < 2 ^ cfg.palen := by
  intro q hq
  simp only [Config.lockTargets, List.mem_cons, List.mem_map] at hq
  obtain rfl | ⟨d, _, rfl⟩ := hq
  · exact h
  · have hp : (0 : Int) < (2 ^ cfg.palen : Nat) := by exact_mod_cast Nat.two_pow_pos _
    have h1 := Int.emod_nonneg ((pa : Int) + d * cfg.lineSize c) (Int.ne_of_gt hp)
    have h2 := Int.emod_lt_of_pos ((pa : Int) + d * cfg.lineSize c) hp
    show Int.toNat _ < _
    omega

end Sys2Proof
end

