-- ==== Sys2Proof/Laws/State.lean ====
section
/-! SUPPORT. The small lemmas of the state: reading a field after an update, reading a line record after a write of one. -/

namespace Sys2Proof

/-! ### Families of four -/

@[simp] theorem PerCache.get_set_self {α : Type} (p : PerCache α) (c : CacheName) (v : α) : (p.set c v).get c = v := by
  cases c <;> rfl

theorem PerCache.get_set_ne {α : Type} (p : PerCache α) {c d : CacheName} (v : α) (h : d ≠ c) :
    (p.set c v).get d = p.get d := by
  cases c <;> cases d <;> first | rfl | exact absurd rfl h

namespace Machine

/-! ### Slots of a list -/

@[simp] theorem slotLine_putLine_self (ls : List Line) (t : Nat) (l : Line) : slotLine (putLine ls t l) t = l := by
  induction ls generalizing t with
  | nil => induction t with
    | zero => rfl
    | succ t ih => simpa [putLine, slotLine] using ih
  | cons k ls ih => cases t with
    | zero => rfl
    | succ t => simpa [putLine, slotLine] using ih t

theorem slotLine_putLine_ne (ls : List Line) {t u : Nat} (l : Line) (h : u ≠ t) :
    slotLine (putLine ls t l) u = slotLine ls u := by
  induction ls generalizing t u with
  | nil => induction t generalizing u with
    | zero => cases u with
      | zero => exact absurd rfl h
      | succ u => rfl
    | succ t ih => cases u with
      | zero => rfl
      | succ u => simpa [putLine, slotLine] using ih (by omega : u ≠ t)
  | cons k ls ih => cases t with
    | zero => cases u with
      | zero => exact absurd rfl h
      | succ u => rfl
    | succ t => cases u with
      | zero => rfl
      | succ u => simpa [putLine, slotLine] using ih (by omega : u ≠ t)

theorem length_putLine (ls : List Line) {t : Nat} (l : Line) (h : t < ls.length) : (putLine ls t l).length = ls.length := by
  induction ls generalizing t with
  | nil => simp at h
  | cons k ls ih => cases t with
    | zero => rfl
    | succ t => simpa [putLine] using ih (by simpa using h)

/-! ### Fields after an update -/

section
variable (s : State) (core : Nat) (c : CacheName) (t : Nat) (l : Line) (a : Arrays) (lo hi : Word)

@[simp] theorem setArrays_cfg : (s.setArrays core a).cfg = s.cfg := by cases core <;> rfl
@[simp] theorem setArrays_x : (s.setArrays core a).x = s.x := by cases core <;> rfl
@[simp] theorem setArrays_pc : (s.setArrays core a).pc = s.pc := by cases core <;> rfl
@[simp] theorem setArrays_cp0Enabled : (s.setArrays core a).cp0Enabled = s.cp0Enabled := by cases core <;> rfl
@[simp] theorem setArrays_tagLo : (s.setArrays core a).tagLo = s.tagLo := by cases core <;> rfl
@[simp] theorem setArrays_tagHi : (s.setArrays core a).tagHi = s.tagHi := by cases core <;> rfl
@[simp] theorem setArrays_dataLo : (s.setArrays core a).dataLo = s.dataLo := by cases core <;> rfl
@[simp] theorem setArrays_dataHi : (s.setArrays core a).dataHi = s.dataHi := by cases core <;> rfl
@[simp] theorem setArrays_others_length : (s.setArrays core a).others.length = s.others.length := by
  cases core <;> simp [State.setArrays]
@[simp] theorem setArrays_wbPending : (s.setArrays core a).wbPending = s.wbPending := by cases core <;> rfl
@[simp] theorem setArrays_mem : (s.setArrays core a).mem = s.mem := by cases core <;> rfl
@[simp] theorem setArrays_hwErrors : (s.setArrays core a).hwErrors = s.hwErrors := by cases core <;> rfl
@[simp] theorem setArrays_turns : (s.setArrays core a).turns = s.turns := by cases core <;> rfl
@[simp] theorem setArrays_draws : (s.setArrays core a).draws = s.draws := by cases core <;> rfl
@[simp] theorem setArrays_busOps : (s.setArrays core a).busOps = s.busOps := by cases core <;> rfl

@[simp] theorem setLine_cfg : (s.setLine core c t l).cfg = s.cfg := setArrays_cfg ..
@[simp] theorem setLine_x : (s.setLine core c t l).x = s.x := setArrays_x ..
@[simp] theorem setLine_pc : (s.setLine core c t l).pc = s.pc := setArrays_pc ..
@[simp] theorem setLine_cp0Enabled : (s.setLine core c t l).cp0Enabled = s.cp0Enabled := setArrays_cp0Enabled ..
@[simp] theorem setLine_tagLo : (s.setLine core c t l).tagLo = s.tagLo := setArrays_tagLo ..
@[simp] theorem setLine_tagHi : (s.setLine core c t l).tagHi = s.tagHi := setArrays_tagHi ..
@[simp] theorem setLine_dataLo : (s.setLine core c t l).dataLo = s.dataLo := setArrays_dataLo ..
@[simp] theorem setLine_dataHi : (s.setLine core c t l).dataHi = s.dataHi := setArrays_dataHi ..
@[simp] theorem setLine_others_length : (s.setLine core c t l).others.length = s.others.length := setArrays_others_length ..
@[simp] theorem setLine_wbPending : (s.setLine core c t l).wbPending = s.wbPending := setArrays_wbPending ..
@[simp] theorem setLine_mem : (s.setLine core c t l).mem = s.mem := setArrays_mem ..
@[simp] theorem setLine_hwErrors : (s.setLine core c t l).hwErrors = s.hwErrors := setArrays_hwErrors ..
@[simp] theorem setLine_turns : (s.setLine core c t l).turns = s.turns := setArrays_turns ..
@[simp] theorem setLine_draws : (s.setLine core c t l).draws = s.draws := setArrays_draws ..
@[simp] theorem setLine_busOps : (s.setLine core c t l).busOps = s.busOps := setArrays_busOps ..

@[simp] theorem invalidateSlot_cfg : (s.invalidateSlot core c t).cfg = s.cfg := setLine_cfg ..
@[simp] theorem invalidateSlot_x : (s.invalidateSlot core c t).x = s.x := setLine_x ..
@[simp] theorem invalidateSlot_pc : (s.invalidateSlot core c t).pc = s.pc := setLine_pc ..
@[simp] theorem invalidateSlot_cp0Enabled : (s.invalidateSlot core c t).cp0Enabled = s.cp0Enabled := setLine_cp0Enabled ..
@[simp] theorem invalidateSlot_tagLo : (s.invalidateSlot core c t).tagLo = s.tagLo := setLine_tagLo ..
@[simp] theorem invalidateSlot_tagHi : (s.invalidateSlot core c t).tagHi = s.tagHi := setLine_tagHi ..
@[simp] theorem invalidateSlot_dataLo : (s.invalidateSlot core c t).dataLo = s.dataLo := setLine_dataLo ..
@[simp] theorem invalidateSlot_dataHi : (s.invalidateSlot core c t).dataHi = s.dataHi := setLine_dataHi ..
@[simp] theorem invalidateSlot_others_length : (s.invalidateSlot core c t).others.length = s.others.length :=
  setLine_others_length ..
@[simp] theorem invalidateSlot_wbPending : (s.invalidateSlot core c t).wbPending = s.wbPending := setLine_wbPending ..
@[simp] theorem invalidateSlot_mem : (s.invalidateSlot core c t).mem = s.mem := setLine_mem ..
@[simp] theorem invalidateSlot_hwErrors : (s.invalidateSlot core c t).hwErrors = s.hwErrors := setLine_hwErrors ..
@[simp] theorem invalidateSlot_turns : (s.invalidateSlot core c t).turns = s.turns := setLine_turns ..
@[simp] theorem invalidateSlot_draws : (s.invalidateSlot core c t).draws = s.draws := setLine_draws ..
@[simp] theorem invalidateSlot_busOps : (s.invalidateSlot core c t).busOps = s.busOps := setLine_busOps ..

@[simp] theorem busOp_cfg (n : Nat) : (s.busOp n).cfg = s.cfg := rfl
@[simp] theorem busOp_x (n : Nat) : (s.busOp n).x = s.x := rfl
@[simp] theorem busOp_pc (n : Nat) : (s.busOp n).pc = s.pc := rfl
@[simp] theorem busOp_cp0Enabled (n : Nat) : (s.busOp n).cp0Enabled = s.cp0Enabled := rfl
@[simp] theorem busOp_tagLo (n : Nat) : (s.busOp n).tagLo = s.tagLo := rfl
@[simp] theorem busOp_tagHi (n : Nat) : (s.busOp n).tagHi = s.tagHi := rfl
@[simp] theorem busOp_dataLo (n : Nat) : (s.busOp n).dataLo = s.dataLo := rfl
@[simp] theorem busOp_dataHi (n : Nat) : (s.busOp n).dataHi = s.dataHi := rfl
@[simp] theorem busOp_caches (n : Nat) : (s.busOp n).caches = s.caches := rfl
@[simp] theorem busOp_others (n : Nat) : (s.busOp n).others = s.others := rfl
@[simp] theorem busOp_wbPending (n : Nat) : (s.busOp n).wbPending = s.wbPending := rfl
@[simp] theorem busOp_mem (n : Nat) : (s.busOp n).mem = s.mem := rfl
@[simp] theorem busOp_hwErrors (n : Nat) : (s.busOp n).hwErrors = s.hwErrors := rfl
@[simp] theorem busOp_turns (n : Nat) : (s.busOp n).turns = s.turns := rfl
@[simp] theorem busOp_draws (n : Nat) : (s.busOp n).draws = s.draws := rfl
@[simp] theorem busOp_busOps (n : Nat) : (s.busOp n).busOps = s.busOps + n := rfl
@[simp] theorem busOp_arrays (n k : Nat) : (s.busOp n).arrays k = s.arrays k := by cases k <;> rfl
@[simp] theorem busOp_line (n k : Nat) (d : CacheName) (u : Nat) : (s.busOp n).line k d u = s.line k d u := by simp [State.line]

@[simp] theorem send_cfg (p : Pending) : (s.send p).cfg = s.cfg := rfl
@[simp] theorem send_x (p : Pending) : (s.send p).x = s.x := rfl
@[simp] theorem send_pc (p : Pending) : (s.send p).pc = s.pc := rfl
@[simp] theorem send_cp0Enabled (p : Pending) : (s.send p).cp0Enabled = s.cp0Enabled := rfl
@[simp] theorem send_tagLo (p : Pending) : (s.send p).tagLo = s.tagLo := rfl
@[simp] theorem send_tagHi (p : Pending) : (s.send p).tagHi = s.tagHi := rfl
@[simp] theorem send_dataLo (p : Pending) : (s.send p).dataLo = s.dataLo := rfl
@[simp] theorem send_dataHi (p : Pending) : (s.send p).dataHi = s.dataHi := rfl
@[simp] theorem send_caches (p : Pending) : (s.send p).caches = s.caches := rfl
@[simp] theorem send_others (p : Pending) : (s.send p).others = s.others := rfl
@[simp] theorem send_wbPending (p : Pending) : (s.send p).wbPending = s.wbPending ++ [p] := rfl
@[simp] theorem send_mem (p : Pending) : (s.send p).mem = s.mem := rfl
@[simp] theorem send_hwErrors (p : Pending) : (s.send p).hwErrors = s.hwErrors := rfl
@[simp] theorem send_turns (p : Pending) : (s.send p).turns = s.turns := rfl
@[simp] theorem send_draws (p : Pending) : (s.send p).draws = s.draws := rfl
@[simp] theorem send_busOps (p : Pending) : (s.send p).busOps = s.busOps + 1 := rfl
@[simp] theorem send_arrays (p : Pending) (k : Nat) : (s.send p).arrays k = s.arrays k := by cases k <;> rfl
@[simp] theorem send_line (p : Pending) (k : Nat) (d : CacheName) (u : Nat) : (s.send p).line k d u = s.line k d u := by
  simp [State.line]

@[simp] theorem fillLine_cfg (pa : Nat) : (s.fillLine core c t pa).cfg = s.cfg := setLine_cfg ..
@[simp] theorem fillLine_x (pa : Nat) : (s.fillLine core c t pa).x = s.x := setLine_x ..
@[simp] theorem fillLine_pc (pa : Nat) : (s.fillLine core c t pa).pc = s.pc := setLine_pc ..
@[simp] theorem fillLine_cp0Enabled (pa : Nat) : (s.fillLine core c t pa).cp0Enabled = s.cp0Enabled := setLine_cp0Enabled ..
@[simp] theorem fillLine_tagLo (pa : Nat) : (s.fillLine core c t pa).tagLo = s.tagLo := setLine_tagLo ..
@[simp] theorem fillLine_tagHi (pa : Nat) : (s.fillLine core c t pa).tagHi = s.tagHi := setLine_tagHi ..
@[simp] theorem fillLine_dataLo (pa : Nat) : (s.fillLine core c t pa).dataLo = s.dataLo := setLine_dataLo ..
@[simp] theorem fillLine_dataHi (pa : Nat) : (s.fillLine core c t pa).dataHi = s.dataHi := setLine_dataHi ..
@[simp] theorem fillLine_others_length (pa : Nat) : (s.fillLine core c t pa).others.length = s.others.length :=
  setLine_others_length ..
@[simp] theorem fillLine_wbPending (pa : Nat) : (s.fillLine core c t pa).wbPending = s.wbPending := setLine_wbPending ..
@[simp] theorem fillLine_mem (pa : Nat) : (s.fillLine core c t pa).mem = s.mem := setLine_mem ..
@[simp] theorem fillLine_hwErrors (pa : Nat) : (s.fillLine core c t pa).hwErrors = s.hwErrors := setLine_hwErrors ..
@[simp] theorem fillLine_turns (pa : Nat) : (s.fillLine core c t pa).turns = s.turns := setLine_turns ..
@[simp] theorem fillLine_draws (pa : Nat) : (s.fillLine core c t pa).draws = s.draws := setLine_draws ..
@[simp] theorem fillLine_busOps (pa : Nat) : (s.fillLine core c t pa).busOps = s.busOps + 1 := by simp [State.fillLine]

@[simp] theorem writeBackLine_cfg : (s.writeBackLine core c t).cfg = s.cfg := by unfold State.writeBackLine; split <;> rfl
@[simp] theorem writeBackLine_x : (s.writeBackLine core c t).x = s.x := by unfold State.writeBackLine; split <;> rfl
@[simp] theorem writeBackLine_pc : (s.writeBackLine core c t).pc = s.pc := by unfold State.writeBackLine; split <;> rfl
@[simp] theorem writeBackLine_cp0Enabled : (s.writeBackLine core c t).cp0Enabled = s.cp0Enabled := by
  unfold State.writeBackLine; split <;> rfl
@[simp] theorem writeBackLine_tagLo : (s.writeBackLine core c t).tagLo = s.tagLo := by
  unfold State.writeBackLine; split <;> rfl
@[simp] theorem writeBackLine_tagHi : (s.writeBackLine core c t).tagHi = s.tagHi := by
  unfold State.writeBackLine; split <;> rfl
@[simp] theorem writeBackLine_dataLo : (s.writeBackLine core c t).dataLo = s.dataLo := by
  unfold State.writeBackLine; split <;> rfl
@[simp] theorem writeBackLine_dataHi : (s.writeBackLine core c t).dataHi = s.dataHi := by
  unfold State.writeBackLine; split <;> rfl
@[simp] theorem writeBackLine_caches : (s.writeBackLine core c t).caches = s.caches := by
  unfold State.writeBackLine; split <;> rfl
@[simp] theorem writeBackLine_others : (s.writeBackLine core c t).others = s.others := by
  unfold State.writeBackLine; split <;> rfl
@[simp] theorem writeBackLine_mem : (s.writeBackLine core c t).mem = s.mem := by unfold State.writeBackLine; split <;> rfl
@[simp] theorem writeBackLine_hwErrors : (s.writeBackLine core c t).hwErrors = s.hwErrors := by
  unfold State.writeBackLine; split <;> rfl
@[simp] theorem writeBackLine_turns : (s.writeBackLine core c t).turns = s.turns := by
  unfold State.writeBackLine; split <;> rfl
@[simp] theorem writeBackLine_draws : (s.writeBackLine core c t).draws = s.draws := by
  unfold State.writeBackLine; split <;> rfl

/-- A write-back of a record that must be written back is one bus operation (R109). -/
theorem writeBackLine_busOps : (s.writeBackLine core c t).busOps =
    s.busOps + if (s.line core c t).mustWriteBack s.cfg c = true then 1 else 0 := by
  unfold State.writeBackLine; split <;> rfl

/-- A write-back only lengthens the list of pending write-backs, and only for a record that must be written back (R102). -/
theorem writeBackLine_wbPending : (s.writeBackLine core c t).wbPending = s.wbPending ++
    if (s.line core c t).mustWriteBack s.cfg c = true then [⟨(s.line core c t).addr, (s.line core c t).data⟩] else [] := by
  unfold State.writeBackLine; split <;> simp_all

@[simp] theorem advance_cfg : s.advance.cfg = s.cfg := rfl
@[simp] theorem advance_x : s.advance.x = s.x := rfl
@[simp] theorem advance_pc : s.advance.pc = s.pc + 4#32 := rfl
@[simp] theorem advance_cp0Enabled : s.advance.cp0Enabled = s.cp0Enabled := rfl
@[simp] theorem advance_tagLo : s.advance.tagLo = s.tagLo := rfl
@[simp] theorem advance_tagHi : s.advance.tagHi = s.tagHi := rfl
@[simp] theorem advance_dataLo : s.advance.dataLo = s.dataLo := rfl
@[simp] theorem advance_dataHi : s.advance.dataHi = s.dataHi := rfl
@[simp] theorem advance_caches : s.advance.caches = s.caches := rfl
@[simp] theorem advance_others : s.advance.others = s.others := rfl
@[simp] theorem advance_wbPending : s.advance.wbPending = s.wbPending := rfl
@[simp] theorem advance_mem : s.advance.mem = s.mem := rfl
@[simp] theorem advance_busOps : s.advance.busOps = s.busOps := rfl
@[simp] theorem advance_hwErrors : s.advance.hwErrors = s.hwErrors := rfl
@[simp] theorem advance_turns : s.advance.turns = s.turns := rfl
@[simp] theorem advance_draws : s.advance.draws = s.draws := rfl
@[simp] theorem advance_line : s.advance.line core c t = s.line core c t := by cases core <;> rfl

@[simp] theorem errorTaken_cfg : s.errorTaken.cfg = s.cfg := rfl
@[simp] theorem errorTaken_x : s.errorTaken.x = s.x := rfl
@[simp] theorem errorTaken_pc : s.errorTaken.pc = s.pc := rfl
@[simp] theorem errorTaken_cp0Enabled : s.errorTaken.cp0Enabled = s.cp0Enabled := rfl
@[simp] theorem errorTaken_tagLo : s.errorTaken.tagLo = s.tagLo := rfl
@[simp] theorem errorTaken_tagHi : s.errorTaken.tagHi = s.tagHi := rfl
@[simp] theorem errorTaken_dataLo : s.errorTaken.dataLo = s.dataLo := rfl
@[simp] theorem errorTaken_dataHi : s.errorTaken.dataHi = s.dataHi := rfl
@[simp] theorem errorTaken_caches : s.errorTaken.caches = s.caches := rfl
@[simp] theorem errorTaken_others : s.errorTaken.others = s.others := rfl
@[simp] theorem errorTaken_wbPending : s.errorTaken.wbPending = s.wbPending := rfl
@[simp] theorem errorTaken_mem : s.errorTaken.mem = s.mem := rfl
@[simp] theorem errorTaken_busOps : s.errorTaken.busOps = s.busOps := rfl
@[simp] theorem errorTaken_hwErrors : s.errorTaken.hwErrors = s.hwErrors.tail := rfl
@[simp] theorem errorTaken_turns : s.errorTaken.turns = s.turns := rfl
@[simp] theorem errorTaken_draws : s.errorTaken.draws = s.draws := rfl
@[simp] theorem errorTaken_line : s.errorTaken.line core c t = s.line core c t := by cases core <;> rfl

@[simp] theorem drawn_cfg : s.drawn.cfg = s.cfg := rfl
@[simp] theorem drawn_x : s.drawn.x = s.x := rfl
@[simp] theorem drawn_pc : s.drawn.pc = s.pc := rfl
@[simp] theorem drawn_cp0Enabled : s.drawn.cp0Enabled = s.cp0Enabled := rfl
@[simp] theorem drawn_tagLo : s.drawn.tagLo = s.tagLo := rfl
@[simp] theorem drawn_tagHi : s.drawn.tagHi = s.tagHi := rfl
@[simp] theorem drawn_dataLo : s.drawn.dataLo = s.dataLo := rfl
@[simp] theorem drawn_dataHi : s.drawn.dataHi = s.dataHi := rfl
@[simp] theorem drawn_caches : s.drawn.caches = s.caches := rfl
@[simp] theorem drawn_others : s.drawn.others = s.others := rfl
@[simp] theorem drawn_wbPending : s.drawn.wbPending = s.wbPending := rfl
@[simp] theorem drawn_mem : s.drawn.mem = s.mem := rfl
@[simp] theorem drawn_hwErrors : s.drawn.hwErrors = s.hwErrors := rfl
@[simp] theorem drawn_turns : s.drawn.turns = s.turns := rfl
@[simp] theorem drawn_draws : s.drawn.draws = s.draws + 1 := rfl
@[simp] theorem drawn_busOps : s.drawn.busOps = s.busOps := rfl
@[simp] theorem drawn_line : s.drawn.line core c t = s.line core c t := by cases core <;> rfl

@[simp] theorem setTag_cfg : (s.setTag c lo hi).cfg = s.cfg := rfl
@[simp] theorem setTag_x : (s.setTag c lo hi).x = s.x := rfl
@[simp] theorem setTag_pc : (s.setTag c lo hi).pc = s.pc := rfl
@[simp] theorem setTag_cp0Enabled : (s.setTag c lo hi).cp0Enabled = s.cp0Enabled := rfl
@[simp] theorem setTag_dataLo : (s.setTag c lo hi).dataLo = s.dataLo := rfl
@[simp] theorem setTag_dataHi : (s.setTag c lo hi).dataHi = s.dataHi := rfl
@[simp] theorem setTag_caches : (s.setTag c lo hi).caches = s.caches := rfl
@[simp] theorem setTag_others : (s.setTag c lo hi).others = s.others := rfl
@[simp] theorem setTag_wbPending : (s.setTag c lo hi).wbPending = s.wbPending := rfl
@[simp] theorem setTag_mem : (s.setTag c lo hi).mem = s.mem := rfl
@[simp] theorem setTag_hwErrors : (s.setTag c lo hi).hwErrors = s.hwErrors := rfl
@[simp] theorem setTag_turns : (s.setTag c lo hi).turns = s.turns := rfl
@[simp] theorem setTag_draws : (s.setTag c lo hi).draws = s.draws := rfl
@[simp] theorem setTag_busOps : (s.setTag c lo hi).busOps = s.busOps := rfl
@[simp] theorem setTag_line (d : CacheName) : (s.setTag c lo hi).line core d t = s.line core d t := by cases core <;> rfl

/-- `TagLo` of a cache after a write of a cache's pair: the value written where the two share a register (R18). -/
theorem setTag_tagLoOf (d : CacheName) : (s.setTag c lo hi).tagLoOf d =
    if s.cfg.tagRegShared c d = true then lo else s.tagLoOf d := by
  by_cases h : (s.cfg.cacheOf c).tagPair = (s.cfg.cacheOf d).tagPair
  · simp [State.tagLoOf, State.setTag, Config.tagRegShared, h]
  · simp [State.tagLoOf, State.setTag, Config.tagRegShared, h, PerCache.get_set_ne _ _ (Ne.symm h)]

/-- `TagHi` of a cache after a write of a cache's pair (R18). -/
theorem setTag_tagHiOf (d : CacheName) : (s.setTag c lo hi).tagHiOf d =
    if s.cfg.tagRegShared c d = true then hi else s.tagHiOf d := by
  by_cases h : (s.cfg.cacheOf c).tagPair = (s.cfg.cacheOf d).tagPair
  · simp [State.tagHiOf, State.setTag, Config.tagRegShared, h]
  · simp [State.tagHiOf, State.setTag, Config.tagRegShared, h, PerCache.get_set_ne _ _ (Ne.symm h)]

@[simp] theorem setData_cfg : (s.setData lo hi).cfg = s.cfg := by unfold State.setData; split <;> rfl
@[simp] theorem setData_x : (s.setData lo hi).x = s.x := by unfold State.setData; split <;> rfl
@[simp] theorem setData_pc : (s.setData lo hi).pc = s.pc := by unfold State.setData; split <;> rfl
@[simp] theorem setData_cp0Enabled : (s.setData lo hi).cp0Enabled = s.cp0Enabled := by unfold State.setData; split <;> rfl
@[simp] theorem setData_tagLo : (s.setData lo hi).tagLo = s.tagLo := by unfold State.setData; split <;> rfl
@[simp] theorem setData_tagHi : (s.setData lo hi).tagHi = s.tagHi := by unfold State.setData; split <;> rfl
@[simp] theorem setData_caches : (s.setData lo hi).caches = s.caches := by unfold State.setData; split <;> rfl
@[simp] theorem setData_others : (s.setData lo hi).others = s.others := by unfold State.setData; split <;> rfl
@[simp] theorem setData_wbPending : (s.setData lo hi).wbPending = s.wbPending := by unfold State.setData; split <;> rfl
@[simp] theorem setData_mem : (s.setData lo hi).mem = s.mem := by unfold State.setData; split <;> rfl
@[simp] theorem setData_hwErrors : (s.setData lo hi).hwErrors = s.hwErrors := by unfold State.setData; split <;> rfl
@[simp] theorem setData_turns : (s.setData lo hi).turns = s.turns := by unfold State.setData; split <;> rfl
@[simp] theorem setData_draws : (s.setData lo hi).draws = s.draws := by unfold State.setData; split <;> rfl
@[simp] theorem setData_busOps : (s.setData lo hi).busOps = s.busOps := by unfold State.setData; split <;> rfl
@[simp] theorem setData_tagLoOf (d : CacheName) : (s.setData lo hi).tagLoOf d = s.tagLoOf d := by simp [State.tagLoOf]
@[simp] theorem setData_tagHiOf (d : CacheName) : (s.setData lo hi).tagHiOf d = s.tagHiOf d := by simp [State.tagHiOf]
@[simp] theorem setData_line (k : Nat) (d : CacheName) (u : Nat) : (s.setData lo hi).line k d u = s.line k d u := by
  cases k <;> simp [State.line, State.arrays]

/-- R19: data registers that are not implemented are not written. -/
theorem setData_absent (h : s.cfg.dataRegs = false) : s.setData lo hi = s := by simp [State.setData, h]

@[simp] theorem loadData_cfg : s.loadData.cfg = s.cfg := by simp [State.loadData]
@[simp] theorem loadData_x : s.loadData.x = s.x := by simp [State.loadData]
@[simp] theorem loadData_pc : s.loadData.pc = s.pc := by simp [State.loadData]
@[simp] theorem loadData_cp0Enabled : s.loadData.cp0Enabled = s.cp0Enabled := by simp [State.loadData]
@[simp] theorem loadData_tagLo : s.loadData.tagLo = s.tagLo := by simp [State.loadData]
@[simp] theorem loadData_tagHi : s.loadData.tagHi = s.tagHi := by simp [State.loadData]
@[simp] theorem loadData_caches : s.loadData.caches = s.caches := by simp [State.loadData]
@[simp] theorem loadData_others : s.loadData.others = s.others := by simp [State.loadData]
@[simp] theorem loadData_wbPending : s.loadData.wbPending = s.wbPending := by simp [State.loadData]
@[simp] theorem loadData_mem : s.loadData.mem = s.mem := by simp [State.loadData]
@[simp] theorem loadData_hwErrors : s.loadData.hwErrors = s.hwErrors := by simp [State.loadData]
@[simp] theorem loadData_turns : s.loadData.turns = s.turns := by simp [State.loadData]
@[simp] theorem loadData_busOps : s.loadData.busOps = s.busOps := by simp [State.loadData]
@[simp] theorem loadData_tagLoOf (d : CacheName) : s.loadData.tagLoOf d = s.tagLoOf d := by simp [State.tagLoOf]
@[simp] theorem loadData_tagHiOf (d : CacheName) : s.loadData.tagHiOf d = s.tagHiOf d := by simp [State.tagHiOf]

@[simp] theorem turnTaken_cfg : s.turnTaken.cfg = s.cfg := rfl
@[simp] theorem turnTaken_x : s.turnTaken.x = s.x := rfl
@[simp] theorem turnTaken_pc : s.turnTaken.pc = s.pc := rfl
@[simp] theorem turnTaken_cp0Enabled : s.turnTaken.cp0Enabled = s.cp0Enabled := rfl
@[simp] theorem turnTaken_tagLo : s.turnTaken.tagLo = s.tagLo := rfl
@[simp] theorem turnTaken_tagHi : s.turnTaken.tagHi = s.tagHi := rfl
@[simp] theorem turnTaken_dataLo : s.turnTaken.dataLo = s.dataLo := rfl
@[simp] theorem turnTaken_dataHi : s.turnTaken.dataHi = s.dataHi := rfl
@[simp] theorem turnTaken_hwErrors : s.turnTaken.hwErrors = s.hwErrors := rfl
@[simp] theorem turnTaken_draws : s.turnTaken.draws = s.draws := rfl
@[simp] theorem turnTaken_caches : s.turnTaken.caches = s.caches := rfl
@[simp] theorem turnTaken_others : s.turnTaken.others = s.others := rfl
@[simp] theorem turnTaken_wbPending : s.turnTaken.wbPending = s.wbPending := rfl
@[simp] theorem turnTaken_mem : s.turnTaken.mem = s.mem := rfl
@[simp] theorem turnTaken_busOps : s.turnTaken.busOps = s.busOps := rfl
@[simp] theorem turnTaken_turns : s.turnTaken.turns = s.turns.tail := rfl
@[simp] theorem turnTaken_line : s.turnTaken.line core c t = s.line core c t := by cases core <;> rfl

/-! ### Line records after a write -/

/-- The arrays of a core after the arrays of a core are replaced. -/
theorem arrays_setArrays (k : Nat) : (s.setArrays core a).arrays k =
    if k = core ∧ core ≤ s.others.length then a else s.arrays k := by
  cases core with
  | zero => cases k <;> simp [State.setArrays, State.arrays]
  | succ j =>
    cases k with
    | zero => simp [State.setArrays, State.arrays]
    | succ k =>
      by_cases h : j = k
      · subst h
        by_cases hl : j < s.others.length
        · simp [State.setArrays, State.arrays, List.getD_eq_getElem?_getD, hl]
        · simp [State.setArrays, State.arrays, List.getD_eq_getElem?_getD, hl]
      · simp [State.setArrays, State.arrays, List.getD_eq_getElem?_getD, h, Ne.symm h]

/-- A line record after a write of one: the record written at its own place, if the core exists, and as it was everywhere else. -/
theorem line_setLine (k : Nat) (d : CacheName) (u : Nat) : (s.setLine core c t l).line k d u =
    if k = core ∧ core ≤ s.others.length ∧ d = c ∧ u = t then l else s.line k d u := by
  unfold State.line State.setLine
  rw [arrays_setArrays]
  by_cases hk : k = core ∧ core ≤ s.others.length
  · obtain ⟨rfl, hk⟩ := hk
    by_cases hd : d = c
    · subst hd
      by_cases hu : u = t
      · simp [hk, hu]
      · simp [hk, hu, slotLine_putLine_ne _ _ hu]
    · simp [hk, hd, PerCache.get_set_ne _ _ hd]
  · have : ¬(k = core ∧ core ≤ s.others.length ∧ d = c ∧ u = t) := fun h => hk ⟨h.1, h.2.1⟩
    simp only [hk, this, if_false]

@[simp] theorem line_setLine_own : (s.setLine 0 c t l).line 0 c t = l := by simp [line_setLine]

@[simp] theorem writeBackLine_arrays (k : Nat) : (s.writeBackLine core c t).arrays k = s.arrays k := by
  cases k <;> simp [State.arrays]

@[simp] theorem writeBackLine_line (k : Nat) (d : CacheName) (u : Nat) :
    (s.writeBackLine core c t).line k d u = s.line k d u := by simp [State.line]

@[simp] theorem loadData_line (k : Nat) (d : CacheName) (u : Nat) : s.loadData.line k d u = s.line k d u := by
  cases k <;> simp [State.line, State.arrays]

/-- A line record after an invalidation (R105). -/
theorem line_invalidateSlot (k : Nat) (d : CacheName) (u : Nat) : (s.invalidateSlot core c t).line k d u =
    if k = core ∧ core ≤ s.others.length ∧ d = c ∧ u = t then (s.line core c t).invalidated else s.line k d u :=
  line_setLine ..

/-- A line record after a fill (R103). -/
theorem line_fillLine (pa k : Nat) (d : CacheName) (u : Nat) : (s.fillLine core c t pa).line k d u =
    if k = core ∧ core ≤ s.others.length ∧ d = c ∧ u = t then s.filledLine c pa else s.line k d u := by
  rw [State.fillLine, busOp_line, line_setLine]

end

/-! ### Sequencing -/

/-- What a sequence of two parts that completes did. -/
theorem andThen_eq_next {o : Result} {f : State → Result} {t : State} (h : andThen o f = .next t) :
    ∃ s, o = .next s ∧ f s = .next t := by
  cases o with
  | next s => exact ⟨s, rfl, h⟩
  | fault r => simp [andThen] at h
  | refused r => simp [andThen] at h

@[simp] theorem andThen_next (s : State) (f : State → Result) : andThen (.next s) f = f s := rfl
@[simp] theorem andThen_fault (r : Fault) (f : State → Result) : andThen (.fault r) f = .fault r := rfl
@[simp] theorem andThen_refused (r : Refusal) (f : State → Result) : andThen (.refused r) f = .refused r := rfl

end Machine

end Sys2Proof
end

