-- ==== Sys2Proof/Laws/Effects.lean ====
section
/-! SUPPORT. Everything an instruction can do to the state, said once: an instruction that answers a next state got there by a
sequence of the small effects below (`exec_effects`). An invariant of the machine is proved of each small effect, and then holds of
every instruction (`Effects.invariant`). -/

namespace Sys2Proof.Machine

/-! ### Lookup -/

/-- R101: what the hit slot is. -/
theorem hitSlot_some {s : State} {core : Nat} {c : CacheName} {pa t : Nat} (h : s.hitSlot core c pa = some t) :
    t < s.cfg.slots c ∧ (s.line core c t).holdsLine (s.cfg.lineAddr c pa) = true := by
  unfold State.hitSlot at h
  exact ⟨List.mem_range.1 (List.mem_of_find?_eq_some h), by simpa using List.find?_some h⟩

/-- R101: a miss. -/
theorem hitSlot_none {s : State} {core : Nat} {c : CacheName} {pa : Nat} (h : s.hitSlot core c pa = none) :
    ∀ t, t < s.cfg.slots c → (s.line core c t).holdsLine (s.cfg.lineAddr c pa) = false := by
  unfold State.hitSlot at h
  rw [List.find?_eq_none] at h
  exact fun t ht => by simpa using h t (List.mem_range.2 ht)

/-- R104: the slot a free value picks is one of the candidates. -/
theorem pickFrom_mem {l : List Nat} (h : l.isEmpty = false) (choice : Nat) : pickFrom l choice ∈ l := by
  have hl : 0 < l.length := by cases l <;> simp_all
  have hc := Nat.mod_lt choice hl
  unfold pickFrom
  rw [List.getD_eq_getElem?_getD, List.getElem?_eq_getElem hc]
  exact List.getElem_mem hc

/-- R104: a candidate is an unlocked slot of the set. -/
theorem mem_victims {s : State} {c : CacheName} {pa t : Nat} {va : Word} :
    t ∈ s.victims c pa va ↔ t ∈ s.cfg.setOf c pa va ∧ (s.line 0 c t).locked = false := by
  simp [State.victims]

theorem setOf_lt {cfg : Config} {c : CacheName} {pa t : Nat} {va : Word} (h : t ∈ cfg.setOf c pa va) : t < cfg.slots c :=
  (mem_slotsOfSet.1 h).1

/-! ### Records that are put in a slot (R122) -/

/-- Everything putting a record in a slot can do: nothing, or a write of the record as the cache can hold it, valid only where no other slot
holds its line (R25). -/
theorem writeSlot_cases (s : State) (c : CacheName) (t : Nat) (l : Line) : s.writeSlot c t l = s ∨
    (t < s.cfg.slots c ∧ ∃ k : Line, s.writeSlot c t l = s.setLine 0 c t k ∧
      k.dirty = (s.cfg.canBeDirty c && l.dirty) ∧ k.addr = s.cfg.lineAddr c (s.cfg.phys l.addr) ∧
      k.data = fitBytes (s.cfg.lineSize c) l.data ∧ (k.valid = true → s.heldElsewhere c t k.addr = false)) := by
  unfold State.writeSlot
  split
  · rename_i ht
    exact .inr ⟨ht, _, rfl, rfl, rfl, rfl, fun hv => by simp_all [Line.fitted]⟩
  · exact .inl rfl

section
variable (s : State) (c : CacheName) (t : Nat) (l : Line)

@[simp] theorem writeSlot_cfg : (s.writeSlot c t l).cfg = s.cfg := by unfold State.writeSlot; split <;> simp
@[simp] theorem writeSlot_x : (s.writeSlot c t l).x = s.x := by unfold State.writeSlot; split <;> simp
@[simp] theorem writeSlot_pc : (s.writeSlot c t l).pc = s.pc := by unfold State.writeSlot; split <;> simp
@[simp] theorem writeSlot_cp0Enabled : (s.writeSlot c t l).cp0Enabled = s.cp0Enabled := by
  unfold State.writeSlot; split <;> simp
@[simp] theorem writeSlot_tagLo : (s.writeSlot c t l).tagLo = s.tagLo := by unfold State.writeSlot; split <;> simp
@[simp] theorem writeSlot_tagHi : (s.writeSlot c t l).tagHi = s.tagHi := by unfold State.writeSlot; split <;> simp
@[simp] theorem writeSlot_dataLo : (s.writeSlot c t l).dataLo = s.dataLo := by unfold State.writeSlot; split <;> simp
@[simp] theorem writeSlot_dataHi : (s.writeSlot c t l).dataHi = s.dataHi := by unfold State.writeSlot; split <;> simp
@[simp] theorem writeSlot_others_length : (s.writeSlot c t l).others.length = s.others.length := by
  unfold State.writeSlot; split <;> simp
@[simp] theorem writeSlot_wbPending : (s.writeSlot c t l).wbPending = s.wbPending := by
  unfold State.writeSlot; split <;> simp
@[simp] theorem writeSlot_mem : (s.writeSlot c t l).mem = s.mem := by unfold State.writeSlot; split <;> simp
@[simp] theorem writeSlot_hwErrors : (s.writeSlot c t l).hwErrors = s.hwErrors := by
  unfold State.writeSlot; split <;> simp
@[simp] theorem writeSlot_turns : (s.writeSlot c t l).turns = s.turns := by unfold State.writeSlot; split <;> simp

/-- R62: a record that is put in a slot of this core's cache c changes no line of another cache or core. -/
theorem line_writeSlot_other {core u : Nat} {d : CacheName} (h : (core, d) ≠ (0, c)) :
    (s.writeSlot c t l).line core d u = s.line core d u := by
  rcases writeSlot_cases s c t l with he | ⟨_, k, he, _⟩
  · rw [he]
  · rw [he, line_setLine, if_neg]
    rintro ⟨rfl, _, rfl, _⟩
    exact h rfl

end

/-- A list of bytes that is fitted to a length has it (R44). -/
@[simp] theorem length_fitBytes (n : Nat) (bs : List Byte) : (fitBytes n bs).length = n := by simp [fitBytes]

/-- A line of bytes is fitted already. -/
theorem fitBytes_of_length {n : Nat} {bs : List Byte} (h : bs.length = n) : fitBytes n bs = bs := by simp [fitBytes, ← h]

/-! ### The small effects -/

/-- What a cache operation does in one place (R102 to R107), from one state to the next. -/
inductive Effect : State → State → Prop where
  /-- A record is sent to the pending write-backs (R102). -/
  | writeBack (s : State) (core : Nat) (c : CacheName) (t : Nat) : t < s.cfg.slots c → Effect s (s.writeBackLine core c t)
  /-- A slot becomes invalid (R105). -/
  | invalidate (s : State) (core : Nat) (c : CacheName) (t : Nat) : t < s.cfg.slots c →
      Effect s (s.invalidateSlot core c t)
  /-- A line becomes clean (R135). -/
  | clean (s : State) (core : Nat) (c : CacheName) (t : Nat) : t < s.cfg.slots c →
      Effect s (s.setLine core c t (s.line core c t).cleaned)
  /-- A slot is filled with a line no slot of its cache holds (R130, R138, R27). -/
  | fill (s : State) (core : Nat) (c : CacheName) (t pa : Nat) : t < s.cfg.slots c → pa < 2 ^ s.cfg.palen →
      s.hitSlot core c pa = none → Effect s (s.fillLine core c t pa)
  /-- A line that is present is read again (R130). -/
  | refill (s : State) (c : CacheName) (t pa : Nat) (lock : Bool) : pa < 2 ^ s.cfg.palen → s.hitSlot 0 c pa = some t →
      Effect s (s.setLine 0 c t { s.filledLine c pa with locked := lock })
  /-- A line is locked (R138). -/
  | lock (s : State) (c : CacheName) (t : Nat) : t < s.cfg.slots c → Effect s (s.setLine 0 c t (s.line 0 c t).lockSet)
  /-- A tag is stored (R107). -/
  | retag (s : State) (c : CacheName) (t : Nat) (lo hi : Word) : t < s.cfg.slots c →
      ((decodeTag s.cfg c lo hi).valid = true → s.heldElsewhere c t (decodeTag s.cfg c lo hi).addr = false) →
      Effect s (s.setLine 0 c t ((s.line 0 c t).retagged (decodeTag s.cfg c lo hi)))
  /-- A tag is loaded (R106). -/
  | loadTag (s : State) (c : CacheName) (lo hi : Word) : Effect s (s.setTag c lo hi)
  /-- The data registers are loaded (R106). -/
  | loadData (s : State) (lo hi : Word) : Effect s (s.setData lo hi)
  /-- A record is put in a slot (R122). -/
  | put (s : State) (c : CacheName) (t : Nat) (l : Line) : Effect s (s.writeSlot c t l)
  /-- A write-back of a line is started (R122). -/
  | send (s : State) (c : CacheName) (p : Pending) : Effect s (s.send (p.fitted s.cfg c))
  /-- Lines are read from memory (R103, R130, R122). -/
  | bus (s : State) (n : Nat) : Effect s (s.busOp n)
  /-- A free value is used up. -/
  | draw (s : State) : Effect s s.drawn

/-- A sequence of small effects. -/
inductive Effects : State → State → Prop where
  | refl (s : State) : Effects s s
  | step {s t u : State} : Effect s t → Effects t u → Effects s u

theorem Effects.one {s t : State} (h : Effect s t) : Effects s t := .step h (.refl t)

theorem Effects.trans {s t u : State} (h : Effects s t) (k : Effects t u) : Effects s u := by
  induction h with
  | refl => exact k
  | step e _ ih => exact .step e (ih k)

/-- What every small effect keeps, a sequence keeps. -/
theorem Effects.invariant {P : State → Prop} (hP : ∀ s t, Effect s t → P s → P t) {s t : State} (h : Effects s t) :
    P s → P t := by
  induction h with
  | refl => exact id
  | step e _ ih => exact fun hs => ih (hP _ _ e hs)

/-- A part of the state that no small effect writes is as it was after a sequence. -/
theorem Effects.keeps {α : Type} {f : State → α} (hf : ∀ s t, Effect s t → f t = f s) {s t : State} (h : Effects s t) :
    f t = f s := by
  induction h with
  | refl => rfl
  | step e _ ih => exact ih.trans (hf _ _ e)

section
variable {s t : State} (h : Effect s t)
include h

theorem Effect.cfg : t.cfg = s.cfg := by cases h <;> simp
theorem Effect.x : t.x = s.x := by cases h <;> simp
theorem Effect.pc : t.pc = s.pc := by cases h <;> simp
theorem Effect.cp0Enabled : t.cp0Enabled = s.cp0Enabled := by cases h <;> simp
theorem Effect.mem : t.mem = s.mem := by cases h <;> simp
theorem Effect.turns : t.turns = s.turns := by cases h <;> simp
theorem Effect.hwErrors : t.hwErrors = s.hwErrors := by cases h <;> simp
theorem Effect.others_length : t.others.length = s.others.length := by cases h <;> simp

end

theorem Effects.cfg {s t : State} (h : Effects s t) : t.cfg = s.cfg := h.keeps fun _ _ => Effect.cfg
theorem Effects.x {s t : State} (h : Effects s t) : t.x = s.x := h.keeps fun _ _ => Effect.x
theorem Effects.pc {s t : State} (h : Effects s t) : t.pc = s.pc := h.keeps fun _ _ => Effect.pc
theorem Effects.cp0Enabled {s t : State} (h : Effects s t) : t.cp0Enabled = s.cp0Enabled :=
  h.keeps fun _ _ => Effect.cp0Enabled
theorem Effects.mem {s t : State} (h : Effects s t) : t.mem = s.mem := h.keeps fun _ _ => Effect.mem
theorem Effects.turns {s t : State} (h : Effects s t) : t.turns = s.turns := h.keeps fun _ _ => Effect.turns
theorem Effects.hwErrors {s t : State} (h : Effects s t) : t.hwErrors = s.hwErrors := h.keeps fun _ _ => Effect.hwErrors
theorem Effects.others_length {s t : State} (h : Effects s t) : t.others.length = s.others.length :=
  h.keeps fun _ _ => Effect.others_length

/-! ### The operations are sequences of small effects -/

theorem ownLineCheck_next {core : Nat} {c : CacheName} {k : Nat} {s t : State} {rest : State → Result}
    (h : ownLineCheck core c k s rest = .next t) : s.isOwnLine c (s.line core c k) = false ∧ rest s = .next t := by
  unfold ownLineCheck at h
  split at h
  · cases h
  · exact ⟨by simp_all, h⟩

theorem lockAllWaysCheck_next {c : CacheName} {k : Nat} {s t : State} {rest : State → Result}
    (h : lockAllWaysCheck c k s rest = .next t) : s.othersLocked c k = false ∧ rest s = .next t := by
  unfold lockAllWaysCheck at h
  split at h
  · cases h
  · exact ⟨by simp_all, h⟩

theorem chooseVictim_next {c : CacheName} {pa : Nat} {va : Word} {choice : Nat} {s t : State}
    {rest : Nat → State → Result} (h : chooseVictim c pa va choice s rest = .next t) :
    ∃ v, v ∈ s.cfg.setOf c pa va ∧ (s.line 0 c v).locked = false ∧ rest v s = .next t := by
  unfold chooseVictim at h
  split at h
  · cases h
  · rename_i hne
    have hm := mem_victims.1 (pickFrom_mem (by simpa using hne) choice)
    exact ⟨_, hm.1, hm.2, h⟩

theorem next_inj {s t : State} (h : (Host.Outcome.next s : Result) = .next t) : s = t := by injection h

theorem eachCore_effects {act : Nat → State → Result}
    (hact : ∀ k s t, act k s = .next t → Effects s t) :
    ∀ (ks : List Nat) (s t : State), eachCore act ks s = .next t → Effects s t := by
  intro ks
  induction ks with
  | nil => intro s t h; exact next_inj h ▸ .refl s
  | cons k ks ih =>
    intro s t h
    obtain ⟨u, hu, h⟩ := andThen_eq_next h
    exact (hact _ _ _ hu).trans (ih _ _ h)

theorem indexInvalidate_effects {c : CacheName} {va : Word} {s t : State} (hp : s.cfg.present c = true)
    (h : indexInvalidate c va s = .next t) : Effects s t :=
  next_inj (ownLineCheck_next h).2 ▸ .one (.invalidate _ _ _ _ (indexSlot_lt hp va))

theorem indexWriteBackInvalidate_effects {c : CacheName} {va : Word} {s t : State} (hp : s.cfg.present c = true)
    (h : indexWriteBackInvalidate c va s = .next t) : Effects s t :=
  next_inj (ownLineCheck_next h).2 ▸ .step (.writeBack _ _ _ _ (indexSlot_lt hp va))
    (.one (.invalidate _ _ _ _ (by simpa using indexSlot_lt hp va)))

theorem indexLoadTag_effects {c : CacheName} {va : Word} {s t : State} (h : indexLoadTag c va s = .next t) : Effects s t :=
  next_inj h ▸ .step (.loadTag ..) (.step (.loadData ..) (.step (.draw _) (.one (.draw _))))

theorem indexStoreTag_effects {c : CacheName} {va : Word} {s t : State} (hp : s.cfg.present c = true)
    (h : indexStoreTag c va s = .next t) : Effects s t := by
  unfold indexStoreTag storeTag at h
  split at h
  · cases h
  · rename_i hd
    split at h
    · cases h
    · exact next_inj h ▸ .one (.retag _ _ _ _ _ (indexSlot_lt hp va) fun hv => by simpa [hv] using hd)

theorem hitInvalidateOn_effects {c : CacheName} {pa core : Nat} {s t : State} (h : hitInvalidateOn c pa core s = .next t) :
    Effects s t := by
  unfold hitInvalidateOn at h
  split at h
  · exact next_inj h ▸ .refl s
  · rename_i k hk
    exact next_inj (ownLineCheck_next h).2 ▸ .one (.invalidate _ _ _ _ (hitSlot_some hk).1)

theorem hitWriteBackInvalidateOn_effects {c : CacheName} {pa core : Nat} {s t : State}
    (h : hitWriteBackInvalidateOn c pa core s = .next t) : Effects s t := by
  unfold hitWriteBackInvalidateOn at h
  split at h
  · exact next_inj h ▸ .refl s
  · rename_i k hk
    exact next_inj (ownLineCheck_next h).2 ▸ .step (.writeBack _ _ _ _ (hitSlot_some hk).1)
      (.one (.invalidate _ _ _ _ (by simpa using (hitSlot_some hk).1)))

theorem hitWriteBackOn_effects {c : CacheName} {pa core : Nat} {s t : State} (h : hitWriteBackOn c pa core s = .next t) :
    Effects s t := by
  unfold hitWriteBackOn at h
  split at h
  · exact next_inj h ▸ .refl s
  · rename_i k hk
    split at h
    · have e := Effect.clean (s.writeBackLine core c k) core c k (by simpa using (hitSlot_some hk).1)
      rw [writeBackLine_line] at e
      exact next_inj h ▸ .step (.writeBack _ _ _ _ (hitSlot_some hk).1) (.one e)
    · exact next_inj h ▸ .refl s

theorem fill_effects {c : CacheName} {va : Word} {pa : Nat} {s t : State} (hpa : pa < 2 ^ s.cfg.palen)
    (h : fill c va pa s = .next t) : Effects s t := by
  unfold fill at h
  split at h
  · rename_i k hk
    have e : Effects s (refill c pa k (Config.freeFillKeeps s.draws) s) := by
      unfold refill
      split
      · exact .refl s
      · exact .step (.refill _ _ _ _ _ hpa hk) (.one (.bus _ 1))
    exact next_inj h ▸ e.trans (.one (.draw _))
  · rename_i hk
    obtain ⟨v, hv, _, h⟩ := chooseVictim_next h
    exact next_inj h ▸ .step (.fill _ _ _ _ _ (setOf_lt hv) hpa hk) (.one (.draw _))

/-- A write-back changes no lookup. -/
theorem hitSlot_writeBackLine (s : State) (core k : Nat) (c d : CacheName) (t pa : Nat) :
    (s.writeBackLine core c t).hitSlot k d pa = s.hitSlot k d pa := by simp [State.hitSlot]

theorem fetchAndLockLine_effects {c : CacheName} {va : Word} {pa choice : Nat} {s t : State} (hpa : pa < 2 ^ s.cfg.palen)
    (h : fetchAndLockLine c va pa choice s = .next t) : Effects s t := by
  unfold fetchAndLockLine at h
  split at h
  · rename_i k hk
    exact next_inj (lockAllWaysCheck_next h).2 ▸ .one (.lock _ _ _ (hitSlot_some hk).1)
  · rename_i hk
    obtain ⟨v, hv, _, h⟩ := chooseVictim_next h
    have hlt := setOf_lt hv
    refine next_inj (lockAllWaysCheck_next h).2 ▸ ?_
    exact .step (.writeBack s 0 c v hlt) (.step
      (.fill (s.writeBackLine 0 c v) 0 c v pa (by simpa using hlt) (by simpa using hpa) (by rw [hitSlot_writeBackLine, hk]))
      (.one (.lock _ c v (by simpa using hlt))))

theorem fetchAndLockLines_effects {c : CacheName} : ∀ (qs : List (Word × Nat)) (s t : State),
    (∀ q ∈ qs, q.2 < 2 ^ s.cfg.palen) → fetchAndLockLines c qs s = .next t → Effects s t := by
  intro qs
  induction qs with
  | nil => intro s t _ h; exact next_inj h ▸ .refl s
  | cons q qs ih =>
    intro s t hq h
    obtain ⟨u, hu, h⟩ := andThen_eq_next h
    have e := fetchAndLockLine_effects (hq q (List.mem_cons_self ..)) hu
    refine e.trans (.step (.draw _) (ih _ _ (fun r hr => ?_) h))
    rw [drawn_cfg, e.cfg]
    exact hq r (List.mem_cons_of_mem _ hr)

/-- R110 to R141: a described operation on a present cache is a sequence of small effects. -/
theorem standardOp_effects {op : BitVec 5} {va : Word} {pa cca : Nat} {s t : State}
    (hp : s.cfg.present (opCache op) = true) (hpa : pa < 2 ^ s.cfg.palen) (h : standardOp op va pa cca s = .next t) :
    Effects s t := by
  have name : ∀ k, op.toNat = k → op = BitVec.ofNat 5 k := fun k hk => by simp [← hk]
  unfold standardOp at h
  split at h
  all_goals first
    | (cases h; done)
    | exact indexLoadTag_effects h
    | exact eachCore_effects (fun _ _ _ => hitInvalidateOn_effects) _ _ _ h
    | exact eachCore_effects (fun _ _ _ => hitWriteBackInvalidateOn_effects) _ _ _ h
    | exact eachCore_effects (fun _ _ _ => hitWriteBackOn_effects) _ _ _ h
    | exact fill_effects hpa h
    | exact fetchAndLockLines_effects _ _ _ (lockTargets_lt hpa) h
    | (rename_i ho; rw [name _ ho] at hp; exact indexInvalidate_effects hp h)
    | (rename_i ho; rw [name _ ho] at hp; exact indexWriteBackInvalidate_effects hp h)
    | (rename_i ho; rw [name _ ho] at hp; exact indexStoreTag_effects hp h)

theorem standardOps_effects {c : CacheName} {va : Word} {pa cca : Nat} : ∀ (ks : List (BitVec 3)) (s t : State),
    s.cfg.present c = true → pa < 2 ^ s.cfg.palen → standardOps c ks va pa cca s = .next t → Effects s t := by
  intro ks
  induction ks with
  | nil => intro s t _ _ h; exact next_inj h ▸ .refl s
  | cons k ks ih =>
    intro s t hp hpa h
    obtain ⟨u, hu, h⟩ := andThen_eq_next h
    have e := standardOp_effects (by rw [opCache_opOf]; exact hp) hpa hu
    exact e.trans (ih _ _ (by rw [e.cfg]; exact hp) (by rw [e.cfg]; exact hpa) h)

theorem writeSlots_effects (c : CacheName) : ∀ (ws : List (Nat × Line)) (s : State), Effects s (s.writeSlots c ws)
  | [], s => .refl s
  | w :: ws, s => .step (.put s c w.1 w.2) (writeSlots_effects c ws _)

theorem sendAll_effects (c : CacheName) : ∀ (ps : List Pending) (s : State), Effects s (s.sendAll c ps)
  | [], s => .refl s
  | p :: ps, s => .step (.send s c p) (sendAll_effects c ps _)

theorem answered_effects (s : State) (c : CacheName) (a : ImplDepAnswer) : Effects s (s.answered c a) :=
  (writeSlots_effects c a.lines s).trans ((sendAll_effects c a.sent _).trans
    (.step (.bus _ a.fills) (.step (.loadTag ..) (.step (.loadData ..) (.one (.draw _))))))

/-- R122 to R125. -/
theorem implDep_effects {op : BitVec 5} {va : Word} {pa cca : Nat} {s t : State}
    (hp : s.cfg.present (opCache op) = true) (hpa : pa < 2 ^ s.cfg.palen) (h : implDep op va pa cca s = .next t) :
    Effects s t := by
  unfold implDep at h
  split at h
  · exact standardOps_effects _ _ _ hp hpa h
  · exact next_inj h ▸ answered_effects ..
  · cases h

/-- R100: an operation is a sequence of small effects. -/
theorem operation_effects {op : BitVec 5} {va : Word} {pa cca : Nat} {s t : State}
    (hp : s.cfg.present (opCache op) = true) (hpa : pa < 2 ^ s.cfg.palen) (h : operation op va pa cca s = .next t) :
    Effects s t := by
  have name : ∀ k, op.toNat = k → op = BitVec.ofNat 5 k := fun k hk => by simp [← hk]
  unfold operation at h
  split at h
  all_goals first
    | exact standardOp_effects hp hpa h
    | (rename_i ho; rw [name _ ho] at hp; exact implDep_effects hp hpa h)

/-- R109: an error that cannot be raised even with a bus operation cannot be raised without one. -/
theorem hwError_of_none {s : State} {op : BitVec 5} (h : s.hwError op true = .none) (bus : Bool) : s.hwError op bus = .none := by
  unfold State.hwError at h ⊢
  split
  · rfl
  · rfl
  · simp_all
  · cases bus <;> simp_all

/-- R109: the end of an execution that reports no error. -/
theorem reportError_of_none {op : BitVec 5} {s u : State} (h : s.hwError op true = .none) :
    reportError op s u = .next u.errorTaken := by simp [reportError, hwError_of_none h]

theorem reportError_next {op : BitVec 5} {s u t : State} (h : reportError op s u = .next t) : t = u.errorTaken := by
  unfold reportError at h
  split at h
  · exact (next_inj h).symm
  · cases h
  · cases h

/-- R80, R109: what a cache operation that completes did. -/
theorem cacheOp_next {op : BitVec 5} {va : Word} {pa cca : Nat} {s t : State} (h : cacheOp op va pa cca s = .next t) :
    s.cfg.opImplemented op = true ∧ ∃ u, operation op va pa cca s = .next u ∧ t = u.errorTaken := by
  unfold cacheOp at h
  split at h
  · rename_i ho
    obtain ⟨u, hu, h⟩ := andThen_eq_next h
    exact ⟨ho, u, hu, reportError_next h⟩
  · cases h

theorem cacheOp_effects {op : BitVec 5} {va : Word} {pa cca : Nat} {s t : State} (hpa : pa < 2 ^ s.cfg.palen)
    (h : cacheOp op va pa cca s = .next t) : ∃ u, Effects s u ∧ t = u.errorTaken := by
  obtain ⟨ho, u, hu, rfl⟩ := cacheOp_next h
  exact ⟨u, operation_effects (opImplemented_present ho).2 hpa hu, rfl⟩

/-! ### The instructions -/

/-- R70: what an instruction that completes did: every test passed, the address translated, and either the address is uncached and
only `pc` moves, or the operation ran and then `pc` moved. -/
theorem cacheInstr_next {isEva : Bool} {op rs : BitVec 5} {offset : Int} {s t : State}
    (h : cacheInstr isEva op rs offset s = .next t) :
    ∃ pa cca, s.cfg.translate (s.effectiveAddress rs offset) isEva = .ok pa cca ∧
      ((uncached cca = true ∧ 2 ≤ s.cfg.configAT ∧ t = s.advance) ∨
       (uncached cca = false ∧ ∃ u, cacheOp op (s.effectiveAddress rs offset) pa cca s = .next u ∧ t = u.advance)) := by
  unfold cacheInstr cacheAt at h
  simp only [raiseException] at h
  repeat' split at h
  all_goals first
    | contradiction
    | (rename_i pa cca htr
       refine ⟨pa, cca, htr, ?_⟩
       unfold operateAndAdvance at h
       split at h
       · rename_i hu
         split at h
         · rename_i hat
           exact .inl ⟨hu, hat, (next_inj h).symm⟩
         · cases h
       · rename_i hu
         obtain ⟨u, hc, h⟩ := andThen_eq_next h
         exact .inr ⟨by simpa using hu, u, hc, (next_inj h).symm⟩)

/-- Everything an instruction that completes can do: a sequence of small effects, then the hardware error of an entered operation is
used up (R109) and `pc` moves by four (R81). -/
theorem cacheInstr_effects {isEva : Bool} {op rs : BitVec 5} {offset : Int} {s t : State}
    (h : cacheInstr isEva op rs offset s = .next t) :
    ∃ u, Effects s u ∧ (t = u.advance ∨ t = u.errorTaken.advance) := by
  obtain ⟨pa, cca, htr, ⟨_, _, rfl⟩ | ⟨_, u, hc, rfl⟩⟩ := cacheInstr_next h
  · exact ⟨s, .refl s, .inl rfl⟩
  · obtain ⟨v, hv, rfl⟩ := cacheOp_effects (translate_lt htr) hc
    exact ⟨v, hv, .inr rfl⟩

/-- Everything an instruction that completes can do. -/
theorem exec_effects {i : Instr} {s t : State} (h : exec i s = .next t) :
    ∃ u, Effects s u ∧ (t = u.advance ∨ t = u.errorTaken.advance) := by
  cases i with
  | cache op rs offset => exact cacheInstr_effects h
  | cachee op rs offset => exact cacheInstr_effects h

/-! ### The step -/

/-- Everything a core's move that completes did: it fetched a word, and the instruction of it completed. -/
theorem coreStep_next {s t : State} (h : coreStep s = .next t) : ∃ i, exec i s = .next t := by
  unfold coreStep at h
  repeat' split at h
  all_goals first
    | contradiction
    | exact ⟨_, h⟩

/-- Everything a step that answers a next state did: the environment move that was due, or an instruction. -/
theorem step_next {s t : State} (h : step s = .next t) :
    (∃ e ts, s.turns = .env e :: ts ∧ t = environmentStep e s.turnTaken) ∨
      ∃ i r, (r = s ∨ r = s.turnTaken) ∧ exec i r = .next t := by
  unfold step at h
  split at h
  · rename_i e ts hts
    exact .inl ⟨e, ts, hts, (next_inj h).symm⟩
  · obtain ⟨i, hi⟩ := coreStep_next h
    exact .inr ⟨i, _, .inr rfl, hi⟩
  · obtain ⟨i, hi⟩ := coreStep_next h
    exact .inr ⟨i, _, .inl rfl, hi⟩

end Sys2Proof.Machine
end

