-- ==== Sys2Proof/Laws/Memory.lean ====
section
/-! SUPPORT. The laws of memory: a read after a write, and that every memory operation keeps the canonical form. -/

namespace Sys2Proof.Machine

theorem memoryWf_iff {m : List Host.Cell} :
    memoryWf m = true ↔ m.Pairwise (fun p q => p.1 < q.1) ∧ ∀ p ∈ m, p.2 ≠ unlistedByte := by
  simp [memoryWf]

theorem memoryWf_tail {p : Host.Cell} {m : List Host.Cell} (h : memoryWf (p :: m) = true) : memoryWf m = true := by
  rw [memoryWf_iff] at h ⊢
  exact ⟨(List.pairwise_cons.1 h.1).2, fun q hq => h.2 q (List.mem_cons_of_mem _ hq)⟩

/-- An address below every listed one is not listed. -/
theorem readByte_of_lt {m : List Host.Cell} {a : Nat} (h : ∀ p ∈ m, a < p.1) : readByte m a = unlistedByte := by
  induction m with
  | nil => rfl
  | cons p m ih =>
    have hp := h p (List.mem_cons_self ..)
    simp [readByte, Nat.ne_of_lt hp, ih fun q hq => h q (List.mem_cons_of_mem _ hq)]

theorem mem_consCell {a : Nat} {v : Byte} {m : List Host.Cell} {p : Host.Cell} (h : p ∈ consCell a v m) :
    p = (a, v) ∨ p ∈ m := by
  unfold consCell at h
  split at h
  · exact .inr h
  · simpa using h

/-- What a write lists: the written cell and cells that were there. -/
theorem mem_writeByte {m : List Host.Cell} {a : Nat} {v : Byte} {p : Host.Cell} (h : p ∈ writeByte m a v) :
    p = (a, v) ∨ p ∈ m := by
  induction m with
  | nil => exact mem_consCell h
  | cons q m ih =>
    obtain ⟨b, w⟩ := q
    simp only [writeByte] at h
    split at h
    · exact mem_consCell h
    · split at h
      · exact (mem_consCell h).imp_right (List.mem_cons_of_mem _)
      · rcases List.mem_cons.1 h with rfl | h
        · exact .inr (List.mem_cons_self ..)
        · exact (ih h).imp_right (List.mem_cons_of_mem _)

theorem memoryWf_consCell {a : Nat} {v : Byte} {m : List Host.Cell} (hm : memoryWf m = true) (h : ∀ p ∈ m, a < p.1) :
    memoryWf (consCell a v m) = true := by
  unfold consCell
  split
  · exact hm
  · rename_i hv
    rw [memoryWf_iff] at hm ⊢
    refine ⟨List.pairwise_cons.2 ⟨h, hm.1⟩, fun p hp => ?_⟩
    rcases List.mem_cons.1 hp with rfl | hp
    · exact hv
    · exact hm.2 p hp

/-- A write keeps the canonical form. -/
theorem memoryWf_writeByte {m : List Host.Cell} (a : Nat) (v : Byte) (hm : memoryWf m = true) :
    memoryWf (writeByte m a v) = true := by
  induction m with
  | nil => exact memoryWf_consCell rfl (by simp)
  | cons q m ih =>
    obtain ⟨b, w⟩ := q
    have hq := memoryWf_iff.1 hm
    have hlow := (List.pairwise_cons.1 hq.1).1
    simp only [writeByte]
    split
    · rename_i hab
      refine memoryWf_consCell hm fun p hp => ?_
      rcases List.mem_cons.1 hp with rfl | hp
      · exact hab
      · exact Nat.lt_trans hab (hlow p hp)
    · split
      · rename_i _ hab
        exact memoryWf_consCell (memoryWf_tail hm) fun p hp => hab ▸ hlow p hp
      · rename_i h1 h2
        have := memoryWf_iff.1 (ih (memoryWf_tail hm))
        rw [memoryWf_iff]
        refine ⟨List.pairwise_cons.2 ⟨fun p hp => ?_, this.1⟩, fun p hp => ?_⟩
        · rcases mem_writeByte hp with rfl | hp
          · show b < a; omega
          · exact hlow p hp
        · rcases List.mem_cons.1 hp with rfl | hp
          · exact hq.2 _ (List.mem_cons_self ..)
          · exact this.2 p hp

theorem readByte_consCell_self {a : Nat} {v : Byte} {m : List Host.Cell} (h : ∀ p ∈ m, a < p.1) :
    readByte (consCell a v m) a = v := by
  unfold consCell
  split
  · rename_i hv; rw [readByte_of_lt h, hv]
  · simp [readByte]

theorem readByte_consCell_ne {a b : Nat} {v : Byte} {m : List Host.Cell} (h : b ≠ a) :
    readByte (consCell a v m) b = readByte m b := by
  unfold consCell
  split
  · rfl
  · simp [readByte, h]

/-- A read after a write to the same address gives the byte written. -/
theorem readByte_writeByte_self {m : List Host.Cell} (a : Nat) (v : Byte) (hm : memoryWf m = true) :
    readByte (writeByte m a v) a = v := by
  induction m with
  | nil => exact readByte_consCell_self (by simp)
  | cons q m ih =>
    obtain ⟨b, w⟩ := q
    have hlow := (List.pairwise_cons.1 (memoryWf_iff.1 hm).1).1
    simp only [writeByte]
    split
    · rename_i hab
      refine readByte_consCell_self fun p hp => ?_
      rcases List.mem_cons.1 hp with rfl | hp
      · exact hab
      · exact Nat.lt_trans hab (hlow p hp)
    · split
      · rename_i _ hab
        exact readByte_consCell_self fun p hp => hab ▸ hlow p hp
      · rename_i _ h2
        simp [readByte, h2, ih (memoryWf_tail hm)]

/-- A write leaves every other address as it was. -/
theorem readByte_writeByte_ne {m : List Host.Cell} {a b : Nat} (v : Byte) (h : b ≠ a) :
    readByte (writeByte m a v) b = readByte m b := by
  induction m with
  | nil => exact readByte_consCell_ne h
  | cons q m ih =>
    obtain ⟨k, w⟩ := q
    simp only [writeByte]
    split
    · exact readByte_consCell_ne h
    · split
      · rename_i _ hk
        rw [readByte_consCell_ne h]
        simp [readByte, hk ▸ h]
      · simp [readByte, ih]

/-- Canonical memories that read alike are equal. -/
theorem memory_ext {m n : List Host.Cell} (hm : memoryWf m = true) (hn : memoryWf n = true)
    (h : ∀ a, readByte m a = readByte n a) : m = n := by
  induction m generalizing n with
  | nil =>
    cases n with
    | nil => rfl
    | cons q n =>
      have := h q.1
      simp only [readByte, if_true] at this
      exact absurd this.symm ((memoryWf_iff.1 hn).2 q (List.mem_cons_self ..))
  | cons p m ih =>
    cases n with
    | nil =>
      have := h p.1
      simp only [readByte, if_true] at this
      exact absurd this ((memoryWf_iff.1 hm).2 p (List.mem_cons_self ..))
    | cons q n =>
      obtain ⟨a, v⟩ := p
      obtain ⟨b, w⟩ := q
      have lowM := (List.pairwise_cons.1 (memoryWf_iff.1 hm).1).1
      have lowN := (List.pairwise_cons.1 (memoryWf_iff.1 hn).1).1
      have nzV : v ≠ unlistedByte := (memoryWf_iff.1 hm).2 _ (List.mem_cons_self ..)
      have nzW : w ≠ unlistedByte := (memoryWf_iff.1 hn).2 _ (List.mem_cons_self ..)
      have hab : a = b := by
        rcases Nat.lt_trichotomy a b with hlt | heq | hgt
        · have := h a
          rw [readByte_of_lt (m := (b, w) :: n)] at this
          · simp [readByte] at this; exact absurd this nzV
          · intro p hp
            rcases List.mem_cons.1 hp with rfl | hp
            · exact hlt
            · exact Nat.lt_trans hlt (lowN p hp)
        · exact heq
        · have := h b
          rw [readByte_of_lt (m := (a, v) :: m)] at this
          · simp [readByte] at this; exact absurd this.symm nzW
          · intro p hp
            rcases List.mem_cons.1 hp with rfl | hp
            · exact hgt
            · exact Nat.lt_trans hgt (lowM p hp)
      subst hab
      have hvw : v = w := by simpa [readByte] using h a
      subst hvw
      refine congrArg _ (ih (memoryWf_tail hm) (memoryWf_tail hn) fun k => ?_)
      by_cases hk : k = a
      · subst hk
        rw [readByte_of_lt lowM, readByte_of_lt lowN]
      · simpa [readByte, hk] using h k

/-! ### Line transfers -/

/-- Storing bytes keeps the canonical form. -/
theorem memoryWf_writeBytes (cfg : Config) (vs : List Byte) : ∀ (m : List Host.Cell) (a : Nat), memoryWf m = true →
    memoryWf (writeBytes cfg m a vs) = true := by
  induction vs with
  | nil => exact fun _ _ h => h
  | cons v vs ih => exact fun m a h => ih _ _ (memoryWf_writeByte _ _ h)

/-- Storing pending write-backs keeps the canonical form. -/
theorem memoryWf_storeAll (cfg : Config) (ps : List Pending) : ∀ m : List Host.Cell, memoryWf m = true →
    memoryWf (storeAll cfg m ps) = true := by
  induction ps with
  | nil => exact fun _ h => h
  | cons p ps ih => exact fun m h => ih _ (memoryWf_writeBytes _ _ _ _ h)

/-- Storing bytes lists only physical addresses. -/
theorem writeBytes_lt (cfg : Config) (vs : List Byte) : ∀ (m : List Host.Cell) (a : Nat),
    (∀ cell ∈ m, cell.1 < 2 ^ cfg.palen) → ∀ cell ∈ writeBytes cfg m a vs, cell.1 < 2 ^ cfg.palen := by
  induction vs with
  | nil => exact fun _ _ h => h
  | cons v vs ih =>
    refine fun m a h => ih _ _ fun cell hc => ?_
    rcases mem_writeByte hc with rfl | hc
    · exact Nat.mod_lt _ (Nat.two_pow_pos _)
    · exact h _ hc

@[simp] theorem storeAll_nil (cfg : Config) (m : List Host.Cell) : storeAll cfg m [] = m := rfl
@[simp] theorem storeAll_cons (cfg : Config) (m : List Host.Cell) (p : Pending) (ps : List Pending) :
    storeAll cfg m (p :: ps) = storeAll cfg (storePending cfg m p) ps := rfl

theorem storeAll_append (cfg : Config) (m : List Host.Cell) (ps qs : List Pending) :
    storeAll cfg m (ps ++ qs) = storeAll cfg (storeAll cfg m ps) qs := List.foldl_append ..

@[simp] theorem length_readBytes (cfg : Config) (m : List Host.Cell) (n : Nat) :
    ∀ a, (readBytes cfg m a n).length = n := by
  induction n with
  | zero => exact fun _ => rfl
  | succ n ih => exact fun a => by simp [readBytes, ih]

/-- A byte outside the bytes stored is as it was. -/
theorem readByte_writeBytes_outside (cfg : Config) (vs : List Byte) : ∀ (m : List Host.Cell) (a b : Nat),
    a + vs.length ≤ 2 ^ cfg.palen → b < a ∨ a + vs.length ≤ b → readByte (writeBytes cfg m a vs) b = readByte m b := by
  induction vs with
  | nil => intros; rfl
  | cons v vs ih =>
    intro m a b h hb
    simp only [List.length_cons] at h hb
    simp only [writeBytes]
    rw [ih _ _ _ (by omega) (by omega), readByte_writeByte_ne]
    rw [Config.phys, Nat.mod_eq_of_lt (by omega)]
    omega

/-- The bytes stored are read back. -/
theorem readBytes_writeBytes (cfg : Config) (vs : List Byte) : ∀ (m : List Host.Cell) (a : Nat), memoryWf m = true →
    a + vs.length ≤ 2 ^ cfg.palen → readBytes cfg (writeBytes cfg m a vs) a vs.length = vs := by
  induction vs with
  | nil => intros; rfl
  | cons v vs ih =>
    intro m a hm h
    simp only [List.length_cons] at h
    have ha : cfg.phys a = a := Nat.mod_eq_of_lt (by omega)
    simp only [List.length_cons, readBytes, writeBytes]
    rw [ih _ _ (memoryWf_writeByte _ _ hm) (by omega), ha, readByte_writeBytes_outside _ _ _ _ _ (by omega) (by omega),
      readByte_writeByte_self _ _ hm]

/-- Stores of two bytes at different addresses commute. -/
theorem writeByte_comm {m : List Host.Cell} {a b : Nat} (v w : Byte) (hm : memoryWf m = true) (h : a ≠ b) :
    writeByte (writeByte m a v) b w = writeByte (writeByte m b w) a v := by
  refine memory_ext (memoryWf_writeByte _ _ (memoryWf_writeByte _ _ hm)) (memoryWf_writeByte _ _ (memoryWf_writeByte _ _ hm))
    fun k => ?_
  by_cases h1 : k = a
  · subst h1
    rw [readByte_writeByte_ne _ h, readByte_writeByte_self _ _ hm, readByte_writeByte_self _ _ (memoryWf_writeByte _ _ hm)]
  · by_cases h2 : k = b
    · subst h2
      rw [readByte_writeByte_ne (a := a) _ h1, readByte_writeByte_self _ _ hm,
        readByte_writeByte_self _ _ (memoryWf_writeByte _ _ hm)]
    · rw [readByte_writeByte_ne _ h2, readByte_writeByte_ne _ h1, readByte_writeByte_ne _ h1, readByte_writeByte_ne _ h2]

theorem writeBytes_writeByte_comm (cfg : Config) (vs : List Byte) : ∀ (m : List Host.Cell) (a b : Nat) (w : Byte),
    memoryWf m = true → a + vs.length ≤ 2 ^ cfg.palen → b < a ∨ a + vs.length ≤ b →
    writeBytes cfg (writeByte m b w) a vs = writeByte (writeBytes cfg m a vs) b w := by
  induction vs with
  | nil => intros; rfl
  | cons v vs ih =>
    intro m a b w hm h hb
    simp only [List.length_cons] at h hb
    have ha : cfg.phys a = a := Nat.mod_eq_of_lt (by omega)
    simp only [writeBytes]
    rw [ha, writeByte_comm _ _ hm (by omega), ih _ _ _ _ (memoryWf_writeByte _ _ hm) (by omega) (by omega)]

/-- Stores of bytes at places that do not overlap commute. -/
theorem writeBytes_comm (cfg : Config) (ws : List Byte) : ∀ (m : List Host.Cell) (a b : Nat) (vs : List Byte),
    memoryWf m = true → a + vs.length ≤ 2 ^ cfg.palen → b + ws.length ≤ 2 ^ cfg.palen →
    a + vs.length ≤ b ∨ b + ws.length ≤ a →
    writeBytes cfg (writeBytes cfg m a vs) b ws = writeBytes cfg (writeBytes cfg m b ws) a vs := by
  induction ws with
  | nil => intros; rfl
  | cons w ws ih =>
    intro m a b vs hm h1 h2 hd
    by_cases hv : vs = []
    · subst hv
      rfl
    · have hl : 0 < vs.length := List.length_pos_iff.2 hv
      simp only [List.length_cons] at h2 hd
      have hb : cfg.phys b = b := Nat.mod_eq_of_lt (by omega)
      simp only [writeBytes]
      rw [hb, ← writeBytes_writeByte_comm cfg vs _ _ _ _ hm h1 (by omega),
        ih _ _ _ _ (memoryWf_writeByte _ _ hm) h1 (by omega) (by omega)]

@[simp] theorem length_memView (s : State) (a n : Nat) : (s.memView a n).length = n := length_readBytes ..

end Sys2Proof.Machine
end

