-- ==== Sys2Proof/Laws/Environment.lean ====
section
/-! SUPPORT. Everything a move of the environment can do, said once (`environmentStep_cases`): small effects on the caches, one pending
write-back drained, or all of them. -/

namespace Sys2Proof.Machine

/-! ### What a step of the environment is -/

theorem step_env {s : State} {e : EnvStep} {ts : List Turn} (h : s.turns = .env e :: ts) :
    step s = .next (environmentStep e s.turnTaken) := by simp only [step, h]

theorem turnTaken_eq {s : State} {x : Turn} {ts : List Turn} (h : s.turns = x :: ts) : s.turnTaken = { s with turns := ts } := by
  simp [State.turnTaken, h]

theorem environmentStep_evict (core : Nat) (c : CacheName) (t : Nat) (s : State) :
    environmentStep (.evict core c t) s = if (s.line core c t).locked then s else s.displace core c t := rfl

theorem environmentStep_external (core : Nat) (c : CacheName) (t : Nat) (s : State) :
    environmentStep (.external core c t) s = if (s.line core c t).valid then s.displace core c t else s := rfl

theorem environmentStep_fill (core : Nat) (c : CacheName) (t pa : Nat) (s : State) :
    environmentStep (.fill core c t pa) s =
      if s.admitsFill core c t (s.cfg.phys pa) then s.fillLine core c t (s.cfg.phys pa) else s := rfl

theorem environmentStep_drain (k : Nat) (s : State) : environmentStep (.drain k) s = s.drain k := rfl

theorem environmentStep_sync (s : State) : environmentStep .sync s = s.synced := rfl

/-! ### Its parts -/

/-- R22, R23: a slot of a cache that is present. -/
theorem hasSlot_iff {s : State} {c : CacheName} {t : Nat} :
    s.hasSlot c t = true ↔ s.cfg.present c = true ∧ t < s.cfg.slots c := by simp [State.hasSlot]

theorem displace_effects (s : State) (core : Nat) (c : CacheName) (t : Nat) : Effects s (s.displace core c t) := by
  unfold State.displace
  split
  · rename_i h
    have ht := (hasSlot_iff.1 h).2
    exact .step (.writeBack _ _ _ _ ht) (.one (.invalidate _ _ _ _ (by simpa using ht)))
  · exact .refl s

/-- R26: a record drains exactly when no earlier one is for its address. -/
theorem mayDrain_iff {before after : List Pending} {p : Pending} :
    mayDrain (before ++ p :: after) before.length = true ↔ ∀ q, q ∈ before → q.pa ≠ p.pa := by simp [mayDrain]

/-- R26: a list with a record at a place, cut there. -/
theorem pending_split {ps : List Pending} {k : Nat} {p : Pending} (h : ps[k]? = some p) :
    ∃ before after, ps = before ++ p :: after ∧ before.length = k ∧ ps.eraseIdx k = before ++ after := by
  obtain ⟨hk, rfl⟩ := List.getElem?_eq_some_iff.1 h
  exact ⟨ps.take k, ps.drop (k + 1), by simp, by simp; omega, List.eraseIdx_eq_take_drop_succ ..⟩

/-- R26: a drain does nothing, or stores one record that no earlier one precedes. -/
theorem drain_cases (s : State) (k : Nat) : s.drain k = s ∨ ∃ before p after,
    s.wbPending = before ++ p :: after ∧ (∀ q, q ∈ before → q.pa ≠ p.pa) ∧
      s.drain k = { s with wbPending := before ++ after, mem := storePending s.cfg s.mem p } := by
  unfold State.drain
  split
  · rename_i p hp
    split
    · rename_i hd
      obtain ⟨before, after, hs, rfl, he⟩ := pending_split hp
      rw [hs] at hd
      exact .inr ⟨before, p, after, hs, mayDrain_iff.1 hd, by rw [he]⟩
    · exact .inl rfl
  · exact .inl rfl

/-- Everything a move of the environment can do (R26, R27, R49). -/
theorem environmentStep_cases (e : EnvStep) (s : State) :
    Effects s (environmentStep e s) ∨
      (∃ before p after, s.wbPending = before ++ p :: after ∧ (∀ q, q ∈ before → q.pa ≠ p.pa) ∧
        environmentStep e s = { s with wbPending := before ++ after, mem := storePending s.cfg s.mem p }) ∨
      environmentStep e s = s.synced := by
  cases e with
  | evict core c t =>
    rw [environmentStep_evict]
    split
    · exact .inl (.refl s)
    · exact .inl (displace_effects ..)
  | external core c t =>
    rw [environmentStep_external]
    split
    · exact .inl (displace_effects ..)
    · exact .inl (.refl s)
  | fill core c t pa =>
    rw [environmentStep_fill]
    split
    · rename_i h
      simp only [State.admitsFill, Bool.and_eq_true, Option.isNone_iff_eq_none] at h
      exact .inl (.one (.fill _ _ _ _ _ (hasSlot_iff.1 h.1.1.1).2 (phys_lt ..) h.2))
    · exact .inl (.refl s)
  | drain k =>
    rw [environmentStep_drain]
    rcases drain_cases s k with h | h
    · rw [h]
      exact .inl (.refl s)
    · exact .inr (.inl h)
  | sync => exact .inr (.inr rfl)

end Sys2Proof.Machine
end

