-- ==== Sys2Proof/Laws/Operations.lean ====
section
/-! SUPPORT. The words of Safety.lean tied to the functions of the machine, once each: what a lookup finds, when the own-line test
fires, and what exec is once the tests before the operation have passed. -/

namespace Sys2Proof.Machine

/-! ### Instructions -/

/-- Both instructions are the one step list (R70). -/
theorem exec_cacheop (isEva : Bool) (op rs : BitVec 5) (offset : Int) (s : State) :
    exec (cacheop isEva op rs offset) s = cacheInstr isEva op rs offset s := by cases isEva <;> rfl

theorem effectiveAddress_eq (s : State) (rs : BitVec 5) (offset : Int) :
    s.effectiveAddress rs offset = addressOf s rs offset := rfl

/-- Steps 1 to 3 passed (R73 to R75). -/
theorem cacheInstr_of_enabled {isEva : Bool} {op rs : BitVec 5} {offset : Int} {s : State} (h : Enabled isEva s) :
    cacheInstr isEva op rs offset s = cacheAt isEva op (addressOf s rs offset) s := by
  have h1 : (s.cfg.config5NMS && s.cfg.noCaches) = false := by
    cases hn : s.cfg.config5NMS
    · rfl
    · simp [h.caches hn]
  have h2 : (isEva && !s.cfg.config5EVA) = false := by
    cases isEva
    · rfl
    · simp [h.eva rfl]
  simp [cacheInstr, h1, h2, h.cp0, effectiveAddress_eq]

/-- Steps 1 to 6 passed (R73 to R78). -/
theorem exec_of_translates {isEva : Bool} {op rs : BitVec 5} {offset : Int} {s : State} {pa cca : Nat}
    (h : Translates isEva op (addressOf s rs offset) pa cca s) :
    exec (cacheop isEva op rs offset) s = operateAndAdvance op (addressOf s rs offset) pa cca s := by
  have h2 : (s.cfg.isIndexOp op && !s.cfg.isUnmapped (addressOf s rs offset) isEva) = false := by
    cases hi : s.cfg.isIndexOp op
    · rfl
    · simp [h.index hi]
  rw [exec_cacheop, cacheInstr_of_enabled h.enabled]
  simp [cacheAt, h.legal, h2, h.translation]

theorem uncached_eq_false {cca : Nat} (h : cca ≠ 2 ∧ cca ≠ 7) : uncached cca = false := by simp [uncached, h.1, h.2]

/-- The operation is entered and no hardware error is drawn (R100, R109): exec runs the operation of op, then moves `pc`. -/
theorem exec_of_entersOp {isEva : Bool} {op rs : BitVec 5} {offset : Int} {s : State} {pa cca : Nat}
    (h : EntersOp isEva op (addressOf s rs offset) pa cca s) :
    exec (cacheop isEva op rs offset) s =
      andThen (operation op (addressOf s rs offset) pa cca s) fun u => .next u.errorTaken.advance := by
  rw [exec_of_translates h.translates]
  simp only [operateAndAdvance, uncached_eq_false h.cached, cacheOp, h.implemented, if_true]
  cases operation op (addressOf s rs offset) pa cca s <;> simp [reportError_of_none h.noError]

/-- R64: the cache of an entered operation is present. -/
theorem EntersOp.present {isEva : Bool} {op : BitVec 5} {va : Word} {pa cca : Nat} {s : State}
    (h : EntersOp isEva op va pa cca s) : s.cfg.present (opCache op) = true := (opImplemented_present h.implemented).2

/-! ### The operation a value of op names (R62, R63) -/

section
variable (c : CacheName) (va : Word) (pa cca : Nat) (s : State)

theorem operation_indexInvalidate : operation (opOf 0#3 .icache) va pa cca s = indexInvalidate .icache va s := rfl

theorem operation_indexWriteBackInvalidate (h : c ≠ .icache) :
    operation (opOf 0#3 c) va pa cca s = indexWriteBackInvalidate c va s := by
  cases c
  · exact absurd rfl h
  all_goals rfl

theorem operation_indexLoadTag : operation (opOf 1#3 c) va pa cca s = indexLoadTag c va s := by cases c <;> rfl

theorem operation_indexStoreTag : operation (opOf 2#3 c) va pa cca s = indexStoreTag c va s := by cases c <;> rfl

theorem operation_implDep : operation (opOf 3#3 c) va pa cca s = implDep (opOf 3#3 c) va pa cca s := by cases c <;> rfl

theorem operation_hitInvalidate : operation (opOf 4#3 c) va pa cca s = hitInvalidate (opOf 4#3 c) c pa cca s := by
  cases c <;> rfl

theorem operation_fill : operation 20#5 va pa cca s = fill .icache va pa s := rfl

theorem operation_hitWriteBackInvalidate (h : c ≠ .icache) :
    operation (opOf 5#3 c) va pa cca s = hitWriteBackInvalidate (opOf 5#3 c) c pa cca s := by
  cases c
  · exact absurd rfl h
  all_goals rfl

theorem operation_hitWriteBack (h : c ≠ .icache) :
    operation (opOf 6#3 c) va pa cca s = hitWriteBack (opOf 6#3 c) c pa cca s := by
  cases c
  · exact absurd rfl h
  all_goals rfl

theorem operation_fetchAndLock (h : c = .icache ∨ c = .dcache) :
    operation (opOf 7#3 c) va pa cca s = fetchAndLock c va pa s := by
  rcases h with rfl | rfl <;> rfl

/-- R53, R108: not globalized, a Hit operation acts on this core alone. -/
theorem broadcast_own {op : BitVec 5} {cca : Nat} {act : Nat → State → Result} {s : State}
    (h : s.cfg.isGlobalized op cca = false) : broadcast op cca act s = act 0 s := by
  simp only [broadcast, h, Bool.false_eq_true, if_false, eachCore]
  cases act 0 s <;> rfl

end

/-! ### Lookup and the own line -/

theorem holdsLine_iff {l : Line} {a : Nat} : l.holdsLine a = true ↔ l.valid = true ∧ l.addr = a := by
  simp [Line.holdsLine]

theorem holds_iff {s : State} {core t a : Nat} {c : CacheName} :
    Holds s core c t a ↔ t < s.cfg.slots c ∧ (s.line core c t).holdsLine a = true := by
  simp [Holds, holdsLine_iff]

/-- R101: the slot that is found holds the line. -/
theorem holds_of_hitSlot {s : State} {core pa t : Nat} {c : CacheName} (h : s.hitSlot core c pa = some t) :
    Holds s core c t (s.cfg.lineAddr c pa) := holds_iff.2 (hitSlot_some h)

/-- R101: a miss finds no slot. -/
theorem hitSlot_eq_none_iff {s : State} {core pa : Nat} {c : CacheName} :
    s.hitSlot core c pa = none ↔ Misses s core c (s.cfg.lineAddr c pa) := by
  constructor
  · intro h t ht
    have := hitSlot_none h t ht.1
    rw [(holds_iff.1 ht).2] at this
    cases this
  · intro h
    cases hs : s.hitSlot core c pa with
    | none => rfl
    | some t => exact absurd (holds_of_hitSlot hs) (h t)

/-- R101, R25: with one slot at most for a line, the slot that holds it is the one found. -/
theorem hitSlot_of_holds {s : State} {core pa t : Nat} {c : CacheName} (hu : s.UniqueLines)
    (h : Holds s core c t (s.cfg.lineAddr c pa)) : s.hitSlot core c pa = some t := by
  cases hs : s.hitSlot core c pa with
  | none => exact absurd h (hitSlot_eq_none_iff.1 hs t)
  | some u => rw [hu core c u t _ (holds_of_hitSlot hs) h]

/-- R83: the own-line test of a record. -/
theorem isOwnLine_iff {s : State} {c : CacheName} {l : Line} :
    s.isOwnLine c l = true ↔ l.valid = true ∧ InstructionIn s c l.addr := by
  unfold State.isOwnLine State.ownBytes InstructionIn
  simp only [List.any_eq_true, List.mem_filterMap, holdsLine_iff]
  constructor
  · rintro ⟨p, ⟨k, hk, hp⟩, hv, ha⟩
    refine ⟨hv, k.toNat, ?_, p, ?_⟩
    · simp only [List.mem_cons, List.not_mem_nil, or_false] at hk
      rcases hk with rfl | rfl | rfl | rfl <;> decide
    · simp only [BitVec.ofNat_toNat, BitVec.setWidth_eq]
      split at hp
      · rename_i pa cca ht
        cases hp
        exact ⟨cca, ht, ha.symm⟩
      · cases hp
      · cases hp
  · rintro ⟨hv, k, hk, p, cca, ht, ha⟩
    refine ⟨p, ⟨BitVec.ofNat 32 k, ?_, by rw [ht]⟩, hv, ha.symm⟩
    have : k = 0 ∨ k = 1 ∨ k = 2 ∨ k = 3 := by omega
    rcases this with rfl | rfl | rfl | rfl <;> simp

theorem isOwnLine_eq_false {s : State} {c : CacheName} {l : Line} (h : l.valid = true → ¬InstructionIn s c l.addr) :
    s.isOwnLine c l = false := by
  cases ho : s.isOwnLine c l
  · rfl
  · exact absurd (isOwnLine_iff.1 ho).2 (h (isOwnLine_iff.1 ho).1)

/-! ### Records -/

/-- R107: the address a tag decodes to is a line address of the cache. -/
theorem decodeTag_addr_mod (cfg : Config) (c : CacheName) (lo hi : Word) :
    (decodeTag cfg c lo hi).addr % cfg.lineSize c = 0 := lineAddr_mod cfg c _

/-- R107, R34: the address a tag decodes to is a physical address. -/
theorem decodeTag_addr_lt (cfg : Config) (c : CacheName) (lo hi : Word) : (decodeTag cfg c lo hi).addr < 2 ^ cfg.palen := by
  unfold decodeTag
  exact Nat.lt_of_le_of_lt (lineAddr_le ..) (phys_lt ..)

/-- R107: with both registers zero no flag is set. -/
theorem decodeTag_zero (cfg : Config) (c : CacheName) : (decodeTag cfg c 0#32 0#32).valid = false ∧
    (decodeTag cfg c 0#32 0#32).dirty = false ∧ (decodeTag cfg c 0#32 0#32).locked = false := by simp [decodeTag, tagKey]

/-- R103: what a fill makes has a line of bytes, and a line address of the cache. -/
theorem filledLine_shape {s : State} {c : CacheName} {pa : Nat} (h : pa < 2 ^ s.cfg.palen) :
    (s.filledLine c pa).data.length = s.cfg.lineSize c ∧ (s.filledLine c pa).addr % s.cfg.lineSize c = 0 ∧
      (s.filledLine c pa).addr < 2 ^ s.cfg.palen := by
  simp only [State.filledLine, length_memView, lineAddr_mod, true_and]
  exact Nat.lt_of_le_of_lt (lineAddr_le ..) h

/-- R24, R102: what the write-back of a record adds. -/
theorem writtenBack_eq (s : State) (c : CacheName) (l : Line) :
    writtenBack s c l = if l.mustWriteBack s.cfg c = true then [⟨l.addr, l.data⟩] else [] := by
  simp [writtenBack, Line.mustWriteBack, and_assoc]

/-- R102: the pending write-backs after a write-back. -/
theorem wbPending_writeBackLine (s : State) (core : Nat) (c : CacheName) (t : Nat) :
    (s.writeBackLine core c t).wbPending = s.wbPending ++ writtenBack s c (s.line core c t) := by
  rw [writtenBack_eq, writeBackLine_wbPending]

end Sys2Proof.Machine
end

