-- ==== Sys2Proof/Laws/PerInstr.lean ====
section
/-! SUPPORT. The statements made of every instruction as syntax, one family and one lemma a constructor. -/

namespace Sys2Proof.Laws.EncodeMatches

/-- The match value of an instruction (R58). -/
def matchValue : Instr → Word
  | .cache _ _ _ => 0xA4003900#32
  | .cachee _ _ _ => 0xA4003A00#32

/-- R57, R58: the bits of the word of an instruction under the mask are its match value, whatever its operands. -/
def Statement (i : Instr) : Prop := encode i &&& 0xFC007F00#32 = matchValue i

theorem cache (op rs : BitVec 5) (offset : Int) : Statement (.cache op rs offset) := by
  apply BitVec.eq_of_getLsbD_eq
  intro i hi
  simp only [encode, encodeFields, matchValue, BitVec.getLsbD_and, BitVec.getLsbD_append]
  interval_cases i <;> simp [majorOpcode, minorOpcode]

theorem cachee (op rs : BitVec 5) (offset : Int) : Statement (.cachee op rs offset) := by
  apply BitVec.eq_of_getLsbD_eq
  intro i hi
  simp only [encode, encodeFields, matchValue, BitVec.getLsbD_and, BitVec.getLsbD_append]
  interval_cases i <;> simp [majorOpcode, minorOpcode]

end Sys2Proof.Laws.EncodeMatches
end

