-- ==== Sys2Proof/Tests/Slice0.lean ====
section
/-! SUPPORT. Tests of the model against values written out from spec/ (most are the vectors of spec/95_test_vectors.md, whose ids are cited), and
one witness for each statement that has hypotheses. -/

namespace Sys2Proof.Tests

open Sys2Proof.Machine

/-! ### Syntax, decoding, encoding -/

/-- R59: the offset of an instruction is a nine-bit signed number. -/
theorem test_wellFormed_refuses : (Instr.cache 0 0 256).wellFormed = false ∧ (Instr.cache 0 0 (-257)).wellFormed = false ∧
    (Instr.cachee 31 31 256).wellFormed = false ∧ (Instr.cachee 31 31 (-257)).wellFormed = false ∧
    (Instr.cache 31 31 255).wellFormed = true ∧ (Instr.cachee 0 0 (-256)).wellFormed = true := by decide

/-- V1, V2, E1 to E9, each word in its eight fields as the vector prints them. -/
theorem test_decode_words :
    decode 0b10100101001001010011100100000000#32 = .ok (.cache 9 5 0) ∧
    decode 0b10100101001001000011100100000000#32 = .ok (.cache 9 4 0) ∧
    decode 0b10100100000000000011100100000000#32 = .ok (.cache 0 0 0) ∧
    decode 0b10100111111111111011100111111111#32 = .ok (.cache 31 31 (-1)) ∧
    decode 0b10100110101001001011101000000000#32 = .ok (.cachee 21 4 (-256)) ∧
    decode 0b10100110000001110011100111111111#32 = .ok (.cache 16 7 255) ∧
    decode 0b10100111001001010011100100100000#32 = .ok (.cache 25 5 32) ∧
    decode 0b10100100001001011011100111100000#32 = .ok (.cache 1 5 (-32)) ∧
    decode 0b10100110100001100011101001010101#32 = .ok (.cachee 20 6 85) ∧
    decode 0b10100100101001010011100100000001#32 = .ok (.cache 5 5 1) ∧
    decode 0b10100101001001010011101000000000#32 = .ok (.cachee 9 5 0) := by decide

/-- E10 to E15. -/
theorem test_decode_refuses : decode 0xA4003800#32 = .error .selector ∧ decode 0xA4003B00#32 = .error .selector ∧
    decode 0xA4003D00#32 = .error .fixedBit ∧ decode 0xA4003100#32 = .error .minorOpcode ∧
    decode 0x84003900#32 = .error .majorOpcode ∧ decode 0xA4007900#32 = .error .minorOpcode := by decide

/-- E2, E3, E6 read the other way. -/
theorem test_encode_words : encode (.cache 31 31 (-1)) = 0xA7FFB9FF#32 ∧ encode (.cachee 21 4 (-256)) = 0xA6A4BA00#32 ∧
    encode (.cache 1 5 (-32)) = 0xA425B9E0#32 := by decide

/-- The two words of spec/opcode_table.json with their open fields zero. -/
theorem test_decodeTableWord : decodeTableWord 32 0xA4003900 = some (.cache 0 0 0) ∧
    decodeTableWord 32 0xA4003A00 = some (.cachee 0 0 0) ∧ decodeTableWord 32 0 = none := by decide

/-- The byte order of the reset configuration (log entry 15): the upper half first, each half little-endian. -/
theorem test_decodeBytes : decodeBytes .halfwords [0xA4#8, 0xA6#8, 0x00#8, 0xBA#8, 0x07#8] = .ok (.cachee 21 4 (-256), [0x07#8]) ∧
    decodeBytes .halfwords [0xA4#8, 0xA6#8, 0x00#8] = .error .tooShort := by decide

/-! ### Instantiation TV (spec/95_test_vectors.md section 2) -/

/-- A cache that is absent. -/
def absent (c : CacheName) : CacheConfig := { standardCache c with sets := [] }

/-- A page of 4096 bytes of the table TLB. -/
def page (vpage ppage cca : Nat) : Mapping := .page ⟨⟨0xFFFFF000, vpage * 4096⟩, ppage * 4096, cca⟩

/-- TV with a page table. -/
def tv (tlb : List Mapping) : Config :=
  { Config.standard with
    config2SL := 0
    config2TL := 0
    config5EVA := false
    caches := ⟨standardCache .icache, standardCache .dcache, absent .tcache, absent .scache⟩
    offered := [4, 5, 17, 20, 21, 25, 28, 29]
    dataRegs := false
    kernelView :=
      { addrErr := []
        unmapped := [⟨⟨0xE0000000, 0x80000000⟩, 0, 3⟩, ⟨⟨0xE0000000, 0xA0000000⟩, 0, 2⟩]
        mapped := tlb }
    userView := { addrErr := [⟨0x80000000, 0x80000000⟩], unmapped := [], mapped := tlb } }

/-- The general registers of section 3.4: `x[4]`, `x[5]`, `x[6]`, and `x[9]` of section 3.3. -/
def regs (x4 x5 x6 x9 : Word) : Vector Word 32 := (((Vector.replicate 32 0#32).set 4 x4).set 5 x5).set 6 x6 |>.set 9 x9

/-- The start state of section 3.4 under a configuration. -/
def start (cfg : Config) : State :=
  { State.reset with
    cfg := cfg, pc := 0x80010000#32, x := regs 0x80002040#32 0x80000000#32 0x80003020#32 0x8001003C#32 }

/-- The 32 bytes B of the vectors. -/
def bytesB : List Byte := List.replicate 32 0xB0#8

/-- The 32 bytes M of the vectors. -/
def bytesM : List Byte := List.replicate 32 0x4D#8

/-- A line record as the vectors write it. -/
def line (valid dirty locked : Bool) (addr : Nat) : Line := ⟨valid, dirty, locked, addr, bytesB⟩

/-- The state with a slot of a cache of this core holding a record. -/
def put (s : State) (c : CacheName) (slot : Nat) (l : Line) : State := s.setLine 0 c slot l

/-- The state with both tag registers of a cache holding words. -/
def tags (s : State) (c : CacheName) (lo : Word) : State := s.setTag c lo 0#32

/-- The state with M in memory at a line address. -/
def memory (s : State) (a : Nat) : State := { s with mem := writeBytes s.cfg s.mem a bytesM }

/-- What an outcome leaves, seen through a function of the state. -/
def seen {α : Type} (o : Result) (f : State → α) : Option α :=
  match o with
  | .next s => some (f s)
  | .fault _ => none
  | .refused _ => none

/-- The fault an outcome is. -/
def faultOf (o : Result) : Option Fault :=
  match o with
  | .next _ => none
  | .fault r => some r
  | .refused _ => none

/-- The refusal an outcome is. -/
def refusalOf (o : Result) : Option Refusal :=
  match o with
  | .next _ => none
  | .fault _ => none
  | .refused r => some r

/-! ### Effective addresses (section 3.2) -/

/-- A1 to A8. -/
theorem test_effective_addresses :
    (start (tv [])).effectiveAddress 5 255 = 0x800000FF#32 ∧ (start (tv [])).effectiveAddress 5 (-1) = 0x7FFFFFFF#32 ∧
    ({ start (tv []) with x := regs 0x10#32 0xFFFFFFFF#32 0#32 0#32 } : State).effectiveAddress 4 (-256) = 0xFFFFFF10#32 ∧
    ({ start (tv []) with x := regs 0x10#32 0xFFFFFFFF#32 0#32 0#32 } : State).effectiveAddress 5 1 = 0#32 ∧
    (start (tv [])).effectiveAddress 0 (-1) = 0xFFFFFFFF#32 := by decide

/-! ### The tests before the operation (section 3.3) -/

/-- TV without caches on an NMS core or off it. -/
def noCaches (nms : Bool) : Config :=
  { tv [] with config1IL := 0, config1DL := 0, config5NMS := nms,
               caches := ⟨absent .icache, absent .dcache, absent .tcache, absent .scache⟩ }

/-- X1, X2, X3, X6. -/
theorem test_reserved_and_unusable :
    faultOf (exec (.cachee 21 4 0) { start (noCaches true) with cp0Enabled := false }) = some (.exception .reservedInstruction) ∧
    faultOf (exec (.cachee 21 4 0) { start (tv []) with cp0Enabled := false }) = some (.exception .reservedInstruction) ∧
    faultOf (exec (.cache 21 4 0) { start (tv []) with cp0Enabled := false }) = some (.exception (.coprocessorUnusable 0)) ∧
    faultOf (exec (.cache 24 5 0) { start (tv []) with cp0Enabled := false }) = some (.exception (.coprocessorUnusable 0)) := by
  decide

/-- X5, X7, EV2, EV3. -/
theorem test_address_tests :
    faultOf (exec (.cachee 21 4 0) (start { tv [] with config5EVA := true })) = some (.exception (.addressError 0x80002040#32)) ∧
    faultOf (exec (.cache 9 5 0) { start (tv []) with x := regs 0#32 0x40#32 0#32 0#32 })
      = some (.unpredictable .indexNotUnmapped) ∧
    faultOf (exec (.cachee 9 5 0) { start { tv [] with config5EVA := true } with x := regs 0#32 0x40#32 0#32 0#32 })
      = some (.unpredictable .indexNotUnmapped) ∧
    faultOf (exec (.cachee 9 5 0) (start { tv [] with config5EVA := true })) = some (.exception (.addressError 0x80000000#32)) := by
  decide

/-- X8, X9. -/
theorem test_tlb_exceptions :
    faultOf (exec (.cache 21 4 0) { start (tv []) with x := regs 0x402040#32 0#32 0#32 0#32 })
      = some (.exception (.tlbRefill 0x402040#32)) ∧
    faultOf (exec (.cache 21 4 0) { start (tv [.invalid ⟨0xFFFFF000, 0x402000⟩]) with x := regs 0x402040#32 0#32 0#32 0#32 })
      = some (.exception (.tlbInvalid 0x402040#32)) := by decide

/-- X4, X10: the operation is reached on an NMS core with caches, and through the page table. -/
theorem test_operation_is_reached :
    seen (exec (.cache 21 4 0) (put (start { tv [] with config5NMS := true }) .dcache 2 (line true true false 0x2040)))
      (fun t => (t.line 0 .dcache 2).valid) = some false ∧
    seen (exec (.cache 21 4 0) (put { start (tv [page 0x402 0x2 3]) with x := regs 0x402040#32 0#32 0#32 0#32 } .dcache 2
      (line true true false 0x2040))) (fun t => (t.line 0 .dcache 2).valid) = some false := by decide

/-- X11 to X14: an uncached address. -/
theorem test_uncached :
    seen (exec (.cache 25 4 0) (put { start (tv []) with x := regs 0xA0002040#32 0#32 0#32 0#32 } .dcache 2
      (line true true false 0x2040))) (fun t => (t.wbPending, t.line 0 .dcache 2, t.pc))
      = some ([], line true true false 0x2040, 0x80010004#32) ∧
    faultOf (exec (.cache 25 4 0) { start { tv [] with configAT := 1 } with x := regs 0xA0002040#32 0#32 0#32 0#32 })
      = some (.unpredictable .uncachedAddress) ∧
    seen (exec (.cache 24 5 0) { start (tv []) with x := regs 0#32 0xA0000000#32 0#32 0#32 }) (fun t => t.pc)
      = some 0x80010004#32 := by decide

/-- X15 to X18. -/
theorem test_op_selects_nothing :
    refusalOf (exec (.cache 24 5 0) (start (tv []))) = some (.opSelectsNothing 24) ∧
    refusalOf (exec (.cache 2 5 0) (start (tv []))) = some (.opSelectsNothing 2) ∧
    refusalOf (exec (.cache 13 5 0) (start (tv []))) = some (.opSelectsNothing 13) ∧
    refusalOf (exec (.cache 9 5 0) (start (noCaches false))) = some (.opSelectsNothing 9) := by decide

/-- X19 to X22: the line that holds the instruction, at physical line 0x00010020. -/
theorem test_own_line :
    faultOf (exec (.cache 0 9 0) (put { start (tv []) with pc := 0x80010020#32, x := regs 0#32 0#32 0#32 0x80000020#32 }
      .icache 1 (line true false false 0x10020))) = some (.unpredictable .ownLine) ∧
    faultOf (exec (.cache 16 9 0) (put { start (tv []) with pc := 0x80010020#32 } .icache 5 (line true false false 0x10020)))
      = some (.unpredictable .ownLine) ∧
    seen (exec (.cache 16 9 0) { start (tv []) with pc := 0x80010020#32 }) (fun t => t.pc) = some 0x80010024#32 ∧
    faultOf (exec (.cache 21 9 0) (put { start (tv []) with pc := 0x80010020#32, x := regs 0#32 0#32 0#32 0x80010020#32 }
      .dcache 1 (line true false false 0x10020))) = some (.unpredictable .ownLine) := by decide

/-! ### The operations (section 3.4) -/

/-- O0. -/
theorem test_op0 : seen (exec (.cache 0 5 (-96)) (put { start (tv []) with x := regs 0#32 0x80000100#32 0#32 0#32 } .icache 5
    (line true false true 0x1020))) (fun t => (t.line 0 .icache 5, t.wbPending)) = some (line false false false 0x1020, []) := by
  decide

/-- O1, O1b, O1c. -/
theorem test_op1 :
    seen (exec (.cache 1 5 64) (put (start (tv [])) .dcache 2 (line true true false 0x2040)))
      (fun t => (t.line 0 .dcache 2, t.wbPending)) = some (line false false false 0x2040, [⟨0x2040, bytesB⟩]) ∧
    seen (exec (.cache 1 5 64) (put (start (tv [])) .dcache 2 (line true false false 0x2040)))
      (fun t => (t.line 0 .dcache 2, t.wbPending)) = some (line false false false 0x2040, []) ∧
    seen (exec (.cache 1 5 64) (put (start (tv [])) .dcache 2 (line false true false 0x2040)))
      (fun t => (t.line 0 .dcache 2, t.wbPending)) = some (line false false false 0x2040, []) := by decide

/-- R112, R113 on the reset configuration, which has the caches T and S. -/
theorem test_op2_op3 :
    seen (exec (.cache 2 5 64) (put (start Config.standard) .tcache 2 (line true true false 0x2040)))
      (fun t => (t.line 0 .tcache 2, t.wbPending)) = some (line false false false 0x2040, [⟨0x2040, bytesB⟩]) ∧
    seen (exec (.cache 3 5 64) (put (start Config.standard) .scache 2 (line true true false 0x2040)))
      (fun t => (t.line 0 .scache 2, t.wbPending)) = some (line false false false 0x2040, [⟨0x2040, bytesB⟩]) := by decide

/-- O4, O5, O5b. -/
theorem test_op4_op5 :
    seen (exec (.cache 4 5 32) (put (tags (start (tv [])) .dcache 7#32) .icache 1 (line true false false 0x1020)))
      (fun t => (t.tagLoOf .icache, t.tagHiOf .icache, t.tagLoOf .dcache)) = some (0x1021#32, 0#32, 7#32) ∧
    seen (exec (.cache 5 5 64) (put (start (tv [])) .dcache 2 (line true true true 0x2040)))
      (fun t => (t.tagLoOf .dcache, t.line 0 .dcache 2)) = some (0x2047#32, line true true true 0x2040) ∧
    seen (exec (.cache 5 5 1) (put (start (tv [])) .dcache 0 (line false false false 0x1000)))
      (fun t => t.tagLoOf .dcache) = some 0x1000#32 := by decide

/-- R116, R117 on the reset configuration. -/
theorem test_op6_op7 :
    seen (exec (.cache 6 5 64) (put (start Config.standard) .tcache 2 (line true true true 0x2040)))
      (fun t => (t.tagLoOf .tcache, t.tagLoOf .scache)) = some (0x2047#32, 0#32) ∧
    seen (exec (.cache 7 5 64) (put (start Config.standard) .scache 2 (line true true true 0x2040)))
      (fun t => (t.tagLoOf .scache, t.tagLoOf .tcache)) = some (0x2047#32, 0#32) := by decide

/-- O8, O9e. -/
theorem test_op8 :
    seen (exec (.cache 8 5 0) (put { start (tv []) with x := regs 0#32 0x800000E0#32 0#32 0#32 } .icache 7
      (line true false true 0x1060))) (fun t => t.line 0 .icache 7) = some (line false false false 0) ∧
    seen (exec (.cache 8 5 0) (put (tags (start (tv [])) .icache 0x2003#32) .icache 0 (line false false false 0)))
      (fun t => t.line 0 .icache 0) = some (line true false false 0x2000) := by decide

/-- O9 to O9d. -/
theorem test_op9 :
    seen (exec (.cache 9 5 0) (put (start (tv [])) .dcache 0 (line true true true 0x5000)))
      (fun t => (t.line 0 .dcache 0, t.wbPending)) = some (line false false false 0, []) ∧
    seen (exec (.cache 9 5 0) (put (tags (start (tv [])) .dcache 0x2003#32) .dcache 0 (line false false false 0)))
      (fun t => t.line 0 .dcache 0) = some (line true true false 0x2000) ∧
    refusalOf (exec (.cache 9 5 0) (put (tags (start (tv [])) .dcache 0x2001#32) .dcache 4 (line true false false 0x2000)))
      = some (.duplicateLine .dcache 0x2000) ∧
    faultOf (exec (.cache 9 5 0) (put (tags (start (tv [])) .dcache 0x2005#32) .dcache 4 (line true false true 0x4000)))
      = some (.undefined .allWaysLocked) := by decide

/-- R120, R121 on the reset configuration. -/
theorem test_op10_op11 :
    seen (exec (.cache 10 5 0) (tags (start Config.standard) .tcache 0x2003#32))
      (fun t => ((t.line 0 .tcache 0).dirty, (t.line 0 .tcache 0).addr)) = some (true, 0x2000) ∧
    seen (exec (.cache 11 5 0) (tags (start Config.standard) .scache 0x2001#32))
      (fun t => ((t.line 0 .scache 0).valid, (t.line 0 .scache 0).addr)) = some (true, 0x2000) := by decide

/-- A configuration whose value 13 of op is Index Load Tag, then Index Writeback Invalidate, of its cache (R123). -/
def withOp13 : Config :=
  { tv [] with caches := ⟨standardCache .icache, { standardCache .dcache with implDepOp := some (.operations [1, 0]) },
                          absent .tcache, absent .scache⟩ }

/-- A configuration whose values 12 and 14 of op are some behaviour of the implementation's own (R122, R124). -/
def withOther : Config :=
  { Config.standard with caches := ⟨{ standardCache .icache with implDepOp := some .other }, standardCache .dcache,
                                    { standardCache .tcache with implDepOp := some .other }, standardCache .scache⟩ }

/-- R122, R124: a behaviour of the implementation's own completes, whatever it is. -/
theorem test_op12_other : (∃ t, exec (.cache 12 5 0) (start withOther) = .next t) ∧
    ∃ t, exec (.cachee 14 0 0) (start withOther) = .next t := ⟨⟨_, rfl⟩, _, rfl⟩

/-- R122 to R125: what the configuration supplies is performed; O12 to O15 where it supplies nothing. -/
theorem test_op12_to_op15 :
    seen (exec (.cache 13 5 64) (put (start withOp13) .dcache 2 (line true true false 0x2040)))
      (fun t => (t.tagLoOf .dcache, t.line 0 .dcache 2)) = some (0x2043#32, line false false false 0x2040) ∧
    refusalOf (exec (.cache 12 5 0) (start (tv []))) = some (.opSelectsNothing 12) ∧
    refusalOf (exec (.cache 14 5 0) (start (tv []))) = some (.opSelectsNothing 14) ∧
    refusalOf (exec (.cache 15 5 0) (start (tv []))) = some (.opSelectsNothing 15) := by decide

/-- O16, O16b, O17. -/
theorem test_op16_op17 :
    seen (exec (.cache 16 6 4) (put { start (tv []) with x := regs 0#32 0#32 0x80001020#32 0#32 } .icache 5
      (line true false false 0x1020))) (fun t => t.line 0 .icache 5) = some (line false false false 0x1020) ∧
    seen (exec (.cache 16 6 4) { start (tv []) with x := regs 0#32 0#32 0x80001020#32 0#32 }) (fun t => t.caches)
      = some (start (tv [])).caches ∧
    seen (exec (.cache 17 4 0) (put (start (tv [])) .dcache 2 (line true true false 0x2040)))
      (fun t => (t.line 0 .dcache 2, t.wbPending)) = some (line false false false 0x2040, []) := by decide

/-- R128, R129 on the reset configuration. -/
theorem test_op18_op19 :
    seen (exec (.cache 18 4 0) (put (start Config.standard) .tcache 6 (line true true true 0x2040)))
      (fun t => (t.line 0 .tcache 6, t.wbPending)) = some (line false false false 0x2040, []) ∧
    seen (exec (.cache 19 4 0) (put (start Config.standard) .scache 6 (line true true true 0x2040)))
      (fun t => (t.line 0 .scache 6, t.wbPending)) = some (line false false false 0x2040, []) := by decide

/-- O20b; and O20, O20c by the choice of the victim. -/
theorem test_op20 :
    faultOf (exec (.cache 20 6 0) (put (put { start (tv []) with x := regs 0#32 0#32 0x80003000#32 0#32 } .icache 0
      (line true false true 0x1000)) .icache 4 (line true false true 0x5000))) = some (.undefined .missAllWaysLocked) ∧
    (start (tv [])).victims .icache 0x3000 0x80003000#32 = [0, 4] ∧
    (put (start (tv [])) .icache 0 (line true false true 0x1000)).victims .icache 0x3000 0x80003000#32 = [4] ∧
    ((memory (start (tv [])) 0x3000).fillLine 0 .icache 4 0x3000).line 0 .icache 4 = ⟨true, false, false, 0x3000, bytesM⟩ := by
  decide

/-- O21a to O21c. -/
theorem test_op21 :
    seen (exec (.cache 21 4 16) (put (start (tv [])) .dcache 2 (line true true false 0x2040)))
      (fun t => (t.line 0 .dcache 2, t.wbPending)) = some (line false false false 0x2040, [⟨0x2040, bytesB⟩]) ∧
    seen (exec (.cache 21 4 16) (put (start (tv [])) .dcache 6 (line true false true 0x2040)))
      (fun t => (t.line 0 .dcache 6, t.wbPending)) = some (line false false false 0x2040, []) ∧
    seen (exec (.cache 21 4 16) (start (tv []))) (fun t => t.caches) = some (start (tv [])).caches := by decide

/-- R132, R133 on the reset configuration. -/
theorem test_op22_op23 :
    seen (exec (.cache 22 4 0) (put (start Config.standard) .tcache 2 (line true true true 0x2040)))
      (fun t => (t.line 0 .tcache 2, t.wbPending)) = some (line false false false 0x2040, [⟨0x2040, bytesB⟩]) ∧
    seen (exec (.cache 23 4 0) (put (start Config.standard) .scache 2 (line true true true 0x2040)))
      (fun t => (t.line 0 .scache 2, t.wbPending)) = some (line false false false 0x2040, [⟨0x2040, bytesB⟩]) := by decide

/-- O25, O25b. -/
theorem test_op25 :
    seen (exec (.cache 25 4 0) (put (start (tv [])) .dcache 2 (line true true true 0x2040)))
      (fun t => (t.line 0 .dcache 2, t.wbPending)) = some (line true false true 0x2040, [⟨0x2040, bytesB⟩]) ∧
    seen (exec (.cache 25 4 0) (put (start (tv [])) .dcache 2 (line true false true 0x2040)))
      (fun t => (t.line 0 .dcache 2, t.wbPending)) = some (line true false true 0x2040, []) := by decide

/-- R136, R137 on the reset configuration. -/
theorem test_op26_op27 :
    seen (exec (.cache 26 4 0) (put (start Config.standard) .tcache 2 (line true true true 0x2040)))
      (fun t => (t.line 0 .tcache 2, t.wbPending)) = some (line true false true 0x2040, [⟨0x2040, bytesB⟩]) ∧
    seen (exec (.cache 27 4 0) (put (start Config.standard) .scache 2 (line true true true 0x2040)))
      (fun t => (t.line 0 .scache 2, t.wbPending)) = some (line true false true 0x2040, [⟨0x2040, bytesB⟩]) := by decide

/-- O28, both victims; O28b; O28c. -/
theorem test_op28 :
    seen (fetchAndLockLine .icache 0x80003020#32 0x3020 0 (memory (put (start (tv [])) .icache 1 (line true false false 0x1020)) 0x3020))
      (fun t => t.line 0 .icache 1) = some ⟨true, false, true, 0x3020, bytesM⟩ ∧
    seen (fetchAndLockLine .icache 0x80003020#32 0x3020 1 (memory (put (start (tv [])) .icache 1 (line true false false 0x1020)) 0x3020))
      (fun t => (t.line 0 .icache 5, t.line 0 .icache 1)) = some (⟨true, false, true, 0x3020, bytesM⟩, line true false false 0x1020) ∧
    faultOf (fetchAndLockLine .icache 0x80003020#32 0x3020 0 (put (start (tv [])) .icache 1 (line true false true 0x1020)))
      = some (.undefined .allWaysLocked) ∧
    seen (exec (.cache 28 6 0) (put (start (tv [])) .icache 5 (line true false false 0x3020))) (fun t => t.line 0 .icache 5)
      = some (line true false true 0x3020) := by decide

/-- O29, both victims; O29b. -/
theorem test_op29 :
    seen (fetchAndLockLine .dcache 0x80002040#32 0x2040 0 (memory (put (put (start (tv [])) .dcache 2 (line true true false 0x1040))
      .dcache 6 (line true false false 0x3040)) 0x2040)) (fun t => (t.line 0 .dcache 2, t.wbPending))
      = some (⟨true, false, true, 0x2040, bytesM⟩, [⟨0x1040, bytesB⟩]) ∧
    seen (fetchAndLockLine .dcache 0x80002040#32 0x2040 1 (memory (put (put (start (tv [])) .dcache 2 (line true true false 0x1040))
      .dcache 6 (line true false false 0x3040)) 0x2040)) (fun t => (t.line 0 .dcache 6, t.wbPending))
      = some (⟨true, false, true, 0x2040, bytesM⟩, []) ∧
    seen (exec (.cache 29 4 0) (put (start (tv [])) .dcache 2 (line true true false 0x2040))) (fun t => t.line 0 .dcache 2)
      = some (line true true true 0x2040) := by decide

/-- O24, O30, and 31 at the base of O30. -/
theorem test_unused_ops : refusalOf (exec (.cache 24 5 0) (start (tv []))) = some (.opSelectsNothing 24) ∧
    refusalOf (exec (.cache 30 5 0) (start (tv []))) = some (.opSelectsNothing 30) ∧
    refusalOf (exec (.cache 31 5 0) (start (tv []))) = some (.opSelectsNothing 31) := by decide

/-- EV1. -/
theorem test_cachee :
    seen (exec (.cachee 21 4 (-256)) (put { start { tv [page 0x401 0x801 3] with config5EVA := true } with
      x := regs 0x401100#32 0#32 0#32 0#32 } .dcache 0 (line true true false 0x801000)))
      (fun t => (t.line 0 .dcache 0, t.wbPending, t.pc))
      = some (line false false false 0x801000, [⟨0x801000, bytesB⟩], 0x80010004#32) := by decide

/-! ### Globalized operations, memory, the environment -/

/-- R53: a globalized Hit Writeback Invalidate acts on the other core's cache too. -/
theorem test_globalized :
    seen (exec (.cache 21 4 0) { put (start { tv [] with globalized := [(5, 3)] }) .dcache 2 (line true false false 0x2040) with
      others := [⟨[], [line true true false 0x2040], [], []⟩] })
      (fun t => (t.line 0 .dcache 2, t.line 1 .dcache 0, t.wbPending))
      = some (line false false false 0x2040, line false false false 0x2040, [⟨0x2040, bytesB⟩]) := by decide

/-- R109, R156, decision D14: a drawn Bus Error is raised by the write-back of a dirty line, not where the line is clean or not held. -/
theorem test_bus_error_needs_bus_operation :
    faultOf (exec (.cache 25 4 0) { put (start (tv [])) .dcache 2 (line true true false 0x2040) with hwErrors := [.busError] })
      = some (.exception .busError) ∧
    seen (exec (.cache 25 4 0) { put (start (tv [])) .dcache 2 (line true false false 0x2040) with hwErrors := [.busError] })
      (fun t => (t.pc, t.hwErrors)) = some (0x80010004#32, []) ∧
    seen (exec (.cache 25 4 0) { start (tv []) with hwErrors := [.busError] }) (fun t => (t.pc, t.hwErrors))
      = some (0x80010004#32, []) := by decide

/-- R27, R187: an external invalidate does not hit a slot that is locked but not valid, nor a cache that is absent. -/
theorem test_external_hits_valid_slots :
    (environmentStep (.external 0 .dcache 2) (put (start (tv [])) .dcache 2 (line false true true 0x2040))).line 0 .dcache 2
      = line false true true 0x2040 ∧
    (environmentStep (.external 0 .dcache 2) (put (start (tv [])) .dcache 2 (line true true true 0x2040))).line 0 .dcache 2
      = line false false false 0x2040 ∧
    (environmentStep (.external 0 .dcache 2) (put (start { noCaches false with caches := (tv []).caches }) .dcache 2
      (line true true true 0x2040))).line 0 .dcache 2 = line true true true 0x2040 := by decide

/-- W2, W3, W4: a fill sees the records not yet drained; the later record for an address wins; a SYNC stores them in order. -/
theorem test_write_back_visibility :
    ({ memory (start (tv [])) 0x2040 with wbPending := [⟨0x2040, bytesM⟩, ⟨0x2040, bytesB⟩] } : State).memView 0x2040 32 = bytesB ∧
    readBytes (tv []) (environmentStep .sync
      { memory (start (tv [])) 0x2040 with wbPending := [⟨0x2040, bytesM⟩, ⟨0x2040, bytesB⟩] }).mem 0x2040 32 = bytesB ∧
    mayDrain [⟨0x2040, bytesM⟩, ⟨0x2040, bytesB⟩] 1 = false ∧ mayDrain [⟨0x2020, bytesM⟩, ⟨0x2040, bytesB⟩] 1 = true := by
  decide

/-- Memory stays canonical: a zero byte is not listed. -/
theorem test_memory_canonical : writeByte (writeByte [] 5 7#8) 3 1#8 = [(3, 1#8), (5, 7#8)] ∧
    writeByte [(3, 1#8), (5, 7#8)] 3 0#8 = [(5, 7#8)] ∧ readByte [(5, 7#8)] 3 = 0#8 := by decide

/-- The first instruction after reset runs: CACHE 0, 0(x0) and CACHEE 0, 0(x0). -/
theorem test_first_instruction :
    seen (step (State.reset.withFetchWord 32 0xA4003900)) (fun t => t.pc) = some 0xBFC00004#32 ∧
    seen (step (State.reset.withFetchWord 32 0xA4003A00)) (fun t => t.pc) = some 0xBFC00004#32 := by decide

/-! ### Witnesses: helpers -/

theorem enters {isEva : Bool} {op : BitVec 5} {va : Word} {pa cca : Nat} {s : State}
    (h : ((s.cfg.config5NMS = true → s.cfg.noCaches = false) ∧ (isEva = true → s.cfg.config5EVA = true) ∧ s.cp0Enabled = true) ∧
      (s.cfg.addrErr va isEva = false ∧ (s.cfg.isIndexOp op = true → s.cfg.isUnmapped va isEva = true) ∧
        s.cfg.translate va isEva = .ok pa cca) ∧
      (cca ≠ 2 ∧ cca ≠ 7) ∧ s.cfg.opImplemented op = true ∧ s.hwError op true = .none) : EntersOp isEva op va pa cca s :=
  ⟨⟨⟨h.1.1, h.1.2.1, h.1.2.2⟩, h.2.1.1, h.2.1.2.1, h.2.1.2.2⟩, h.2.2.1, h.2.2.2.1, h.2.2.2.2⟩

theorem notInstruction {s : State} {c : CacheName} {a : Nat} (h : s.isOwnLine c ⟨true, false, false, a, []⟩ = false) :
    ¬InstructionIn s c a := by
  intro hi
  rw [isOwnLine_iff.2 ⟨rfl, hi⟩] at h
  cases h

theorem unique {s : State} (ho : s.others = [])
    (h : ∀ c ∈ [CacheName.icache, .dcache, .tcache, .scache], ∀ t ∈ List.range (s.cfg.slots c),
      ∀ u ∈ List.range (s.cfg.slots c), (s.line 0 c t).valid = true → (s.line 0 c u).valid = true →
      (s.line 0 c t).addr = (s.line 0 c u).addr → t = u) : s.UniqueLines := by
  intro core c t u a ht hu
  cases core with
  | zero =>
    exact h c (by cases c <;> simp) t (List.mem_range.2 ht.1) u (List.mem_range.2 hu.1) ht.2.1 hu.2.1 (ht.2.2.trans hu.2.2.symm)
  | succ k =>
    have hv := ht.2.1
    rw [State.line, State.arrays, ho] at hv
    cases c <;> cases hv

/-- A line of the instruction cache held unlocked, of the data cache held dirty. -/
def held : State := put (put (start Config.standard) .icache 5 (line true false false 0x3020)) .dcache 2 (line true true false 0x2040)

/-- The same with every way of the two sets locked. -/
def allLocked : State := put (put (put held .icache 1 (line true false true 0x1020)) .icache 5 (line true false true 0x5020))
  .dcache 6 (line true false true 0x4040)

/-- A system of two cores where the three kinds of Hit operation are broadcast. -/
def global : State := { held with cfg := { Config.standard with globalized := [(4, 3), (5, 3), (6, 3)] }, others := [State.reset.caches] }

theorem held_unique : held.UniqueLines := unique rfl (by decide)

/-! ### Witnesses: encoding and the step -/

theorem witness_DecodesByMatchAndMask : 0xA5253900#32 &&& 0xFC007F00#32 = 0xA4003900#32 ∧
    0xA6A4BA00#32 &&& 0xFC007F00#32 = 0xA4003A00#32 ∧
    (0xA4003800#32 &&& 0xFC007F00#32 ≠ 0xA4003900#32 ∧ 0xA4003800#32 &&& 0xFC007F00#32 ≠ 0xA4003A00#32) := by decide

theorem witness_DecodeOfEncode : (Instr.cache 31 31 (-256)).wellFormed = true ∧ (Instr.cachee 31 31 255).wellFormed = true := by
  decide

theorem witness_EncodeOfDecode : decode 0xA7FFB9FF#32 = .ok (.cache 31 31 (-1)) := by decide

theorem witness_OffsetIsSignExtended : decode 0xA4003900#32 = .ok (cacheop false 0 0 0) ∧
    decode 0xA60739FF#32 = .ok (cacheop false 16 7 255) ∧ decode 0xA6A4BA00#32 = .ok (cacheop true 21 4 (-256)) := by decide

/-- The reset state with CACHE 0, 0(x0) at `pc`. -/
def running : State := State.reset.withFetchWord 32 0xA4003900

/-- Both forms of the first hypothesis, and the others. -/
theorem witness_StepRunsDecodedInstruction : running.turns = [] ∧
    (∃ ts, ({ running with turns := [.core, .env .sync] } : State).turns = .core :: ts) ∧
    running.cfg.translate running.pc false = .ok 0x1FC00000 2 ∧
    running.cfg.translate (running.pc + 1#32) false = .ok 0x1FC00001 2 ∧
    running.cfg.translate (running.pc + 2#32) false = .ok 0x1FC00002 2 ∧
    running.cfg.translate (running.pc + 3#32) false = .ok 0x1FC00003 2 ∧
    decodeBytes running.cfg.fetchOrder [readByte running.mem 0x1FC00000, readByte running.mem 0x1FC00001,
      readByte running.mem 0x1FC00002, readByte running.mem 0x1FC00003] = .ok (.cache 0 0 0, []) :=
  ⟨by decide, ⟨_, rfl⟩, by decide, by decide, by decide, by decide, by decide⟩

/-- The reset state itself: the word 0. -/
theorem witness_StepRefusesOtherWords : State.reset.turns = [] ∧
    State.reset.cfg.translate State.reset.pc false = .ok 0x1FC00000 2 ∧
    State.reset.cfg.translate (State.reset.pc + 1#32) false = .ok 0x1FC00001 2 ∧
    State.reset.cfg.translate (State.reset.pc + 2#32) false = .ok 0x1FC00002 2 ∧
    State.reset.cfg.translate (State.reset.pc + 3#32) false = .ok 0x1FC00003 2 ∧
    decodeBytes State.reset.cfg.fetchOrder [readByte State.reset.mem 0x1FC00000, readByte State.reset.mem 0x1FC00001,
      readByte State.reset.mem 0x1FC00002, readByte State.reset.mem 0x1FC00003] = .error .majorOpcode := by decide

/-! ### Witnesses: the tests before the operation -/

theorem witness_AddressErrorExactlyWhen : ∃ t, exec (cacheop true 0 0 0) State.reset = .next t := ⟨_, rfl⟩

theorem witness_TlbExceptionsExactlyWhen : (0#5).toNat ≤ 11 ∧ (11#5).toNat ≤ 11 := by decide

theorem witness_UncachedAddressResult :
    Translates false 31 (addressOf { start (tv []) with x := regs 0#32 0xA0000000#32 0#32 0#32 } 5 0) 0 2
      { start (tv []) with x := regs 0#32 0xA0000000#32 0#32 0#32 } :=
  ⟨⟨by decide, by decide, by decide⟩, by decide, by decide, by decide⟩

/-- An unused value, a cache that is absent, and an operation that is not implemented. -/
theorem witness_OpThatSelectsNothingIsRefused :
    Translates false 24 (addressOf (start (tv [])) 5 0) 0 3 (start (tv [])) ∧
    Translates false 2 (addressOf (start (tv [])) 5 0) 0 3 (start (tv [])) ∧ (tv []).present (opCache 2) = false ∧
    Translates false 13 (addressOf (start (tv [])) 5 0) 0 3 (start (tv [])) ∧ (tv []).opImplemented 13 = false :=
  ⟨⟨⟨by decide, by decide, by decide⟩, by decide, by decide, by decide⟩,
   ⟨⟨by decide, by decide, by decide⟩, by decide, by decide, by decide⟩, by decide,
   ⟨⟨by decide, by decide, by decide⟩, by decide, by decide, by decide⟩, by decide⟩

theorem witness_AvailabilityOfOperations : (tv []).present (opCache 16) = true ∧ (tv []).opImplemented 20 = true ∧
    (30#5).toNat ∈ [24, 30, 31] ∧ (noCaches false).config1DL = 0 ∧ (noCaches false).config1IL = 0 ∧
    (noCaches false).config2SL = 0 ∧ (noCaches false).config2TL = 0 ∧ (noCaches false).config5L2C = 0 := by decide

theorem witness_AlignmentNeverRaisesAddressError : 0 < (tv []).lineSize .dcache ∧
    (0x80000000#32).toNat / (tv []).lineSize .dcache = (0x8000001F#32).toNat / (tv []).lineSize .dcache := by decide

theorem witness_RegisterZeroReadsZero : (5#5 : BitVec 5) ≠ 0#5 := by decide

/-! ### Witnesses: choosing the line -/

/-- The key of the standard `IndexSlot` table: the line number modulo 8. -/
theorem indexKey (n : Nat) : (n - n % 32) &&& 0xE0 = n / 32 % 8 * 32 := by
  have h : n - n % 32 = (n / 32) <<< 5 := by rw [Nat.shiftLeft_eq]; omega
  rw [h, show (0xE0 : Nat) = 7 <<< 5 from rfl, ← Nat.shiftLeft_and_distrib, Nat.shiftLeft_eq]
  exact congrArg (· * 32) (Nat.and_two_pow_sub_one_eq_mod (n / 32) 3)

theorem indexSlot_standard (c : CacheName) (va : Word) : Config.standard.indexSlot c va = va.toNat / 32 % 8 := by
  have h : ∀ k, k < 8 → (n : Nat) → n &&& 0xE0 = k * 32 →
      Table.lookup ((List.range 8).map fun t => ((⟨0xE0, t * 32⟩ : Row), t)) 0 n % 8 = k := by
    intro k hk n hn
    interval_cases k <;> simp [Table.lookup, Row.holds, List.range, List.range.loop, hn]
  cases c <;> exact h _ (Nat.mod_lt _ (by decide)) _ (indexKey va.toNat)

theorem standard_legal : Config.standard.Legal where
  index c _ base hb t ht := by
    have h8 : Config.standard.slots c = 8 ∧ Config.standard.lineSize c = 32 := by cases c <;> decide
    rw [h8.1] at ht
    rw [h8.1, h8.2] at hb ⊢
    refine ⟨(t + 8 - base.toNat / 32 % 8) % 8, Nat.mod_lt _ (by decide), ?_⟩
    rw [indexSlot_standard, BitVec.toNat_add, BitVec.toNat_ofNat]
    omega
  sets c _ t ht := by
    have h : ∀ c ∈ [CacheName.icache, .dcache, .tcache, .scache], ∀ t ∈ List.range 8,
        t ∈ Config.standard.setOf c (t % 4 * 32) 0#32 ∧ t % 4 * 32 < 2 ^ Config.standard.palen := by decide
    have h8 : Config.standard.slots c = 8 := by cases c <;> decide
    have ht' := h c (by cases c <;> simp) t (List.mem_range.2 (h8 ▸ ht))
    exact ⟨_, _, ht'.2, ht'.1⟩
  watch := rfl

/-- The last clause's premise; two addresses of one line, and of the two sides of a line's end. -/
theorem witness_IndexAndSetSelectSlots : Config.standard.present .dcache = true ∧ Config.standard.Legal ∧
    (0x8000001F#32).toNat / Config.standard.lineSize .dcache = (0x80000000#32).toNat / Config.standard.lineSize .dcache ∧
    Config.standard.indexSlot .dcache 0x8000001F#32 = 0 ∧ Config.standard.indexSlot .dcache 0x80000020#32 = 1 ∧
    7 < Config.standard.slots .dcache ∧ Config.standard.setOf .dcache 0x60 0#32 = [3, 7] :=
  ⟨by decide, standard_legal, by decide, by decide, by decide, by decide, by decide⟩

/-! ### Witnesses: Index operations -/

/-- CACHEE under the reset configuration, whose user view has unmapped addresses. -/
theorem witness_IndexInvalidateResult :
    EntersOp false 0 (addressOf held 5 160) 0xA0 3 held ∧ held.cfg.indexSlot .icache (addressOf held 5 160) = 5 ∧
      ¬InstructionIn held .icache (held.line 0 .icache 5).addr ∧ EntersOp true 0 (addressOf held 0 160) 0xA0 3 held :=
  ⟨enters (by decide), by decide, notInstruction (by decide), enters (by decide)⟩

theorem witness_IndexWritebackInvalidateResult : CacheName.dcache ≠ .icache ∧
    EntersOp false (opOf 0#3 .dcache) (addressOf held 5 64) 0x40 3 held ∧
    held.cfg.indexSlot .dcache (addressOf held 5 64) = 2 ∧ ¬InstructionIn held .dcache (held.line 0 .dcache 2).addr :=
  ⟨by decide, enters (by decide), by decide, notInstruction (by decide)⟩

theorem witness_IndexLoadTagResult : EntersOp true (opOf 1#3 .icache) (addressOf held 0 160) 0xA0 3 held ∧
    EntersOp false (opOf 1#3 .dcache) (addressOf { held with cfg := tv [] } 5 64) 0x40 3 { held with cfg := tv [] } ∧
    (tv []).tagRegShared .icache .dcache = false ∧ (tv []).dataRegs = false :=
  ⟨enters (by decide), enters (by decide), by decide, by decide⟩

/-- A tag that is valid and locked, stored over slot 2 while slot 6 is not locked and no slot holds its line. -/
theorem witness_IndexStoreTagResult :
    EntersOp false (opOf 2#3 .dcache) (addressOf held 5 64) 0x40 3 (tags held .dcache 0x7045#32) ∧
    (decodeTag Config.standard .dcache 0x7045#32 0#32).valid = true ∧
    (decodeTag Config.standard .dcache 0x7045#32 0#32).locked = true ∧ 6 ∈ Config.standard.setOfSlot .dcache 2 ∧
    ((tags held .dcache 0x7045#32).line 0 .dcache 6).locked = false ∧
    Misses (tags held .dcache 0x7045#32) 0 .dcache (Config.standard.lineAddr .dcache 0x7040) :=
  ⟨enters (by decide), by decide, by decide, by decide, by decide, hitSlot_eq_none_iff.1 (by decide)⟩

/-- First clause: slot 2 holds the line that a store to slot 6 names. Second: both ways would be locked. -/
theorem witness_IndexStoreTagStops :
    (EntersOp false (opOf 2#3 .dcache) (addressOf held 5 192) 0xC0 3 (tags held .dcache 0x2041#32) ∧
      held.cfg.indexSlot .dcache (addressOf held 5 192) = 6 ∧ Holds (tags held .dcache 0x2041#32) 0 .dcache 2
        (decodeTag Config.standard .dcache 0x2041#32 0#32).addr) ∧
    (EntersOp false (opOf 2#3 .dcache) (addressOf allLocked 5 64) 0x40 3 (tags allLocked .dcache 4#32) ∧
      (decodeTag Config.standard .dcache 4#32 0#32).valid = false ∧ (decodeTag Config.standard .dcache 4#32 0#32).locked = true ∧
      ∀ u, u ∈ Config.standard.setOfSlot .dcache 2 → u ≠ 2 → ((tags allLocked .dcache 4#32).line 0 .dcache u).locked = true) :=
  ⟨⟨enters (by decide), by decide, by unfold Holds; decide⟩, enters (by decide), by decide, by decide, by decide⟩

theorem witness_ZeroTagInitialisesAnySlot : EntersOp false (opOf 2#3 .scache) (addressOf held 5 224) 0xE0 3 held ∧
    held.tagLoOf .scache = 0#32 ∧ held.tagHiOf .scache = 0#32 := ⟨enters (by decide), by decide, by decide⟩

/-- The base 0x80000000, and `x[5]` with an offset as the address of the last line. -/
theorem witness_InitialisationReachesEverySlot : held.cfg.Legal ∧ 7 < held.cfg.slots .dcache ∧
    (0x80000000#32).toNat + held.cfg.lineSize .dcache * held.cfg.slots .dcache ≤ 2 ^ 32 ∧
    held.tagLoOf .dcache = 0#32 ∧ held.tagHiOf .dcache = 0#32 ∧
    (∀ k, k < held.cfg.slots .dcache →
      ∃ pa cca, EntersOp false (opOf 2#3 .dcache) (0x80000000#32 + BitVec.ofNat 32 (held.cfg.lineSize .dcache * k)) pa cca held) ∧
    addressOf { held with x := held.x } 5 224 = 0x80000000#32 + BitVec.ofNat 32 (held.cfg.lineSize .dcache * 7) := by
  refine ⟨standard_legal, by decide, by decide, by decide, by decide, fun k hk => ?_, by decide⟩
  have h : ∀ k ∈ List.range 8, held.cfg.isUnmapped (0x80000000#32 + BitVec.ofNat 32 (32 * k)) false = true ∧
      held.cfg.translate (0x80000000#32 + BitVec.ofNat 32 (32 * k)) false = .ok (32 * k) 3 := by decide
  have hk := h k (List.mem_range.2 hk)
  exact ⟨32 * k, 3, ⟨⟨⟨by decide, by decide, by decide⟩, rfl, fun _ => hk.1, hk.2⟩, by decide, by decide, by decide⟩⟩

/-! ### Witnesses: Hit operations -/

theorem witness_HitInvalidateResult : EntersOp false (opOf 4#3 .icache) (addressOf held 6 4) 0x3024 3 held ∧
    held.cfg.isGlobalized (opOf 4#3 .icache) 3 = false ∧ held.UniqueLines ∧
    Holds held 0 .icache 5 (held.cfg.lineAddr .icache 0x3024) ∧ ¬InstructionIn held .icache (held.cfg.lineAddr .icache 0x3024) :=
  ⟨enters (by decide), by decide, held_unique, by unfold Holds; decide, notInstruction (by decide)⟩

theorem witness_HitWritebackInvalidateResult : EntersOp false (opOf 5#3 .dcache) (addressOf held 4 16) 0x2050 3 held ∧
    held.cfg.isGlobalized (opOf 5#3 .dcache) 3 = false ∧ held.UniqueLines ∧
    Holds held 0 .dcache 2 (held.cfg.lineAddr .dcache 0x2050) ∧ ¬InstructionIn held .dcache (held.cfg.lineAddr .dcache 0x2050) :=
  ⟨enters (by decide), by decide, held_unique, by unfold Holds; decide, notInstruction (by decide)⟩

theorem witness_HitWritebackResult : EntersOp false (opOf 6#3 .dcache) (addressOf held 4 0) 0x2040 3 held ∧
    held.cfg.isGlobalized (opOf 6#3 .dcache) 3 = false ∧ held.UniqueLines ∧
    Holds held 0 .dcache 2 (held.cfg.lineAddr .dcache 0x2040) :=
  ⟨enters (by decide), by decide, held_unique, by unfold Holds; decide⟩

/-- The three kinds on a line that is not held. -/
theorem witness_HitOperationMissChangesNothing :
    EntersOp false (opOf 4#3 .icache) (addressOf held 5 0) 0 3 held ∧ EntersOp false (opOf 5#3 .tcache) (addressOf held 5 0) 0 3 held ∧
    EntersOp true (opOf 6#3 .scache) (addressOf held 0 0) 0 3 held ∧
    held.cfg.isGlobalized (opOf 4#3 .icache) 3 = false ∧ held.cfg.isGlobalized (opOf 5#3 .tcache) 3 = false ∧
    held.cfg.isGlobalized (opOf 6#3 .scache) 3 = false ∧
    Misses held 0 .icache (held.cfg.lineAddr .icache 0) ∧ Misses held 0 .tcache (held.cfg.lineAddr .tcache 0) ∧
    Misses held 0 .scache (held.cfg.lineAddr .scache 0) :=
  ⟨enters (by decide), enters (by decide), enters (by decide), by decide, by decide, by decide,
   hitSlot_eq_none_iff.1 (by decide), hitSlot_eq_none_iff.1 (by decide), hitSlot_eq_none_iff.1 (by decide)⟩

/-- The state of X19 and X20: the line of the instruction in both caches. -/
def ownHeld : State := put (put { held with pc := 0x80010020#32 } .icache 5 (line true false false 0x10020)) .dcache 1
  (line true false false 0x10020)

theorem ownHeld_in (c : CacheName) : InstructionIn ownHeld c 0x10020 :=
  (isOwnLine_iff (l := ⟨true, false, false, 0x10020, []⟩)).1 (by cases c <;> decide) |>.2

theorem ownHeld_hit : Holds ownHeld 0 .icache 5 (ownHeld.cfg.lineAddr .icache 0x1003C) ∧
    Holds ownHeld 0 .dcache 1 (ownHeld.cfg.lineAddr .dcache 0x1003C) := by
  unfold Holds
  decide

/-- The state where this core does not hold the line of the instruction and another core does. -/
def ownElsewhere : State := { global with pc := 0x80010020#32, others := [ownHeld.caches] }

/-- The last conjuncts are the broadcast: this core misses, core 1 holds the line. -/
theorem witness_OwnLineIsUnpredictable :
    (EntersOp false (opOf 0#3 .icache) (addressOf ownHeld 5 160) 0xA0 3 ownHeld ∧
      ownHeld.cfg.indexSlot .icache (addressOf ownHeld 5 160) = 5 ∧ (ownHeld.line 0 .icache 5).valid = true) ∧
    (EntersOp false (opOf 4#3 .icache) (addressOf ownHeld 9 0) 0x1003C 3 ownHeld ∧
      ¬Misses ownHeld 0 .icache (ownHeld.cfg.lineAddr .icache 0x1003C)) ∧
    (EntersOp false (opOf 5#3 .dcache) (addressOf ownHeld 9 0) 0x1003C 3 ownHeld ∧
      ¬Misses ownHeld 0 .dcache (ownHeld.cfg.lineAddr .dcache 0x1003C)) ∧
    EntersOp false (opOf 2#3 .icache) (addressOf ownHeld 5 160) 0xA0 3 ownHeld ∧
    (EntersOp false (opOf 5#3 .dcache) (addressOf ownElsewhere 9 0) 0x1003C 3 ownElsewhere ∧
      Misses ownElsewhere 0 .dcache (ownElsewhere.cfg.lineAddr .dcache 0x1003C) ∧
      ownElsewhere.cfg.isGlobalized (opOf 5#3 .dcache) 3 = true ∧ 1 ≤ ownElsewhere.others.length ∧
      ¬Misses ownElsewhere 1 .dcache (ownElsewhere.cfg.lineAddr .dcache 0x1003C) ∧
      InstructionIn ownElsewhere .dcache (ownElsewhere.cfg.lineAddr .dcache 0x1003C)) :=
  ⟨⟨enters (by decide), by decide, by decide⟩, ⟨enters (by decide), fun h => h 5 ownHeld_hit.1⟩,
   ⟨enters (by decide), fun h => h 1 ownHeld_hit.2⟩, enters (by decide), enters (by decide),
   hitSlot_eq_none_iff.1 (by decide), by decide, by decide,
   fun h => h 1 (by unfold Holds; decide),
   ((isOwnLine_iff (l := ⟨true, false, false, 0x10020, []⟩)).1 (by decide)).2⟩

theorem witness_HitOperationPostcondition :
    EntersOp false (opOf 4#3 .icache) (addressOf held 6 4) 0x3024 3 held ∧ held.UniqueLines ∧
    (∃ t, exec (cacheop false (opOf 4#3 .icache) 6 4) held = .next t) ∧
    (∃ t, exec (cacheop false (opOf 6#3 .dcache) 4 0) held = .next t) ∧
    EntersOp false (opOf 5#3 .dcache) (addressOf global 4 0) 0x2040 3 global ∧ global.cfg.isGlobalized (opOf 5#3 .dcache) 3 = true ∧
    1 ≤ global.others.length ∧ (∃ t, exec (cacheop false (opOf 5#3 .dcache) 4 0) global = .next t) ∧
    EntersOp false (opOf 6#3 .dcache) (addressOf held 4 0) 0x2040 3 held ∧
    Holds held 0 .dcache 2 (held.cfg.lineAddr .dcache 0x2040) ∧
    ⟨0x2040, bytesB⟩ ∈ writtenBack held .dcache (held.line 0 .dcache 2) :=
  ⟨enters (by decide), held_unique, ⟨_, rfl⟩, ⟨_, rfl⟩, enters (by decide), by decide, by decide, ⟨_, rfl⟩, enters (by decide),
   by unfold Holds; decide, by decide⟩

/-- The instruction outside the line for the two kinds that invalidate; a Hit Writeback of its own line, which some core holds; an invalidation
of its own line, which no core holds; and the dirty line that this core's lookup finds. -/
theorem witness_GlobalizedHitOperationResult :
    EntersOp false (opOf 4#3 .icache) (addressOf global 6 4) 0x3024 3 global ∧ global.cfg.isGlobalized (opOf 4#3 .icache) 3 = true ∧
    EntersOp true (opOf 6#3 .dcache) (addressOf global 0 0) 0 3 global ∧ global.cfg.isGlobalized (opOf 6#3 .dcache) 3 = true ∧
    ¬InstructionIn global .icache (global.cfg.lineAddr .icache 0x3024) ∧
    ¬InstructionIn global .dcache (global.cfg.lineAddr .dcache 0) ∧
    EntersOp false (opOf 6#3 .dcache) (addressOf ownElsewhere 9 0) 0x1003C 3 ownElsewhere ∧
    ownElsewhere.hitSlot 1 .dcache 0x1003C = some 1 ∧
    EntersOp false (opOf 5#3 .tcache) (addressOf ownElsewhere 9 0) 0x1003C 3 ownElsewhere ∧
    (∀ core, core ≤ ownElsewhere.others.length → Misses ownElsewhere core .tcache (ownElsewhere.cfg.lineAddr .tcache 0x1003C)) ∧
    global.hitSlot 0 .dcache 0x2040 = some 2 ∧ hitWrittenBack global .dcache 0x2040 0 = [⟨0x2040, bytesB⟩] :=
  ⟨enters (by decide), by decide, enters (by decide), by decide, notInstruction (by decide), notInstruction (by decide),
   enters (by decide), by decide, enters (by decide), fun core h => by
    match core, h with
    | 0, _ => exact hitSlot_eq_none_iff.1 (by decide)
    | 1, _ => exact hitSlot_eq_none_iff.1 (by decide),
   by decide, by decide⟩

/-! ### Witnesses: Fill, Fetch and Lock -/

theorem witness_FillMissResult : EntersOp false 20 (addressOf held 5 0) 0 3 held ∧ Misses held 0 .icache (held.cfg.lineAddr .icache 0) ∧
    0 ∈ held.cfg.setOf .icache 0 (addressOf held 5 0) ∧ (held.line 0 .icache 0).locked = false :=
  ⟨enters (by decide), hitSlot_eq_none_iff.1 (by decide), by decide, by decide⟩

theorem witness_FillHitResult : EntersOp false 20 (addressOf held 6 0) 0x3020 3 held ∧ held.UniqueLines ∧
    Holds held 0 .icache 5 (held.cfg.lineAddr .icache 0x3020) :=
  ⟨enters (by decide), held_unique, by unfold Holds; decide⟩

theorem witness_MissWithAllWaysLockedIsUndefined :
    (EntersOp false 20 (addressOf allLocked 6 0) 0x3020 3 allLocked ∧
      Misses allLocked 0 (opCache 20) (allLocked.cfg.lineAddr (opCache 20) 0x3020) ∧
      ∀ v, v ∈ allLocked.cfg.setOf (opCache 20) 0x3020 (addressOf allLocked 6 0) →
        (allLocked.line 0 (opCache 20) v).locked = true) ∧
    EntersOp false 28 (addressOf allLocked 6 0) 0x3020 3 allLocked :=
  ⟨⟨enters (by decide), hitSlot_eq_none_iff.1 (by decide), by decide⟩, enters (by decide)⟩

theorem witness_FetchAndLockHitResult : EntersOp false (opOf 7#3 .dcache) (addressOf held 4 0) 0x2040 3 held ∧
    held.cfg.lockTargets .dcache (addressOf held 4 0) 0x2040 = [(addressOf held 4 0, 0x2040)] ∧ held.UniqueLines ∧
    Holds held 0 .dcache 2 (held.cfg.lineAddr .dcache 0x2040) ∧ 6 ∈ held.cfg.setOfSlot .dcache 2 ∧
    (held.line 0 .dcache 6).locked = false :=
  ⟨enters (by decide), by decide, held_unique, by unfold Holds; decide, by decide, by decide⟩

theorem witness_FetchAndLockMissResult : EntersOp false (opOf 7#3 .icache) (addressOf held 5 0) 0 3 held ∧
    held.cfg.lockTargets .icache (addressOf held 5 0) 0 = [(addressOf held 5 0, 0)] ∧
    Misses held 0 .icache (held.cfg.lineAddr .icache 0) ∧ held.cfg.setOf .icache 0 (addressOf held 5 0) = [0, 4] ∧
    (held.line 0 .icache 0).locked = false ∧ (held.line 0 .icache 4).locked = false :=
  ⟨enters (by decide), by decide, hitSlot_eq_none_iff.1 (by decide), by decide, by decide, by decide⟩

/-- First clause: the line is held and its other way is locked. Second: the line is not held and slot 5 alone is not locked. -/
theorem witness_LockingEveryWayIsUndefined :
    (EntersOp false (opOf 7#3 .dcache) (addressOf allLocked 4 0) 0x2040 3 allLocked ∧ allLocked.UniqueLines ∧
      Holds allLocked 0 .dcache 2 (allLocked.cfg.lineAddr .dcache 0x2040) ∧
      ∀ u, u ∈ allLocked.cfg.setOfSlot .dcache 2 → u ≠ 2 → (allLocked.line 0 .dcache u).locked = true) ∧
    (EntersOp false (opOf 7#3 .icache) (addressOf (put held .icache 1 (line true false true 0x1020)) 5 32) 0x20 3
        (put held .icache 1 (line true false true 0x1020)) ∧
      Misses (put held .icache 1 (line true false true 0x1020)) 0 .icache (held.cfg.lineAddr .icache 0x20) ∧
      5 ∈ held.cfg.setOf .icache 0x20 (addressOf held 5 32) ∧
      ((put held .icache 1 (line true false true 0x1020)).line 0 .icache 5).locked = false ∧
      ∀ u, u ∈ held.cfg.setOf .icache 0x20 (addressOf held 5 32) → u ≠ 5 →
        ((put held .icache 1 (line true false true 0x1020)).line 0 .icache u).locked = true) :=
  ⟨⟨enters (by decide), unique rfl (by decide), by unfold Holds; decide, by decide⟩,
   enters (by decide), hitSlot_eq_none_iff.1 (by decide), by decide, by decide, by decide⟩

theorem witness_FetchAndLockLocksEveryTarget : EntersOp false (opOf 7#3 .dcache) (addressOf held 4 0) 0x2040 3 held ∧
    (∃ t, exec (cacheop false (opOf 7#3 .dcache) 4 0) held = .next t) ∧
    (addressOf held 4 0, 0x2040) ∈ held.cfg.lockTargets .dcache (addressOf held 4 0) 0x2040 :=
  ⟨enters (by decide), ⟨_, rfl⟩, by decide⟩

/-! ### Witnesses: implementation dependent operations, hardware errors, the whole machine -/

/-- First clause: two described operations. Second: a behaviour of the implementation's own. -/
theorem witness_ImplementationDependentResult :
    (EntersOp false (opOf 3#3 .dcache) (addressOf (start withOp13) 5 64) 0x40 3 (start withOp13) ∧
      ((start withOp13).cfg.cacheOf .dcache).implDepOp = some (.operations [1, 0]) ∧
      ∃ u, standardOps .dcache [1, 0] (addressOf (start withOp13) 5 64) 0x40 3 (start withOp13) = .next u) ∧
    (EntersOp true (opOf 3#3 .tcache) (addressOf (start withOther) 0 64) 0x40 3 (start withOther) ∧
      ((start withOther).cfg.cacheOf .tcache).implDepOp = some .other) :=
  ⟨⟨enters (by decide), rfl, _, rfl⟩, enters (by decide), rfl⟩

/-- A Fetch and Lock of a line that is not held, whichever of the two ways is chosen. -/
theorem lock_completes : ∃ u, operation (opOf 7#3 .dcache) 0x80000000#32 0 3 held = .next u := by
  have key : ∀ n, ∃ u, fetchAndLockLine .dcache 0x80000000#32 0 n held = .next u := by
    intro n
    have hm : pickFrom [0, 4] n = 0 ∨ pickFrom [0, 4] n = 4 := by
      rcases Nat.mod_two_eq_zero_or_one n with h | h <;> simp [pickFrom, h]
    change ∃ u, lockSlot .dcache (pickFrom [0, 4] n)
      ((held.writeBackLine 0 .dcache (pickFrom [0, 4] n)).fillLine 0 .dcache (pickFrom [0, 4] n) 0) = .next u
    rcases hm with h | h <;> rw [h] <;> exact ⟨_, rfl⟩
  obtain ⟨u, hu⟩ := key (Config.freeVictim held.draws)
  refine ⟨u.drawn, ?_⟩
  change andThen (fetchAndLockLine .dcache 0x80000000#32 0 (Config.freeVictim held.draws) held) _ = _
  rw [hu]
  rfl

/-- One execution for each clause, the Fill and the Fetch and Lock on a hit and on a miss. -/
theorem witness_BusOperationsAreWritebacksAndFills :
    (∃ u, operation (opOf 1#3 .dcache) 0x80000040#32 0x40 3 held = .next u) ∧
    (∃ u, operation (opOf 0#3 .icache) 0x80000040#32 0x40 3 held = .next u) ∧
    (∃ u, operation (opOf 6#3 .dcache) 0x80002040#32 0x2040 3 held = .next u) ∧
    (∃ u, operation 20#5 0x80000000#32 0 3 held = .next u) ∧ Misses held 0 .icache (held.cfg.lineAddr .icache 0) ∧
    (∃ u, operation 20#5 0x80003020#32 0x3020 3 held = .next u) ∧ ¬Misses held 0 .icache (held.cfg.lineAddr .icache 0x3020) ∧
    held.cfg.lockTargets .dcache 0x80002040#32 0x2040 = [(0x80002040#32, 0x2040)] ∧
    (∃ u, operation (opOf 7#3 .dcache) 0x80002040#32 0x2040 3 held = .next u) ∧
    ¬Misses held 0 .dcache (held.cfg.lineAddr .dcache 0x2040) ∧
    (∃ u, operation (opOf 7#3 .dcache) 0x80000000#32 0 3 held = .next u) ∧ Misses held 0 .dcache (held.cfg.lineAddr .dcache 0) :=
  ⟨⟨_, rfl⟩, ⟨_, rfl⟩, ⟨_, rfl⟩, ⟨_, rfl⟩, hitSlot_eq_none_iff.1 (by decide), ⟨_, rfl⟩,
   fun h => h 5 (by unfold Holds; decide), by decide, ⟨_, rfl⟩, fun h => h 2 (by unfold Holds; decide),
   lock_completes, hitSlot_eq_none_iff.1 (by decide)⟩

/-- The state with a dirty line of the data cache and a hardware error drawn for the coming execution. -/
def drawnError (e : HwError) : State := { held with hwErrors := [e] }

/-- Each clause: both errors raised by a Hit Writeback of a dirty line, and completion with no error, with a Cache Error drawn by an Index
Load Tag, and with a Bus Error drawn by a Hit Writeback of a line that is not held. -/
theorem witness_HardwareErrorsAreRaised :
    (∀ e, Translates false 25 (addressOf (drawnError e) 4 0) 0x2040 3 (drawnError e)) ∧ held.cfg.opImplemented 25 = true ∧
    (∃ u, operation 25 (addressOf held 4 0) 0x2040 3 (drawnError .cacheError) = .next u) ∧
    (∃ u, operation 25 (addressOf held 4 0) 0x2040 3 (drawnError .busError) = .next u ∧ u.busOps ≠ (drawnError .busError).busOps) ∧
    (∃ u, operation 25 (addressOf held 4 0) 0x2040 3 (drawnError .none) = .next u) ∧
    (Translates false 5 (addressOf (drawnError .cacheError) 5 64) 0x40 3 (drawnError .cacheError) ∧
      ∃ u, operation 5 (addressOf held 5 64) 0x40 3 (drawnError .cacheError) = .next u) ∧
    (Translates false 25 (addressOf (drawnError .busError) 5 0) 0 3 (drawnError .busError) ∧
      ∃ u, operation 25 (addressOf held 5 0) 0 3 (drawnError .busError) = .next u ∧ u.busOps = (drawnError .busError).busOps) :=
  ⟨fun _ => have h : held.cfg.translate (addressOf held 4 0) false = .ok 0x2040 3 := by decide
     ⟨⟨fun _ => rfl, fun _ => rfl, rfl⟩, rfl, fun (hi : held.cfg.isIndexOp 25 = true) => absurd hi (by decide), h⟩,
   by decide, ⟨_, rfl⟩, ⟨_, rfl, by decide⟩, ⟨_, rfl⟩,
   ⟨⟨⟨by decide, by decide, by decide⟩, by decide, by decide, by decide⟩, _, rfl⟩,
   ⟨⟨by decide, by decide, by decide⟩, by decide, by decide, by decide⟩, _, rfl, by decide⟩

theorem witness_TagOperationsRaiseNoHardwareError : 4 ≤ (4#5).toNat ∧ (11#5).toNat ≤ 11 := by decide

theorem witness_CompletionMovesPcAndWritesNoGeneralRegister : (∃ t, exec (.cache 0 0 0) State.reset = .next t) ∧
    ∃ t, exec (.cachee 0 0 0) State.reset = .next t := ⟨⟨_, rfl⟩, _, rfl⟩

/-- op 0. -/
theorem witness_OnlyLoadTagWritesTagRegisters : (∃ t, exec (cacheop false 0 0 0) State.reset = .next t) ∧
    ¬(4 ≤ (0#5).toNat ∧ (0#5).toNat ≤ 7) ∧ ¬(12 ≤ (0#5).toNat ∧ (0#5).toNat ≤ 15) := ⟨⟨_, rfl⟩, by decide, by decide⟩

theorem witness_OnlyWritebackOperationsAddPending : (∃ t, exec (cacheop false 16 6 4) held = .next t) ∧
    (16#5).toNat ∉ [1, 2, 3, 21, 22, 23, 25, 26, 27, 29, 12, 13, 14, 15] := ⟨⟨_, rfl⟩, by decide⟩

/-- An Index operation; a Hit operation whose kind is globalized at another cca only; an implementation dependent one whose kinds are not
globalized at all. -/
theorem witness_OperationsStayInTheirCache :
    ((∃ t, exec (cacheop false 0 5 160) held = .next t) ∧
      (0#5).toNat ∉ [16, 17, 18, 19, 21, 22, 23, 25, 26, 27, 12, 13, 14, 15]) ∧
    ((∃ t, exec (cacheop false 21 4 0) { global with cfg := { global.cfg with globalized := [(5, 5)] } } = .next t) ∧
      global.cfg.translate (addressOf global 4 0) false = .ok 0x2040 3 ∧
      ({ global.cfg with globalized := [(5, 5)] } : Config).isGlobalized 21 3 = false) ∧
    ((∃ t, exec (cacheop false 13 5 64) (start withOp13) = .next t) ∧ ∀ kind, withOp13.isGlobalized (opOf kind .dcache) 3 = false) :=
  ⟨⟨⟨_, rfl⟩, by decide⟩, ⟨⟨_, rfl⟩, by decide, by decide⟩, ⟨_, rfl⟩, fun _ => rfl⟩

/-- A step of the environment. -/
theorem witness_StepKeepsConfigurationAndRegisters : (∃ t, step running = .next t) ∧
    ∃ t, step { running with turns := [.env (.evict 0 .dcache 2)] } = .next t := ⟨⟨_, rfl⟩, _, rfl⟩

theorem witness_StepKeepsCanonicalMemory : running.CanonicalMemory ∧ ∃ t, step running = .next t := ⟨by decide, _, rfl⟩

theorem witness_StepKeepsUniqueLines : running.UniqueLines ∧ ∃ t, step running = .next t := ⟨unique rfl (by decide), _, rfl⟩

theorem clean {s : State} (ho : s.others = [])
    (h : ∀ c ∈ [CacheName.icache, .dcache, .tcache, .scache], ∀ l ∈ s.caches.get c, l.dirty = false) : s.CleanLines := by
  intro core c t _
  cases core with
  | zero =>
    rw [State.line, slotLine, List.getD_eq_getElem?_getD]
    cases hl : (s.caches.get c)[t]? with
    | none => rw [State.arrays, hl]; rfl
    | some l => rw [State.arrays, hl]; exact h c (by cases c <;> simp) l (List.mem_of_getElem? hl)
  | succ k =>
    rw [State.line, State.arrays, ho]
    cases c <;> rfl

theorem witness_StepKeepsCleanLines : running.CleanLines ∧ ∃ t, step running = .next t := ⟨clean rfl (by decide), _, rfl⟩

theorem shaped {s : State} (ho : s.others = []) (hw : s.wbPending = []) (hm : ∀ cell ∈ s.mem, cell.1 < 2 ^ s.cfg.palen)
    (h : ∀ c ∈ [CacheName.icache, .dcache, .tcache, .scache], (s.caches.get c).length = s.cfg.slots c ∧
      ∀ l ∈ s.caches.get c, l.data.length = s.cfg.lineSize c ∧ l.addr % s.cfg.lineSize c = 0 ∧ l.addr < 2 ^ s.cfg.palen) :
    s.Shaped := by
  have h0 : ∀ core, core ≤ s.others.length → core = 0 := fun core hc => by simpa [ho] using hc
  have hc : ∀ c : CacheName, c ∈ [CacheName.icache, .dcache, .tcache, .scache] := fun c => by cases c <;> simp
  have hl : ∀ c t, t < s.cfg.slots c → s.line 0 c t ∈ s.caches.get c := by
    intro c t ht
    have hk : t < (s.caches.get c).length := by rw [(h c (hc c)).1]; exact ht
    rw [State.line, slotLine, List.getD_eq_getElem?_getD, State.arrays, List.getElem?_eq_getElem hk]
    exact List.getElem_mem hk
  refine ⟨fun core k c => ?_, fun core k c t ht => ?_, fun core k c t ht => ?_, by simp [hw], hm⟩
  · rw [h0 core k]; exact (h c (hc c)).1
  · rw [h0 core k]; exact ((h c (hc c)).2 _ (hl c t ht)).1
  · rw [h0 core k]; exact ((h c (hc c)).2 _ (hl c t ht)).2

theorem witness_StepKeepsShape : running.Shaped ∧ ∃ t, step running = .next t :=
  ⟨shaped rfl rfl (by decide) (by decide), _, rfl⟩

/-! ### Witnesses: the environment -/

/-- A core whose five cache fields are zero with a dirty locked line in a slot. -/
def coreless : State := put { held with cfg := { Config.standard with config1IL := 0, config1DL := 0, config2SL := 0, config2TL := 0 } }
  .dcache 6 (line true true true 0x4040)

/-- An eviction of an unlocked slot and of a locked one; an external invalidate of a valid slot, of one that is not valid, and on a cache that
is absent. -/
theorem witness_DisplacementResult :
    (held.line 0 .dcache 2).locked = false ∧ 2 < held.cfg.slots .dcache ∧ held.cfg.present .dcache = true ∧
    (∃ t, step { held with turns := [.env (.evict 0 .dcache 2)] } = .next t) ∧
    (held.line 0 .dcache 2).valid = true ∧ (∃ t, step { held with turns := [.env (.external 0 .dcache 2)] } = .next t) ∧
    (allLocked.line 0 .dcache 6).locked = true ∧ (∃ t, step { allLocked with turns := [.env (.evict 0 .dcache 6)] } = .next t) ∧
    (held.line 0 .dcache 0).valid = false ∧ (∃ t, step { held with turns := [.env (.external 0 .dcache 0)] } = .next t) ∧
    coreless.cfg.present .dcache = false ∧ 6 < coreless.cfg.slots .dcache ∧
    ∃ t, step { coreless with turns := [.env (.external 0 .dcache 6)] } = .next t :=
  ⟨by decide, by decide, by decide, ⟨_, rfl⟩, by decide, ⟨_, rfl⟩, by decide, ⟨_, rfl⟩, by decide, ⟨_, rfl⟩, by decide, by decide, _,
   rfl⟩

/-- A fill that is admitted, and one of a slot that is valid. -/
theorem witness_EnvironmentFillResult :
    held.cfg.present .dcache = true ∧ (held.line 0 .dcache 0).valid = false ∧ (held.line 0 .dcache 0).locked = false ∧
    Misses held 0 .dcache (held.cfg.lineAddr .dcache 0x7004) ∧ 0x7004 < 2 ^ held.cfg.palen ∧ 0 < held.cfg.slots .dcache ∧
    (held.line 0 .dcache 2).valid = true ∧
    (∃ t, step { held with turns := [.env (.fill 0 .dcache 0 0x7004)] } = .next t) ∧
    ∃ t, step { held with turns := [.env (.fill 0 .dcache 2 0x7004)] } = .next t :=
  ⟨by decide, by decide, by decide, hitSlot_eq_none_iff.1 (by decide), by decide, by decide, by decide, ⟨_, rfl⟩, _, rfl⟩

/-- Two records for one address: the first drains, the second does not. -/
def twoRecords (k : Nat) : State :=
  { held with wbPending := [⟨0x2040, bytesM⟩, ⟨0x2040, bytesB⟩], turns := [.env (.drain k)] }

theorem witness_DrainResult :
    (twoRecords 0).wbPending = [] ++ ⟨0x2040, bytesM⟩ :: [⟨0x2040, bytesB⟩] ∧ (twoRecords 0).CanonicalMemory ∧
    0x2040 + bytesM.length ≤ 2 ^ (twoRecords 0).cfg.palen ∧ (∃ t, step (twoRecords 0) = .next t) ∧
    (twoRecords 1).wbPending = [⟨0x2040, bytesM⟩] ++ ⟨0x2040, bytesB⟩ :: [] ∧ (∃ t, step (twoRecords 1) = .next t) :=
  ⟨rfl, by decide, by decide, ⟨_, rfl⟩, rfl, _, rfl⟩

theorem witness_SyncDrainsEverything : ∃ t, step { twoRecords 0 with turns := [.env .sync] } = .next t := ⟨_, rfl⟩

theorem witness_DrainKeepsMemView :
    (∀ p q, p ∈ (twoRecords 0).wbPending → q ∈ (twoRecords 0).wbPending →
      p.pa = q.pa ∨ p.pa + p.bytes.length ≤ q.pa ∨ q.pa + q.bytes.length ≤ p.pa) ∧
    ∀ p, p ∈ (twoRecords 0).wbPending → p.pa + p.bytes.length ≤ 2 ^ (twoRecords 0).cfg.palen := by
  constructor
  · intro p q hp hq
    simp only [twoRecords, List.mem_cons, List.not_mem_nil, or_false] at hp hq
    rcases hp with rfl | rfl <;> rcases hq with rfl | rfl <;> exact .inl rfl
  · intro p hp
    simp only [twoRecords, List.mem_cons, List.not_mem_nil, or_false] at hp
    rcases hp with rfl | rfl <;> decide

theorem witness_WrittenBackLineIsSeenByFills : CacheName.dcache ≠ .icache ∧ (held.cfg.cacheOf .dcache).writeThrough = false ∧
    EntersOp false (opOf 6#3 .dcache) (addressOf held 4 0) 0x2040 3 held ∧ held.cfg.isGlobalized (opOf 6#3 .dcache) 3 = false ∧
    held.UniqueLines ∧ held.CanonicalMemory ∧ Holds held 0 .dcache 2 (held.cfg.lineAddr .dcache 0x2040) ∧
    (held.line 0 .dcache 2).dirty = true ∧ (held.line 0 .dcache 2).data.length = held.cfg.lineSize .dcache ∧
    held.cfg.lineAddr .dcache 0x2040 + held.cfg.lineSize .dcache ≤ 2 ^ held.cfg.palen ∧
    ∃ t, exec (cacheop false (opOf 6#3 .dcache) 4 0) held = .next t :=
  ⟨by decide, rfl, enters (by decide), by decide, held_unique, by decide, by unfold Holds; decide, by decide, by decide, by decide,
   _, rfl⟩

end Sys2Proof.Tests
end

/-! SUPPORT. The frame of a step (spec/00_scope.md R4, spec/10_state.md R27): what no agent writes, what the environment does not write,
and what a step of the core is once its word is fetched and decoded. -/

namespace Sys2Proof.Machine

/-! ### The environment -/

/-- A part of the state that no small effect writes, and that holds no pending write-back and no memory, is as it was after a move of the
environment (R26, R27, R49). -/
theorem environmentStep_keeps {α : Type} {f : State → α} (hf : ∀ s t, Effect s t → f t = f s)
    (hm : ∀ (s : State) ps m, f { s with wbPending := ps, mem := m } = f s) (e : EnvStep) (s : State) :
    f (environmentStep e s) = f s := by
  rcases environmentStep_cases e s with h | ⟨_, _, _, _, _, h⟩ | h
  · exact h.keeps hf
  · rw [h, hm]
  · rw [h, State.synced, hm]

@[simp] theorem environmentStep_cfg (e : EnvStep) (s : State) : (environmentStep e s).cfg = s.cfg :=
  environmentStep_keeps (fun _ _ => Effect.cfg) (fun _ _ _ => rfl) e s
@[simp] theorem environmentStep_x (e : EnvStep) (s : State) : (environmentStep e s).x = s.x :=
  environmentStep_keeps (fun _ _ => Effect.x) (fun _ _ _ => rfl) e s
@[simp] theorem environmentStep_pc (e : EnvStep) (s : State) : (environmentStep e s).pc = s.pc :=
  environmentStep_keeps (fun _ _ => Effect.pc) (fun _ _ _ => rfl) e s
@[simp] theorem environmentStep_cp0Enabled (e : EnvStep) (s : State) : (environmentStep e s).cp0Enabled = s.cp0Enabled :=
  environmentStep_keeps (fun _ _ => Effect.cp0Enabled) (fun _ _ _ => rfl) e s

theorem KeepsTags.refl (s : State) : KeepsTags s s := ⟨rfl, rfl, rfl, rfl⟩

/-- Displacing a line writes back and invalidates, and Index Load Tag alone loads the tag registers. -/
theorem displace_keepsTags (s : State) (core : Nat) (c : CacheName) (t : Nat) : KeepsTags s (s.displace core c t) := by
  unfold State.displace
  split
  · constructor <;> simp
  · exact .refl s

theorem fillLine_keepsTags (s : State) (core : Nat) (c : CacheName) (t pa : Nat) : KeepsTags s (s.fillLine core c t pa) := by
  constructor <;> simp

theorem drain_keepsTags (s : State) (k : Nat) : KeepsTags s (s.drain k) := by
  rcases drain_cases s k with h | ⟨_, _, _, _, _, h⟩
  · rw [h]
    exact .refl s
  · rw [h]
    exact ⟨rfl, rfl, rfl, rfl⟩

/-- `environmentStep_cases` does not say this: its small effects are those of the core too, and these load the tag registers. -/
theorem environmentStep_keepsTags (e : EnvStep) (s : State) : KeepsTags s (environmentStep e s) := by
  cases e with
  | evict core c t =>
    rw [environmentStep_evict]
    split
    · exact .refl s
    · exact displace_keepsTags ..
  | external core c t =>
    rw [environmentStep_external]
    split
    · exact displace_keepsTags ..
    · exact .refl s
  | fill core c t pa =>
    rw [environmentStep_fill]
    split
    · exact fillLine_keepsTags ..
    · exact .refl s
  | drain k => exact drain_keepsTags s k
  | sync => exact ⟨rfl, rfl, rfl, rfl⟩

/-! ### The core -/

/-- A part of the state that no small effect writes, and that is neither the list of hardware errors nor `pc`, is as it was after an
instruction. -/
theorem exec_keeps {α : Type} {f : State → α} (hf : ∀ s t, Effect s t → f t = f s) (he : ∀ s : State, f s.errorTaken = f s)
    (ha : ∀ s : State, f s.advance = f s) {i : Instr} {s t : State} (h : exec i s = .next t) : f t = f s := by
  obtain ⟨u, hu, rfl | rfl⟩ := exec_effects h
  · rw [ha, hu.keeps hf]
  · rw [ha, he, hu.keeps hf]

theorem exec_cfg {i : Instr} {s t : State} (h : exec i s = .next t) : t.cfg = s.cfg :=
  exec_keeps (fun _ _ => Effect.cfg) (fun _ => rfl) (fun _ => rfl) h
theorem exec_x {i : Instr} {s t : State} (h : exec i s = .next t) : t.x = s.x :=
  exec_keeps (fun _ _ => Effect.x) (fun _ => rfl) (fun _ => rfl) h
theorem exec_cp0Enabled {i : Instr} {s t : State} (h : exec i s = .next t) : t.cp0Enabled = s.cp0Enabled :=
  exec_keeps (fun _ _ => Effect.cp0Enabled) (fun _ => rfl) (fun _ => rfl) h

/-! ### The step -/

/-- A part of the state that neither an instruction, nor the environment, nor taking the turn writes is as it was after a step. -/
theorem step_keeps {α : Type} {f : State → α} (hx : ∀ i s t, exec i s = .next t → f t = f s)
    (hv : ∀ e s, f (environmentStep e s) = f s) (ht : ∀ s : State, f s.turnTaken = f s) {s t : State} (h : step s = .next t) :
    f t = f s := by
  rcases step_next h with ⟨e, _, _, rfl⟩ | ⟨i, r, rfl | rfl, hi⟩
  · rw [hv, ht]
  · exact hx _ _ _ hi
  · rw [hx _ _ _ hi, ht]

theorem step_cfg {s t : State} (h : step s = .next t) : t.cfg = s.cfg :=
  step_keeps (fun _ _ _ => exec_cfg) environmentStep_cfg (fun _ => rfl) h
theorem step_x {s t : State} (h : step s = .next t) : t.x = s.x :=
  step_keeps (fun _ _ _ => exec_x) environmentStep_x (fun _ => rfl) h
theorem step_cp0Enabled {s t : State} (h : step s = .next t) : t.cp0Enabled = s.cp0Enabled :=
  step_keeps (fun _ _ _ => exec_cp0Enabled) environmentStep_cp0Enabled (fun _ => rfl) h

/-- Settles O48: what no agent writes by `step_keeps`, and the environment's frame by the kinds of its moves (R27). -/
theorem stepKeepsConfigurationAndRegisters : Obligations.StepKeepsConfigurationAndRegisters := by
  intro s t h
  refine ⟨step_cfg h, step_x h, step_cp0Enabled h, fun e ts hts => ?_⟩
  obtain rfl : environmentStep e s.turnTaken = t := next_inj (step_env hts ▸ h)
  obtain ⟨hlo, hhi, hdlo, hdhi⟩ := environmentStep_keepsTags e s.turnTaken
  exact ⟨environmentStep_pc .., hlo, hhi, hdlo, hdhi⟩

/-! ### Fetching -/

theorem fetchAddress_of_translate {s : State} {k : Word} {pa cca : Nat} (h : s.cfg.translate (s.pc + k) false = .ok pa cca) :
    s.fetchAddress k = some pa := by simp only [State.fetchAddress, h]

/-- The four bytes that are fetched where each byte's address translates (log entry 15). -/
theorem fetchBytes_of_translate {s : State} {pa0 pa1 pa2 pa3 cca0 cca1 cca2 cca3 : Nat}
    (h0 : s.cfg.translate s.pc false = .ok pa0 cca0) (h1 : s.cfg.translate (s.pc + 1#32) false = .ok pa1 cca1)
    (h2 : s.cfg.translate (s.pc + 2#32) false = .ok pa2 cca2) (h3 : s.cfg.translate (s.pc + 3#32) false = .ok pa3 cca3) :
    s.fetchBytes = some [readByte s.mem pa0, readByte s.mem pa1, readByte s.mem pa2, readByte s.mem pa3] := by
  have h0' : s.cfg.translate (s.pc + 0#32) false = .ok pa0 cca0 := by rwa [BitVec.add_zero]
  simp only [State.fetchBytes, fetchAddress_of_translate h0', fetchAddress_of_translate h1, fetchAddress_of_translate h2,
    fetchAddress_of_translate h3]

/-- Taking the turn changes nothing that a fetch reads. -/
@[simp] theorem fetchBytes_turnTaken (s : State) : s.turnTaken.fetchBytes = s.fetchBytes := rfl

theorem coreStep_of_decoded {s : State} {bytes rest : List Byte} {i : Instr} (hb : s.fetchBytes = some bytes)
    (hd : decodeBytes s.cfg.fetchOrder bytes = .ok (i, rest)) : coreStep s = exec i s := by simp only [coreStep, hb, hd]

/-- Where the core is to move, the step is its move with the turn taken, an empty list of turns included (log entry 23). -/
theorem step_of_coreTurn {s : State} (h : s.turns = [] ∨ ∃ ts, s.turns = .core :: ts) : step s = coreStep s.turnTaken := by
  rcases h with h | ⟨ts, h⟩
  · have ht : s.turnTaken = s := by rw [State.turnTaken, h, List.tail_nil, ← h]
    simp only [step, h, ht]
  · simp only [step, h]

/-- Settles O6: the turn is taken, the four bytes are fetched, and the decoded instruction runs. -/
theorem stepRunsDecodedInstruction : Obligations.StepRunsDecodedInstruction := by
  intro s pa0 pa1 pa2 pa3 cca0 cca1 cca2 cca3 i rest hturn h0 h1 h2 h3 hd
  have hb := fetchBytes_of_translate h0 h1 h2 h3
  calc step s = coreStep s.turnTaken := step_of_coreTurn hturn
    _ = exec i s.turnTaken := coreStep_of_decoded ((fetchBytes_turnTaken s).trans hb) hd

end Sys2Proof.Machine

/-! SUPPORT. The four invariants of the state (spec/10_state.md R24 to R28, R34): each is proved of the small effects, of a drain and of a
SYNC, and then holds of every step (`step_invariant`). -/

namespace Sys2Proof.Machine

/-! ### What a step keeps -/

/-- An invariant of the small effects that `pc` and the list of hardware errors do not enter is one of every instruction. -/
theorem exec_invariant {P : State → Prop} (he : ∀ s t, Effect s t → P s → P t) (hr : ∀ s : State, P s → P s.errorTaken)
    (ha : ∀ s : State, P s → P s.advance) {i : Instr} {s t : State} (h : exec i s = .next t) (hs : P s) : P t := by
  obtain ⟨u, hu, rfl | rfl⟩ := exec_effects h
  · exact ha _ (hu.invariant he hs)
  · exact ha _ (hr _ (hu.invariant he hs))

/-- An invariant of the small effects that a drain (R26) and a SYNC (R49) keep is one of every move of the environment. -/
theorem environmentStep_invariant {P : State → Prop} (he : ∀ s t, Effect s t → P s → P t)
    (hd : ∀ (s : State) before p after, s.wbPending = before ++ p :: after → P s →
      P { s with wbPending := before ++ after, mem := storePending s.cfg s.mem p })
    (hy : ∀ s : State, P s → P s.synced) (e : EnvStep) {s : State} (hs : P s) : P (environmentStep e s) := by
  rcases environmentStep_cases e s with h | ⟨_, _, _, hw, _, h⟩ | h
  · exact h.invariant he hs
  · exact h ▸ hd s _ _ _ hw hs
  · exact h ▸ hy s hs

/-- What the parts of a step keep, every step keeps (R27). -/
theorem step_invariant {P : State → Prop} (he : ∀ s t, Effect s t → P s → P t) (hr : ∀ s : State, P s → P s.errorTaken)
    (ha : ∀ s : State, P s → P s.advance) (ht : ∀ s : State, P s → P s.turnTaken)
    (hd : ∀ (s : State) before p after, s.wbPending = before ++ p :: after → P s →
      P { s with wbPending := before ++ after, mem := storePending s.cfg s.mem p })
    (hy : ∀ s : State, P s → P s.synced) {s t : State} (hs : P s) (h : step s = .next t) : P t := by
  rcases step_next h with ⟨e, _, _, rfl⟩ | ⟨i, r, rfl | rfl, hi⟩
  · exact environmentStep_invariant he hd hy e (ht s hs)
  · exact exec_invariant he hr ha hi hs
  · exact exec_invariant he hr ha hi (ht s hs)

/-! ### Canonical memory (log entry 13) -/

/-- Settles O49: only a drain and a SYNC write memory, and a store keeps the canonical form. -/
theorem stepKeepsCanonicalMemory : Obligations.StepKeepsCanonicalMemory := fun _ _ =>
  step_invariant (fun _ _ e hs => by simpa only [State.CanonicalMemory, e.mem] using hs) (fun _ => id) (fun _ => id) (fun _ => id)
    (fun s _ p _ _ hs => memoryWf_writeBytes s.cfg p.bytes s.mem p.pa hs) fun s hs => memoryWf_storeAll s.cfg s.wbPending s.mem hs

/-! ### What a small effect does to the line records -/

/-- The line arrays of every core are as they were. -/
structure SameArrays (s t : State) : Prop where
  caches : t.caches = s.caches
  others : t.others = s.others

theorem SameArrays.keepsLines {s t : State} (h : SameArrays s t) : KeepsLines s t := by
  intro core c u
  cases core <;> simp only [State.line, State.arrays, h.caches, h.others]

theorem SameArrays.arrays {s t : State} (h : SameArrays s t) (core : Nat) : t.arrays core = s.arrays core := by
  cases core <;> simp only [State.arrays, h.caches, h.others]

/-- A record that cache c can hold in a slot: a line of bytes at a line address that is a physical address (R23, R34). -/
structure LineShaped (cfg : Config) (c : CacheName) (l : Line) : Prop where
  data : l.data.length = cfg.lineSize c
  aligned : l.addr % cfg.lineSize c = 0
  addr : l.addr < 2 ^ cfg.palen

/-- What holds of every record l that an operation puts in slot k: it keeps the line that is there or holds one that no other slot
holds (R25), it is not dirty where the cache can hold no dirty line, unless the record there is (R24), and it has its shape (R23). -/
structure LineWrite (s : State) (core : Nat) (c : CacheName) (k : Nat) (l : Line) : Prop where
  slot : k < s.cfg.slots c
  unique : l.valid = true →
    Holds s core c k l.addr ∨ ∀ u, Holds s core c u l.addr → u = k
  clean : s.cfg.canBeDirty c = false → l.dirty = true → (s.line core c k).dirty = true
  shape : LineShaped s.cfg c (s.line core c k) → LineShaped s.cfg c l

/-- R25: a record that keeps the address and the shape of the one there, and becomes no more valid or dirty than it, may be put in the slot. -/
theorem LineWrite.ofFlags {s : State} {core : Nat} {c : CacheName} {k : Nat} {l : Line} (hk : k < s.cfg.slots c)
    (hv : l.valid = true → (s.line core c k).valid = true) (hd : l.dirty = true → (s.line core c k).dirty = true)
    (ha : l.addr = (s.line core c k).addr) (hb : l.data = (s.line core c k).data) : LineWrite s core c k l where
  slot := hk
  unique hl := .inl ⟨hk, hv hl, ha.symm⟩
  clean _ := hd
  shape h := ⟨hb ▸ h.data, ha ▸ h.aligned, ha ▸ h.addr⟩

/-- R107: no other slot holds the line. -/
theorem eq_of_not_heldElsewhere {s : State} {c : CacheName} {t a : Nat} (h : s.heldElsewhere c t a = false) :
    ∀ u, Holds s 0 c u a → u = t := by
  intro u hu
  simp only [State.heldElsewhere, List.any_eq_false, List.mem_range, Bool.and_eq_true, decide_eq_true_eq, not_and] at h
  obtain ⟨hlt, hl⟩ := holds_iff.1 hu
  exact Decidable.byContradiction fun hne => h u hlt hne hl

/-- R103: the record a fill makes, at a physical address. -/
theorem filledLine_shaped {s : State} {c : CacheName} {pa : Nat} (h : pa < 2 ^ s.cfg.palen) :
    LineShaped s.cfg c (s.filledLine c pa) :=
  have ⟨hdata, hmod, hlt⟩ := filledLine_shape h
  ⟨hdata, hmod, hlt⟩

/-- Everything a small effect can do to the line records: nothing, or a write of one record. -/
theorem Effect.line_cases {s t : State} (e : Effect s t) :
    SameArrays s t ∨ ∃ core c k l, SameArrays (s.setLine core c k l) t ∧ LineWrite s core c k l := by
  cases e with
  | writeBack core c k hk => exact .inl ⟨by simp, by simp⟩
  | invalidate core c k hk =>
    exact .inr ⟨core, c, k, (s.line core c k).invalidated, ⟨rfl, rfl⟩, .ofFlags hk nofun nofun rfl rfl⟩
  | clean core c k hk =>
    exact .inr ⟨core, c, k, (s.line core c k).cleaned, ⟨rfl, rfl⟩, .ofFlags hk id nofun rfl rfl⟩
  | fill core c k pa hk hpa hm =>
    have hmiss : Misses s core c (s.filledLine c pa).addr := hitSlot_eq_none_iff.1 hm
    exact .inr ⟨core, c, k, s.filledLine c pa, ⟨rfl, rfl⟩, hk, fun _ => .inr fun u hu => absurd hu (hmiss u), fun _ => nofun,
      fun _ => filledLine_shaped hpa⟩
  | refill c k pa lock hpa hh =>
    obtain ⟨hdata, hmod, haddr⟩ := filledLine_shaped (c := c) hpa
    exact .inr ⟨0, c, k, { s.filledLine c pa with locked := lock }, ⟨rfl, rfl⟩, (hitSlot_some hh).1,
      fun _ => .inl (holds_of_hitSlot hh), fun _ => nofun, fun _ => ⟨hdata, hmod, haddr⟩⟩
  | lock c k hk => exact .inr ⟨0, c, k, (s.line 0 c k).lockSet, ⟨rfl, rfl⟩, .ofFlags hk id id rfl rfl⟩
  | retag c k lo hi hk hn =>
    have hclean (hc : s.cfg.canBeDirty c = false) : (decodeTag s.cfg c lo hi).dirty = false := by simp [decodeTag, hc]
    exact .inr ⟨0, c, k, (s.line 0 c k).retagged (decodeTag s.cfg c lo hi), ⟨rfl, rfl⟩, hk,
      fun hv => .inr (eq_of_not_heldElsewhere (hn hv)), fun hc hd => absurd hd (Bool.eq_false_iff.1 (hclean hc)),
      fun h => ⟨h.data, decodeTag_addr_mod .., decodeTag_addr_lt ..⟩⟩
  | loadTag c lo hi => exact .inl ⟨rfl, rfl⟩
  | loadData lo hi => exact .inl ⟨by simp, by simp⟩
  | put c k l =>
    rcases writeSlot_cases s c k l with h | ⟨hk, r, h, hd, ha, hb, hn⟩
    · exact .inl (by rw [h]; exact ⟨rfl, rfl⟩)
    · have haddr : r.addr < 2 ^ s.cfg.palen := ha ▸ Nat.lt_of_le_of_lt (lineAddr_le ..) (phys_lt ..)
      exact .inr ⟨0, c, k, r, by rw [h]; exact ⟨rfl, rfl⟩, hk, fun hv => .inr (eq_of_not_heldElsewhere (hn hv)),
        fun hc => by simp [hd, hc], fun _ => ⟨by simp [hb], ha ▸ lineAddr_mod .., haddr⟩⟩
  | send c p => exact .inl ⟨rfl, rfl⟩
  | bus n => exact .inl ⟨rfl, rfl⟩
  | draw => exact .inl ⟨rfl, rfl⟩

/-- A property of the configuration and the line arrays that a write of a record keeps is one of every small effect. -/
theorem Effect.lines_invariant {P : State → Prop} (hsame : ∀ s t : State, t.cfg = s.cfg → SameArrays s t → P s → P t)
    (hset : ∀ (s : State) core c k l, LineWrite s core c k l → P s → P (s.setLine core c k l)) {s t : State} (e : Effect s t)
    (hs : P s) : P t := by
  rcases e.line_cases with h | ⟨core, c, k, l, h, w⟩
  · exact hsame s t e.cfg h hs
  · exact hsame _ t (by rw [e.cfg, setLine_cfg]) h (hset s core c k l w hs)

/-- What the line records alone decide, every step keeps when a write of a record keeps it. -/
theorem step_lines_invariant {P : State → Prop} (hsame : ∀ s t : State, t.cfg = s.cfg → SameArrays s t → P s → P t)
    (hset : ∀ (s : State) core c k l, LineWrite s core c k l → P s → P (s.setLine core c k l)) {s t : State} (hs : P s)
    (h : step s = .next t) : P t :=
  have same (s t : State) (hc : t.cfg = s.cfg) (h1 : t.caches = s.caches) (h2 : t.others = s.others) : P s → P t :=
    hsame s t hc ⟨h1, h2⟩
  step_invariant (fun _ _ e => e.lines_invariant hsame hset) (fun s => same s _ rfl rfl rfl) (fun s => same s _ rfl rfl rfl)
    (fun s => same s _ rfl rfl rfl) (fun s _ _ _ _ => same s _ rfl rfl rfl) (fun s => same s _ rfl rfl rfl) hs h

/-! ### At most one valid slot for a line (R25) -/

theorem uniqueLines_of_sameArrays (s t : State) (hc : t.cfg = s.cfg) (h : SameArrays s t) (hs : s.UniqueLines) :
    t.UniqueLines := by
  intro core c u v a hu hv
  simp only [Holds, hc, h.keepsLines core c] at hu hv
  exact hs core c u v a hu hv

/-- What a slot holds after a write of a record: what it held, or the line of the record. -/
theorem holds_setLine {s : State} {core k t u a : Nat} {c d : CacheName} {l : Line} (h : Holds (s.setLine core c t l) k d u a) :
    Holds s k d u a ∨ (k = core ∧ d = c ∧ u = t ∧ l.valid = true ∧ l.addr = a) := by
  rw [Holds, setLine_cfg, line_setLine] at h
  split at h
  · rename_i hp
    obtain ⟨hk, _, hd, hu⟩ := hp
    exact .inr ⟨hk, hd, hu, h.2⟩
  · exact .inl h

/-- R25: an operation that puts a record in a slot looked for its line first. -/
theorem uniqueLines_setLine (s : State) (core : Nat) (c : CacheName) (t : Nat) (l : Line) (w : LineWrite s core c t l)
    (hs : s.UniqueLines) : (s.setLine core c t l).UniqueLines := by
  have own : l.valid = true → ∀ u, Holds s core c u l.addr → u = t := by
    intro hl
    rcases w.unique hl with h | h
    · exact fun u hu => hs core c u t _ hu h
    · exact h
  intro k d u v a hu hv
  rcases holds_setLine hu with hou | ⟨rfl, rfl, rfl, hl, rfl⟩
  · rcases holds_setLine hv with hov | ⟨rfl, rfl, rfl, hl, rfl⟩
    · exact hs k d u v a hou hov
    · exact own hl u hou
  · rcases holds_setLine hv with hov | ⟨_, _, rfl, _⟩
    · exact (own hl v hov).symm
    · rfl

/-- Settles O50: every record that is put in a slot keeps uniqueness, and nothing else touches a line record. -/
theorem stepKeepsUniqueLines : Obligations.StepKeepsUniqueLines := fun _ _ =>
  step_lines_invariant uniqueLines_of_sameArrays uniqueLines_setLine

/-! ### Clean lines (R24) -/

/-- R24 (a), (b): the caches whose lines cannot be dirty. -/
theorem canBeDirty_eq_false_iff {cfg : Config} {c : CacheName} :
    cfg.canBeDirty c = false ↔ c = .icache ∨ (cfg.cacheOf c).writeThrough = true := by
  cases h : (cfg.cacheOf c).writeThrough <;> simp [Config.canBeDirty, h]

theorem cleanLines_of_sameArrays (s t : State) (hc : t.cfg = s.cfg) (h : SameArrays s t) (hs : s.CleanLines) :
    t.CleanLines := by
  intro core c u hd
  rw [hc] at hd
  rw [h.keepsLines core c u]
  exact hs core c u hd

/-- R24: a record that is put in a slot is dirty only where the cache can hold a dirty line. -/
theorem cleanLines_setLine (s : State) (core : Nat) (c : CacheName) (t : Nat) (l : Line) (w : LineWrite s core c t l)
    (hs : s.CleanLines) : (s.setLine core c t l).CleanLines := by
  intro k d u hd
  rw [setLine_cfg] at hd
  rw [line_setLine]
  split
  · rename_i hp
    obtain ⟨_, _, rfl, _⟩ := hp
    have hold := hs core d t hd
    exact Bool.eq_false_iff.2 fun hl => by simp [w.clean (canBeDirty_eq_false_iff.2 hd) hl] at hold
  · exact hs k d u hd

/-- Settles O51: every record that is put in a slot keeps the lines clean, and nothing else touches a line record. -/
theorem stepKeepsCleanLines : Obligations.StepKeepsCleanLines := fun _ _ =>
  step_lines_invariant cleanLines_of_sameArrays cleanLines_setLine

/-! ### Shape (R23, R26, R34) -/

/-- The part of the shape that is about the line records. -/
def State.LinesShaped (s : State) : Prop := ∀ core, core ≤ s.others.length → ∀ c,
  ((s.arrays core).get c).length = s.cfg.slots c ∧ ∀ t, t < s.cfg.slots c → LineShaped s.cfg c (s.line core c t)

theorem shaped_iff {s : State} : s.Shaped ↔
    s.LinesShaped ∧ (∀ p ∈ s.wbPending, WholeLine s p) ∧ ∀ cell ∈ s.mem, cell.1 < 2 ^ s.cfg.palen := by
  constructor
  · rintro ⟨hslots, hdata, haddr, hpend, hmem⟩
    exact ⟨fun k hk c => ⟨hslots k hk c, fun t ht => ⟨hdata k hk c t ht, (haddr k hk c t ht).1, (haddr k hk c t ht).2⟩⟩,
      hpend, hmem⟩
  · rintro ⟨hl, hpend, hmem⟩
    exact ⟨fun k hk c => (hl k hk c).1, fun k hk c t ht => ((hl k hk c).2 t ht).data,
      fun k hk c t ht => ⟨((hl k hk c).2 t ht).aligned, ((hl k hk c).2 t ht).addr⟩, hpend, hmem⟩

theorem linesShaped_of_sameArrays (s t : State) (hc : t.cfg = s.cfg) (h : SameArrays s t) (hs : s.LinesShaped) :
    t.LinesShaped := by
  intro core hk c
  simp only [hc, h.arrays, h.keepsLines core c]
  exact hs core (h.others ▸ hk) c

/-- The number of records of a core's cache is as it was after a write of a record in a slot (R23). -/
theorem length_arrays_setLine (s : State) (core k : Nat) (c d : CacheName) {t : Nat} (l : Line)
    (ht : t < ((s.arrays core).get c).length) :
    (((s.setLine core c t l).arrays k).get d).length = ((s.arrays k).get d).length := by
  rw [State.setLine, arrays_setArrays]
  split
  · rename_i hp
    obtain ⟨rfl, _⟩ := hp
    by_cases hd : d = c
    · subst hd
      rw [PerCache.get_set_self, length_putLine _ _ ht]
    · rw [PerCache.get_set_ne _ _ hd]
  · rfl

/-- R23: a record that is put in a slot has its shape. -/
theorem linesShaped_setLine (s : State) (core : Nat) (c : CacheName) (t : Nat) (l : Line) (w : LineWrite s core c t l)
    (hs : s.LinesShaped) : (s.setLine core c t l).LinesShaped := by
  intro k hk d
  rw [setLine_others_length] at hk
  rw [setLine_cfg]
  refine ⟨?_, fun u hu => ?_⟩
  · by_cases hc : core ≤ s.others.length
    · rw [length_arrays_setLine _ _ _ _ _ _ ((hs core hc c).1.symm ▸ w.slot)]
      exact (hs k hk d).1
    · rw [State.setLine, arrays_setArrays, if_neg fun h => hc h.2]
      exact (hs k hk d).1
  · rw [line_setLine]
    split
    · rename_i hp
      obtain ⟨rfl, _, rfl, rfl⟩ := hp
      exact w.shape ((hs k hk d).2 u hu)
    · exact (hs k hk d).2 u hu

/-- A core that does not exist has no record. -/
theorem line_of_lt {s : State} {core : Nat} (h : s.others.length < core) (c : CacheName) (t : Nat) :
    s.line core c t = Line.blank := by
  obtain ⟨k, rfl⟩ : ∃ k, core = k + 1 := ⟨core - 1, by omega⟩
  have hk : s.others.length ≤ k := Nat.lt_succ_iff.1 h
  rw [State.line, State.arrays, List.getD_eq_default _ _ hk]
  cases c <;> rfl

/-- R102: a record that is written back belongs to a core that exists, is valid, and is the one write-back that is added. -/
theorem mem_writtenBack {s : State} {core : Nat} {c : CacheName} {t : Nat} {p : Pending}
    (h : p ∈ writtenBack s c (s.line core c t)) :
    core ≤ s.others.length ∧ p = ⟨(s.line core c t).addr, (s.line core c t).data⟩ := by
  unfold writtenBack at h
  split at h
  · rename_i hw
    obtain ⟨_, hv, _⟩ := hw
    refine ⟨Nat.not_lt.1 fun hlt => ?_, List.mem_singleton.1 h⟩
    rw [line_of_lt hlt] at hv
    cases hv
  · cases h

/-- R44: a write-back that an implementation dependent operation starts is one of a line. -/
theorem wholeLine_fitted (s : State) (c : CacheName) (p : Pending) : WholeLine s (p.fitted s.cfg c) :=
  ⟨c, length_fitBytes .., lineAddr_mod .., Nat.lt_of_le_of_lt (lineAddr_le ..) (phys_lt ..)⟩

/-- R26, R183: a small effect adds pending write-backs at the end, and each is one of a whole line. -/
theorem Effect.wbPending {s t : State} (e : Effect s t) :
    ∃ new, t.wbPending = s.wbPending ++ new ∧ (s.LinesShaped → ∀ p ∈ new, WholeLine s p) := by
  have nothing {u : State} (h : u.wbPending = s.wbPending) :
      ∃ new, u.wbPending = s.wbPending ++ new ∧ (s.LinesShaped → ∀ p ∈ new, WholeLine s p) :=
    ⟨[], by simp [h], fun _ => nofun⟩
  cases e with
  | writeBack core c k hk =>
    refine ⟨_, wbPending_writeBackLine .., fun hs p hp => ?_⟩
    obtain ⟨hcore, rfl⟩ := mem_writtenBack hp
    obtain ⟨hdata, hmod, haddr⟩ := (hs core hcore c).2 k hk
    exact ⟨c, hdata, hmod, haddr⟩
  | send c p => exact ⟨_, rfl, fun _ q hq => List.mem_singleton.1 hq ▸ wholeLine_fitted s c p⟩
  | _ => exact nothing (by simp)

/-- A pending write-back is a whole line by the configuration alone. -/
theorem WholeLine.of_cfg {s t : State} {p : Pending} (h : t.cfg = s.cfg) (hp : WholeLine s p) : WholeLine t p := by
  rwa [WholeLine, h]

theorem Effect.shaped {s t : State} (e : Effect s t) (hs : s.Shaped) : t.Shaped := by
  obtain ⟨hl, hp, hm⟩ := shaped_iff.1 hs
  obtain ⟨new, hw, hnew⟩ := e.wbPending
  refine shaped_iff.2 ⟨e.lines_invariant linesShaped_of_sameArrays linesShaped_setLine hl, fun p hp' => ?_, ?_⟩
  · rw [hw, List.mem_append] at hp'
    exact .of_cfg e.cfg (hp'.elim (hp p) (hnew hl p))
  · rw [e.mem, e.cfg]
    exact hm

/-- Storing pending write-backs lists only physical addresses. -/
theorem storeAll_lt (cfg : Config) (ps : List Pending) : ∀ m : List Host.Cell,
    (∀ cell ∈ m, cell.1 < 2 ^ cfg.palen) → ∀ cell ∈ storeAll cfg m ps, cell.1 < 2 ^ cfg.palen := by
  induction ps with
  | nil => exact fun _ h => h
  | cons p ps ih => exact fun m h => ih _ (writeBytes_lt _ _ _ _ h)

/-- Pending write-backs that leave the list and memory that is written at physical addresses keep the shape (R26, R49). -/
theorem State.Shaped.withPending {s : State} (hs : s.Shaped) {ps : List Pending} {m : List Host.Cell}
    (hp : ∀ p ∈ ps, p ∈ s.wbPending) (hm : ∀ cell ∈ m, cell.1 < 2 ^ s.cfg.palen) :
    ({ s with wbPending := ps, mem := m } : State).Shaped := by
  obtain ⟨hl, hpend, _⟩ := shaped_iff.1 hs
  exact shaped_iff.2 ⟨linesShaped_of_sameArrays s _ rfl ⟨rfl, rfl⟩ hl, fun p hp' => .of_cfg rfl (hpend p (hp p hp')), hm⟩

/-- Taking a turn, completion and an error that is used up write no field that the shape speaks of. -/
theorem State.Shaped.of_fields {s t : State} (hs : s.Shaped) (hc : t.cfg = s.cfg) (h : SameArrays s t)
    (hp : t.wbPending = s.wbPending) (hm : t.mem = s.mem) : t.Shaped := by
  obtain ⟨hl, hpend, hmem⟩ := shaped_iff.1 hs
  exact shaped_iff.2 ⟨linesShaped_of_sameArrays s t hc h hl, fun p hp' => .of_cfg hc (hpend p (hp ▸ hp')), by rwa [hm, hc]⟩

/-- Settles O52: a small effect keeps the shape, and a drain and a SYNC only store what was pending. -/
theorem stepKeepsShape : Obligations.StepKeepsShape := fun _ _ =>
  step_invariant (fun _ _ => Effect.shaped) (fun _ hs => hs.of_fields rfl ⟨rfl, rfl⟩ rfl rfl)
    (fun _ hs => hs.of_fields rfl ⟨rfl, rfl⟩ rfl rfl) (fun _ hs => hs.of_fields rfl ⟨rfl, rfl⟩ rfl rfl)
    (fun s before p after hw hs => hs.withPending (fun q hq => by rw [hw]; simp at hq ⊢; tauto) (writeBytes_lt _ _ _ _ hs.mem))
    fun s hs => hs.withPending nofun (storeAll_lt _ _ _ hs.mem)

end Sys2Proof.Machine

/-! SUPPORT. What the operations write besides the line records (spec/40_cache.md R64, R81, spec/41_cache_operations.md R106, R142, R183): the
operations by shape, said once (`operation_runs`), and what each shape leaves as it was. -/

namespace Sys2Proof

/-! ### Which operations there are (R63, R64) -/

theorem opRequired_of_mem : ∀ op : BitVec 5, op.toNat ∈ [0, 1, 2, 3, 8, 9, 10, 11, 16] → opRequired op = true := by decide

theorem opUnused_of_mem : ∀ op : BitVec 5, op.toNat ∈ [24, 30, 31] → opUnused op = true := by decide

/-- R62: a value of op is a kind of operation and a cache. -/
theorem opOf_opKind_opCache : ∀ op : BitVec 5, opOf (opKind op) (opCache op) = op := by decide

/-- Settles O15: the availability words of R64, and R22 by the definition of a cache that is present. -/
theorem availabilityOfOperations : Obligations.AvailabilityOfOperations := by
  intro cfg op
  refine ⟨fun hr hp => opImplemented_of_required (opRequired_of_mem op hr) hp, fun h => (opImplemented_present h).2,
    fun hu => ?_, fun h1 h2 h3 h4 h5 => present_of_noCaches (by simp [Config.noCaches, h1, h2, h3, h4, h5]) _⟩
  exact Bool.eq_false_iff.2 fun hi => Bool.eq_false_iff.1 (opImplemented_present hi).1 (opUnused_of_mem op hu)

namespace Machine

/-! ### Completion (R81) -/

/-- Settles O44: no small effect writes what completion keeps, and `pc` moves once, at the end. -/
theorem completionMovesPcAndWritesNoGeneralRegister : Obligations.CompletionMovesPcAndWritesNoGeneralRegister := by
  intro i s t h
  have hmem : t.mem = s.mem := exec_keeps (fun _ _ => Effect.mem) (fun _ => rfl) (fun _ => rfl) h
  have hturns : t.turns = s.turns := exec_keeps (fun _ _ => Effect.turns) (fun _ => rfl) (fun _ => rfl) h
  refine ⟨?_, exec_cfg h, exec_x h, exec_cp0Enabled h, fun a => by rw [hmem], hturns⟩
  obtain ⟨u, hu, rfl | rfl⟩ := exec_effects h
  · rw [advance_pc, hu.pc]
  · rw [advance_pc, errorTaken_pc, hu.pc]

/-! ### Index Load Tag (R106) -/

@[simp] theorem tagRegShared_self (cfg : Config) (c : CacheName) : cfg.tagRegShared c c = true := decide_eq_true rfl

@[simp] theorem errorTaken_tagLoOf (s : State) (d : CacheName) : s.errorTaken.tagLoOf d = s.tagLoOf d := rfl
@[simp] theorem errorTaken_tagHiOf (s : State) (d : CacheName) : s.errorTaken.tagHiOf d = s.tagHiOf d := rfl
@[simp] theorem advance_tagLoOf (s : State) (d : CacheName) : s.advance.tagLoOf d = s.tagLoOf d := rfl
@[simp] theorem advance_tagHiOf (s : State) (d : CacheName) : s.advance.tagHiOf d = s.tagHiOf d := rfl

/-- R19: where the data registers are not implemented, Index Load Tag leaves them alone. -/
theorem loadData_absent {s : State} (h : s.cfg.dataRegs = false) : s.loadData = s.drawn.drawn := by
  rw [State.loadData, setData_absent _ _ _ h]

/-- Settles O21: the operation is entered, and its result is read off field by field. -/
theorem indexLoadTagResult : Obligations.IndexLoadTagResult := by
  intro isEva c rs offset s pa cca slot he hslot
  subst hslot
  have hx := exec_of_entersOp he
  rw [operation_indexLoadTag, indexLoadTag, andThen_next] at hx
  obtain ⟨hpc, hm⟩ := completionMovesPcAndWritesNoGeneralRegister _ _ _ hx
  refine ⟨_, hx, ?_, ?_, fun d hd => ⟨?_, ?_⟩, fun hd => ?_, fun core d u => ?_, ?_, hm, hpc⟩
  · simp [setTag_tagLoOf]
  · simp [setTag_tagHiOf]
  · simp [setTag_tagLoOf, hd]
  · simp [setTag_tagHiOf, hd]
  · simp [loadData_absent, hd]
  · simp
  · simp

/-! ### The shapes of the operations -/

/-- The operation of op that completed, by its shape (R110 to R141). -/
inductive Runs (va : Word) (pa cca : Nat) (s t : State) : BitVec 5 → Prop where
  | indexInvalidate : indexInvalidate .icache va s = .next t → Runs va pa cca s t (opOf 0#3 .icache)
  | indexWriteBackInvalidate (c : CacheName) : c ≠ .icache → indexWriteBackInvalidate c va s = .next t →
      Runs va pa cca s t (opOf 0#3 c)
  | indexLoadTag (c : CacheName) : indexLoadTag c va s = .next t → Runs va pa cca s t (opOf 1#3 c)
  | indexStoreTag (c : CacheName) : indexStoreTag c va s = .next t → Runs va pa cca s t (opOf 2#3 c)
  | implDep (c : CacheName) : implDep (opOf 3#3 c) va pa cca s = .next t → Runs va pa cca s t (opOf 3#3 c)
  | hitInvalidate (c : CacheName) : hitInvalidate (opOf 4#3 c) c pa cca s = .next t → Runs va pa cca s t (opOf 4#3 c)
  | fill : fill .icache va pa s = .next t → Runs va pa cca s t (opOf 5#3 .icache)
  | hitWriteBackInvalidate (c : CacheName) : c ≠ .icache → hitWriteBackInvalidate (opOf 5#3 c) c pa cca s = .next t →
      Runs va pa cca s t (opOf 5#3 c)
  | hitWriteBack (c : CacheName) : c ≠ .icache → hitWriteBack (opOf 6#3 c) c pa cca s = .next t →
      Runs va pa cca s t (opOf 6#3 c)
  | fetchAndLock (c : CacheName) : c = .icache ∨ c = .dcache → fetchAndLock c va pa s = .next t →
      Runs va pa cca s t (opOf 7#3 c)

/-- The values 24, 30 and 31 select nothing (R134, R140, R141). -/
theorem operation_unused {op : BitVec 5} (h : opUnused op = true) (va : Word) (pa cca : Nat) (s : State) :
    operation op va pa cca s = .refused (.opSelectsNothing op) := by
  simp only [opUnused, Bool.or_eq_true, decide_eq_true_eq] at h
  rcases h with (rfl | rfl) | rfl <;> rfl

theorem kind_cases : ∀ k : BitVec 3, k = 0#3 ∨ k = 1#3 ∨ k = 2#3 ∨ k = 3#3 ∨ k = 4#3 ∨ k = 5#3 ∨ k = 6#3 ∨ k = 7#3 := by
  decide

/-- R100: an operation that completes has one of the ten shapes, by the kind and the cache of op. -/
theorem operation_runs {op : BitVec 5} {va : Word} {pa cca : Nat} {s t : State} (h : operation op va pa cca s = .next t) :
    Runs va pa cca s t op := by
  rw [← opOf_opKind_opCache op] at h ⊢
  generalize opKind op = k, opCache op = c at h ⊢
  rcases kind_cases k with rfl | rfl | rfl | rfl | rfl | rfl | rfl | rfl
  · by_cases hc : c = .icache
    · exact hc ▸ .indexInvalidate (by rwa [hc] at h)
    · exact .indexWriteBackInvalidate c hc (operation_indexWriteBackInvalidate c va pa cca s hc ▸ h)
  · exact .indexLoadTag c (operation_indexLoadTag c va pa cca s ▸ h)
  · exact .indexStoreTag c (operation_indexStoreTag c va pa cca s ▸ h)
  · exact .implDep c (operation_implDep c va pa cca s ▸ h)
  · exact .hitInvalidate c (operation_hitInvalidate c va pa cca s ▸ h)
  · by_cases hc : c = .icache
    · exact hc ▸ .fill (by rwa [hc] at h)
    · exact .hitWriteBackInvalidate c hc (operation_hitWriteBackInvalidate c va pa cca s hc ▸ h)
  · by_cases hc : c = .icache
    · subst hc
      cases operation_unused (op := opOf 6#3 .icache) (by decide) va pa cca s ▸ h
    · exact .hitWriteBack c hc (operation_hitWriteBack c va pa cca s hc ▸ h)
  · by_cases hc : c = .icache ∨ c = .dcache
    · exact .fetchAndLock c hc (operation_fetchAndLock c va pa cca s hc ▸ h)
    · have hu : opUnused (opOf 7#3 c) = true := by revert hc; cases c <;> decide
      cases operation_unused hu va pa cca s ▸ h

/-- What an instruction that completes leaves as it was where `pc` and the list of hardware errors do not enter: everything when the address
is uncached, else what the operation leaves as it was. -/
theorem cacheop_keeps {α : Type} {f : State → α} (he : ∀ s : State, f s.errorTaken = f s) (ha : ∀ s : State, f s.advance = f s)
    {isEva : Bool} {op rs : BitVec 5} {offset : Int} {s t : State} (h : exec (cacheop isEva op rs offset) s = .next t)
    (hop : ∀ va pa cca u, Runs va pa cca s u op → f u = f s) : f t = f s := by
  rw [exec_cacheop] at h
  obtain ⟨pa, cca, _, ⟨_, _, rfl⟩ | ⟨_, u, hc, rfl⟩⟩ := cacheInstr_next h
  · exact ha s
  · obtain ⟨_, v, hv, rfl⟩ := cacheOp_next hc
    rw [ha, he]
    exact hop _ _ _ _ (operation_runs hv)

/-! ### What a shape leaves as it was -/

section
variable {α : Type} {f : State → α} {c : CacheName} {s t : State}

theorem eachCore_keeps {act : Nat → State → Result} (hact : ∀ k s t, act k s = .next t → f t = f s) :
    ∀ (ks : List Nat) (s t : State), eachCore act ks s = .next t → f t = f s := by
  intro ks
  induction ks with
  | nil => exact fun s t h => next_inj h ▸ rfl
  | cons k ks ih =>
    intro s t h
    obtain ⟨u, hu, h⟩ := andThen_eq_next h
    exact (ih u t h).trans (hact k s u hu)

variable (hset : ∀ (s : State) core c k l, f (s.setLine core c k l) = f s)
include hset

theorem indexInvalidate_keeps {va : Word} (h : indexInvalidate c va s = .next t) : f t = f s :=
  next_inj (ownLineCheck_next h).2 ▸ hset ..

theorem indexStoreTag_keeps {va : Word} (h : indexStoreTag c va s = .next t) : f t = f s := by
  unfold indexStoreTag storeTag at h
  split at h
  · cases h
  · split at h
    · cases h
    · exact next_inj h ▸ hset ..

theorem hitInvalidate_keeps {op : BitVec 5} {pa cca : Nat} (h : hitInvalidate op c pa cca s = .next t) : f t = f s := by
  refine eachCore_keeps (fun core s t h => ?_) _ s t h
  unfold hitInvalidateOn at h
  split at h
  · exact next_inj h ▸ rfl
  · exact next_inj (ownLineCheck_next h).2 ▸ hset ..

variable (hbus : ∀ (s : State) n, f (s.busOp n) = f s) (hdraw : ∀ s : State, f s.drawn = f s)

include hbus in
theorem fillLine_keeps (s : State) (core : Nat) (c : CacheName) (k pa : Nat) : f (s.fillLine core c k pa) = f s :=
  (hbus _ _).trans (hset ..)

include hbus hdraw in
theorem fill_keeps {va : Word} {pa : Nat} (h : fill c va pa s = .next t) : f t = f s := by
  unfold fill at h
  split at h
  · obtain rfl := next_inj h
    rw [hdraw, refill]
    split
    · rfl
    · rw [hbus, hset]
  · obtain ⟨v, _, _, h⟩ := chooseVictim_next h
    obtain rfl := next_inj h
    rw [hdraw, fillLine_keeps hset hbus]

variable (hwb : ∀ (s : State) core k, f (s.writeBackLine core c k) = f s)
include hwb

theorem indexWriteBackInvalidate_keeps {va : Word} (h : indexWriteBackInvalidate c va s = .next t) : f t = f s := by
  obtain rfl := next_inj (ownLineCheck_next h).2
  rw [State.invalidateSlot, hset, hwb]

theorem hitWriteBackInvalidate_keeps {op : BitVec 5} {pa cca : Nat} (h : hitWriteBackInvalidate op c pa cca s = .next t) :
    f t = f s := by
  refine eachCore_keeps (fun core s t h => ?_) _ s t h
  unfold hitWriteBackInvalidateOn at h
  split at h
  · exact next_inj h ▸ rfl
  · obtain rfl := next_inj (ownLineCheck_next h).2
    rw [State.invalidateSlot, hset, hwb]

theorem hitWriteBack_keeps {op : BitVec 5} {pa cca : Nat} (h : hitWriteBack op c pa cca s = .next t) : f t = f s := by
  refine eachCore_keeps (fun core s t h => ?_) _ s t h
  unfold hitWriteBackOn at h
  split at h
  · exact next_inj h ▸ rfl
  · split at h
    · obtain rfl := next_inj h
      rw [hset, hwb]
    · exact next_inj h ▸ rfl

include hbus in
theorem fetchAndLockLine_keeps {va : Word} {pa choice : Nat} (h : fetchAndLockLine c va pa choice s = .next t) :
    f t = f s := by
  unfold fetchAndLockLine at h
  split at h
  · exact next_inj (lockAllWaysCheck_next h).2 ▸ hset ..
  · obtain ⟨v, _, _, h⟩ := chooseVictim_next h
    obtain rfl := next_inj (lockAllWaysCheck_next h).2
    rw [hset, fillLine_keeps hset hbus, hwb]

include hbus hdraw in
theorem fetchAndLock_keeps {va : Word} {pa : Nat} (h : fetchAndLock c va pa s = .next t) : f t = f s := by
  unfold fetchAndLock at h
  generalize s.cfg.lockTargets c va pa = qs at h
  induction qs generalizing s with
  | nil => exact next_inj h ▸ rfl
  | cons q qs ih =>
    obtain ⟨u, hu, h⟩ := andThen_eq_next h
    rw [ih h, hdraw, fetchAndLockLine_keeps hset hbus hwb hu]

end

/-! ### The tag and data registers (R18, R19) -/

/-- The tag and data registers. -/
def State.tagRegs (s : State) : PerCache Word × PerCache Word × Word × Word := (s.tagLo, s.tagHi, s.dataLo, s.dataHi)

theorem keepsTags_iff {s t : State} : KeepsTags s t ↔ t.tagRegs = s.tagRegs := by
  simp only [State.tagRegs, Prod.mk.injEq]
  exact ⟨fun ⟨h1, h2, h3, h4⟩ => ⟨h1, h2, h3, h4⟩, fun ⟨h1, h2, h3, h4⟩ => ⟨h1, h2, h3, h4⟩⟩

@[simp] theorem setLine_tagRegs (s : State) (core : Nat) (c : CacheName) (k : Nat) (l : Line) :
    (s.setLine core c k l).tagRegs = s.tagRegs := by simp [State.tagRegs]
@[simp] theorem writeBackLine_tagRegs (s : State) (core : Nat) (c : CacheName) (k : Nat) :
    (s.writeBackLine core c k).tagRegs = s.tagRegs := by simp [State.tagRegs]

/-- R142: of the shapes, only Index Load Tag and the implementation dependent operations write the tag and data registers. -/
theorem Runs.tagRegs {va : Word} {pa cca : Nat} {s t : State} {op : BitVec 5} (h : Runs va pa cca s t op)
    (hload : opKind op ≠ 1#3) (himpl : opKind op ≠ 3#3) : t.tagRegs = s.tagRegs := by
  have hbus (s : State) (n : Nat) : (s.busOp n).tagRegs = s.tagRegs := rfl
  have hdraw (s : State) : s.drawn.tagRegs = s.tagRegs := rfl
  cases h with
  | indexInvalidate h => exact indexInvalidate_keeps setLine_tagRegs h
  | indexWriteBackInvalidate c _ h =>
    exact indexWriteBackInvalidate_keeps setLine_tagRegs (fun s k => writeBackLine_tagRegs s k c) h
  | indexLoadTag c h => exact absurd (opKind_opOf ..) hload
  | indexStoreTag c h => exact indexStoreTag_keeps setLine_tagRegs h
  | implDep c h => exact absurd (opKind_opOf ..) himpl
  | hitInvalidate c h => exact hitInvalidate_keeps setLine_tagRegs h
  | fill h => exact fill_keeps setLine_tagRegs hbus hdraw h
  | hitWriteBackInvalidate c _ h =>
    exact hitWriteBackInvalidate_keeps setLine_tagRegs (fun s k => writeBackLine_tagRegs s k c) h
  | hitWriteBack c _ h => exact hitWriteBack_keeps setLine_tagRegs (fun s k => writeBackLine_tagRegs s k c) h
  | fetchAndLock c _ h =>
    exact fetchAndLock_keeps setLine_tagRegs hbus hdraw (fun s k => writeBackLine_tagRegs s k c) h

theorem opKind_ne_loadTag : ∀ op : BitVec 5, ¬(4 ≤ op.toNat ∧ op.toNat ≤ 7) → opKind op ≠ 1#3 := by decide

theorem opKind_ne_implDep : ∀ op : BitVec 5, ¬(12 ≤ op.toNat ∧ op.toNat ≤ 15) → opKind op ≠ 3#3 := by decide

/-- Settles O45: by the shapes of the operations. -/
theorem onlyLoadTagWritesTagRegisters : Obligations.OnlyLoadTagWritesTagRegisters := by
  intro isEva op rs offset s t h hload himpl
  exact keepsTags_iff.2 (cacheop_keeps (fun _ => rfl) (fun _ => rfl) h fun _ _ _ _ hr =>
    hr.tagRegs (opKind_ne_loadTag op hload) (opKind_ne_implDep op himpl))

/-! ### The pending write-backs (R26, R183) -/

/-- R24, R102: no line of the instruction cache is dirty, so none is written back. -/
theorem writeBackLine_icache (s : State) (core k : Nat) : s.writeBackLine core .icache k = s := by
  simp [State.writeBackLine, Line.mustWriteBack, Config.canBeDirty]

/-- R183: the shapes that add nothing. -/
theorem Runs.wbPending {va : Word} {pa cca : Nat} {s t : State} {op : BitVec 5} (h : Runs va pa cca s t op)
    (hop : op.toNat ∉ [1, 2, 3, 21, 22, 23, 25, 26, 27, 29, 12, 13, 14, 15]) : t.wbPending = s.wbPending := by
  cases h with
  | indexInvalidate h => exact indexInvalidate_keeps setLine_wbPending h
  | indexWriteBackInvalidate c hc h => exact absurd (by revert hc; cases c <;> decide) hop
  | indexLoadTag c h => exact next_inj h ▸ by simp
  | indexStoreTag c h => exact indexStoreTag_keeps setLine_wbPending h
  | implDep c h => exact absurd (by cases c <;> decide) hop
  | hitInvalidate c h => exact hitInvalidate_keeps setLine_wbPending h
  | fill h => exact fill_keeps setLine_wbPending (fun _ _ => rfl) (fun _ => rfl) h
  | hitWriteBackInvalidate c hc h => exact absurd (by revert hc; cases c <;> decide) hop
  | hitWriteBack c hc h => exact absurd (by revert hc; cases c <;> decide) hop
  | fetchAndLock c hc h =>
    rcases hc with rfl | rfl
    · exact fetchAndLock_keeps setLine_wbPending (fun _ _ => rfl) (fun _ => rfl)
        (fun s core k => by rw [writeBackLine_icache]) h
    · exact absurd (by decide) hop

/-- R26, R183: an instruction adds pending write-backs at the end of the list. -/
theorem exec_wbPending {i : Instr} {s t : State} (h : exec i s = .next t) : ∃ new, t.wbPending = s.wbPending ++ new := by
  refine exec_invariant (P := fun u => ∃ new, u.wbPending = s.wbPending ++ new) ?_ (fun _ => id) (fun _ => id) h ⟨[], by simp⟩
  rintro u v e ⟨old, hu⟩
  obtain ⟨new, hv, _⟩ := e.wbPending
  exact ⟨old ++ new, by rw [hv, hu, List.append_assoc]⟩

/-- Settles O46: additions go at the end, and the shapes that make no write-back add nothing. -/
theorem onlyWritebackOperationsAddPending : Obligations.OnlyWritebackOperationsAddPending := by
  intro isEva op rs offset s t h
  obtain ⟨new, hnew⟩ := exec_wbPending h
  refine ⟨new, hnew, fun hop => ?_⟩
  have hsame : t.wbPending = s.wbPending := cacheop_keeps (fun _ => rfl) (fun _ => rfl) h fun _ _ _ _ hr => hr.wbPending hop
  exact List.append_right_eq_self.1 (hnew.symm.trans hsame)

end Machine

end Sys2Proof

/-! SUPPORT. The moves of the environment, each with its effect and its frame (spec/10_state.md R26, R27, spec/20_memory.md R49), and the state
after reset (R29). -/

namespace Sys2Proof.Machine

/-! ### Displacement and fill (R27) -/

/-- A write of a line record changes no other one. -/
theorem line_setLine_ne (s : State) (l : Line) {core k t u : Nat} {c d : CacheName} (h : (k, d, u) ≠ (core, c, t)) :
    (s.setLine core c t l).line k d u = s.line k d u := by
  rw [line_setLine, if_neg]
  rintro ⟨rfl, _, rfl, rfl⟩
  exact h rfl

/-- R27 (a): the write-back and the invalidation of a slot of a cache that is present. -/
theorem displace_of_hasSlot {s : State} {c : CacheName} {t : Nat} (h : s.hasSlot c t = true) (core : Nat) :
    s.displace core c t = (s.writeBackLine core c t).invalidateSlot core c t := if_pos h

/-- R22: a cache that is absent has no slot to displace. -/
theorem displace_of_absent {s : State} {c : CacheName} (h : s.cfg.present c = false) (core t : Nat) :
    s.displace core c t = s := by simp [State.displace, State.hasSlot, h]

/-- R27 (a), R102, R105: what displacing a slot does, and that it changes no other line and no byte of memory. -/
theorem displace_result {s : State} {core t : Nat} {c : CacheName} (h : s.hasSlot c t = true) (hcore : core ≤ s.others.length) :
    (s.displace core c t).line core c t = (s.line core c t).invalidated ∧
      (s.displace core c t).wbPending = s.wbPending ++ writtenBack s c (s.line core c t) ∧
      (∀ k d u, (k, d, u) ≠ (core, c, t) → (s.displace core c t).line k d u = s.line k d u) ∧
      (s.displace core c t).mem = s.mem ∧ (s.displace core c t).turns = s.turns := by
  rw [displace_of_hasSlot h]
  refine ⟨?_, ?_, fun k d u hne => ?_, by simp, by simp⟩
  · simp [line_invalidateSlot, hcore]
  · rw [invalidateSlot_wbPending, wbPending_writeBackLine]
  · rw [State.invalidateSlot, line_setLine_ne _ _ hne, writeBackLine_line]

/-- Settles O55: both moves displace the slot where R27 admits them, and do nothing else. -/
theorem displacementResult : Obligations.DisplacementResult := by
  intro s t core slot c e ts hts hcore hslot h
  obtain rfl : environmentStep e s.turnTaken = t := next_inj (step_env hts ▸ h)
  constructor
  · intro hp hmove
    have hd : environmentStep e s.turnTaken = s.turnTaken.displace core c slot := by
      rcases hmove with ⟨rfl, hv⟩ | ⟨rfl, hl⟩
      · simp [environmentStep_external, hv]
      · simp [environmentStep_evict, hl]
    obtain ⟨hlo, hhi, hdlo, hdhi⟩ := environmentStep_keepsTags e s.turnTaken
    obtain ⟨hline, hwb, hother, hmem, hturns⟩ :=
      displace_result (s := s.turnTaken) (core := core) (hasSlot_iff.2 ⟨hp, hslot⟩) hcore
    refine ⟨?_, ?_, fun k d u hne => ?_, ?_, ?_, environmentStep_pc .., environmentStep_x .., environmentStep_cp0Enabled ..,
      hlo, hhi, hdlo, hdhi⟩
    all_goals rw [hd]
    · rw [hline, turnTaken_line]; rfl
    · rw [hwb, turnTaken_line]; rfl
    · rw [hother k d u hne, turnTaken_line]
    · rw [hmem, turnTaken_mem]
    · rw [hturns, turnTaken_turns, hts, List.tail_cons]
  · intro hmove
    rw [← turnTaken_eq hts]
    rcases hmove with ⟨rfl, hl⟩ | ⟨rfl, hv⟩ | ⟨rfl | rfl, hp⟩
    · simp [environmentStep_evict, hl]
    · simp [environmentStep_external, hv]
    · simp [environmentStep_evict, displace_of_absent, hp]
    · simp [environmentStep_external, displace_of_absent, hp]

/-- R27 (b): when a fill of a slot by the environment occurs. -/
theorem admitsFill_iff {s : State} {core t pa : Nat} {c : CacheName} (ht : t < s.cfg.slots c) :
    s.admitsFill core c t pa = true ↔ s.cfg.present c = true ∧ (s.line core c t).valid = false ∧
      (s.line core c t).locked = false ∧ Misses s core c (s.cfg.lineAddr c pa) := by
  simp [State.admitsFill, State.hasSlot, ht, hitSlot_eq_none_iff, and_assoc]

/-- Settles O56: the fill occurs exactly where R27 (b) admits it, and writes one line record. -/
theorem environmentFillResult : Obligations.EnvironmentFillResult := by
  intro s t core slot pa c ts hts hcore hslot hpa h
  obtain rfl : environmentStep (.fill core c slot pa) s.turnTaken = t := next_inj (step_env hts ▸ h)
  have hiff : s.turnTaken.admitsFill core c slot pa = true ↔ s.cfg.present c = true ∧ (s.line core c slot).valid = false ∧
      (s.line core c slot).locked = false ∧ Misses s core c (s.cfg.lineAddr c pa) := admitsFill_iff hslot
  have hphys : s.turnTaken.cfg.phys pa = pa := Nat.mod_eq_of_lt hpa
  rw [environmentStep_fill, hphys]
  constructor
  · intro hadmits
    obtain ⟨hlo, hhi, hdlo, hdhi⟩ := fillLine_keepsTags s.turnTaken core c slot pa
    rw [if_pos (hiff.2 hadmits)]
    refine ⟨?_, fun k d u hne => ?_, by simp, by simp, by simp, by simp, by simp, hlo, hhi, hdlo, hdhi⟩
    · rw [line_fillLine, if_pos ⟨rfl, hcore, rfl, rfl⟩]
      rfl
    · rw [State.fillLine, busOp_line, line_setLine_ne _ _ hne, turnTaken_line]
  · intro hno
    rw [if_neg fun ha => hno (hiff.1 ha), turnTaken_eq hts]

/-! ### Draining (R26, R49) -/

/-- R26: a record that no earlier one precedes for its address leaves the list and is stored. -/
theorem drain_of_first {s : State} {before after : List Pending} {p : Pending} (hw : s.wbPending = before ++ p :: after)
    (h : ∀ q, q ∈ before → q.pa ≠ p.pa) :
    s.drain before.length = { s with wbPending := before ++ after, mem := storePending s.cfg s.mem p } := by
  simp [State.drain, hw, mayDrain_iff.2 h, List.eraseIdx_append_of_length_le]

/-- R26: a record with an earlier one for its address stays. -/
theorem drain_of_preceded {s : State} {before after : List Pending} {p : Pending} (hw : s.wbPending = before ++ p :: after)
    (h : ∃ q, q ∈ before ∧ q.pa = p.pa) : s.drain before.length = s := by
  obtain ⟨q, hq, hpa⟩ := h
  have hno : ¬mayDrain (before ++ p :: after) before.length = true := fun hd => mayDrain_iff.1 hd q hq hpa
  simp [State.drain, hw, hno]

/-- Settles O57: one record is stored and read back, and the store leaves every byte outside it as it was. -/
theorem drainResult : Obligations.DrainResult := by
  intro s t before after p ts hts hw h
  obtain rfl : s.turnTaken.drain before.length = t := next_inj (step_env hts ▸ h)
  constructor
  · intro hfirst hwf hfit
    rw [drain_of_first (s := s.turnTaken) hw hfirst]
    exact ⟨rfl, readBytes_writeBytes _ _ _ _ hwf hfit, fun a ha => readByte_writeBytes_outside _ _ _ _ _ hfit ha,
      SameArrays.keepsLines ⟨rfl, rfl⟩⟩
  · intro hpre
    rw [drain_of_preceded (s := s.turnTaken) hw hpre, turnTaken_eq hts]

/-- Two write-backs that do not overlap. -/
def Apart (p q : Pending) : Prop := p.pa + p.bytes.length ≤ q.pa ∨ q.pa + q.bytes.length ≤ p.pa

/-- R26: a write-back may be stored before others that it does not overlap. -/
theorem storeAll_storePending_comm {cfg : Config} {p : Pending} (hp : p.pa + p.bytes.length ≤ 2 ^ cfg.palen) :
    ∀ (qs : List Pending) (m : List Host.Cell), memoryWf m = true →
      (∀ q ∈ qs, Apart p q ∧ q.pa + q.bytes.length ≤ 2 ^ cfg.palen) →
      storeAll cfg (storePending cfg m p) qs = storePending cfg (storeAll cfg m qs) p := by
  intro qs
  induction qs with
  | nil => intros; rfl
  | cons q qs ih =>
    intro m hm hq
    obtain ⟨hd, hfit⟩ := hq q (List.mem_cons_self ..)
    have hswap : storePending cfg (storePending cfg m p) q = storePending cfg (storePending cfg m q) p :=
      writeBytes_comm cfg q.bytes m p.pa q.pa p.bytes hm hp hfit hd
    rw [storeAll_cons, storeAll_cons, hswap]
    exact ih _ (memoryWf_writeBytes _ _ _ _ hm) fun r hr => hq r (List.mem_cons_of_mem _ hr)

/-- Settles O59: the record that drains does not overlap an earlier one, so storing it first gives the same memory. -/
theorem drainKeepsMemView : Obligations.DrainKeepsMemView := by
  intro s t k ts hts hwf hapart hfit h a n
  obtain rfl : s.turnTaken.drain k = t := next_inj (step_env hts ▸ h)
  rcases drain_cases s.turnTaken k with hd | ⟨before, p, after, hw, hfirst, hd⟩
  · rw [hd]
    rfl
  · have hp : p ∈ s.wbPending := by rw [← turnTaken_wbPending, hw]; simp
    have hb : ∀ q ∈ before, q ∈ s.wbPending := fun q hq => by rw [← turnTaken_wbPending, hw]; simp [hq]
    have hcomm := storeAll_storePending_comm (hfit p hp) before s.mem hwf fun q hq =>
      ⟨(hapart p q hp (hb q hq)).resolve_left fun he => hfirst q hq he.symm, hfit q (hb q hq)⟩
    have hall : storeAll s.cfg (storePending s.cfg s.mem p) (before ++ after) = storeAll s.cfg s.mem s.wbPending := by
      rw [← turnTaken_wbPending, hw, storeAll_append, hcomm, storeAll_append, storeAll_cons]
    rw [hd]
    exact congrArg (readBytes s.cfg · a n) hall

/-- Settles O58: every record has been stored in order, which is what a fill saw before. -/
theorem syncDrainsEverything : Obligations.SyncDrainsEverything := by
  intro s t ts hts h
  obtain rfl : s.turnTaken.synced = t := next_inj (step_env hts ▸ h)
  exact ⟨rfl, fun _ _ => rfl, fun _ _ => rfl, SameArrays.keepsLines ⟨rfl, rfl⟩⟩

/-! ### Register zero and reset (R11, R29) -/

@[simp] theorem reg_zero (s : State) : s.reg 0#5 = 0#32 := rfl

theorem reg_of_ne_zero (s : State) {i : BitVec 5} (h : i ≠ 0#5) : s.reg i = s.x[i.toNat] := if_neg h

/-- Settles O17: by the one test of the register number in a read (R11). -/
theorem registerZeroReadsZero : Obligations.RegisterZeroReadsZero := fun s offset =>
  ⟨reg_zero s, by rw [State.effectiveAddress, reg_zero, BitVec.zero_add, offsetWord], fun _ => reg_of_ne_zero s⟩

/-- Settles O53: at reset there is one core, and every slot of it holds a record that is not valid and not dirty. -/
theorem invariantsHoldAtReset : Obligations.InvariantsHoldAtReset :=
  ⟨rfl, Tests.unique rfl (by decide), Tests.clean rfl (by decide), Tests.shaped rfl rfl nofun (by decide), Tests.standard_legal⟩

/-- Settles O54: the reset state's own fields, and R11 for `x[0]`. -/
theorem resetValues : Obligations.ResetValues := ⟨reg_zero _, rfl, rfl⟩

end Sys2Proof.Machine

/-! SUPPORT. The Hit operations on the caches of several cores (spec/20_memory.md R52 to R54, spec/41_cache_operations.md R108, R126 to R137):
what one of them does on a list of cores, said once (`HitEffects`). -/

namespace Sys2Proof.Machine

/-! ### Hit operations by kind -/

/-- The kinds of a cache that are Hit operations (R126 to R129, R131 to R133, R135 to R137). -/
abbrev HitKind (kind : BitVec 3) (c : CacheName) : Prop := kind = 4#3 ∨ (c ≠ .icache ∧ (kind = 5#3 ∨ kind = 6#3))

/-- The Hit operation of a kind on one core. -/
def hitOn (kind : BitVec 3) (c : CacheName) (pa core : Nat) (s : State) : Result :=
  if kind = 4#3 then hitInvalidateOn c pa core s
  else if kind = 5#3 then hitWriteBackInvalidateOn c pa core s
  else hitWriteBackOn c pa core s

theorem hitOn_invalidate (c : CacheName) (pa core : Nat) (s : State) : hitOn 4#3 c pa core s = hitInvalidateOn c pa core s := rfl

theorem hitOn_writeBackInvalidate (c : CacheName) (pa core : Nat) (s : State) :
    hitOn 5#3 c pa core s = hitWriteBackInvalidateOn c pa core s := rfl

theorem hitOn_writeBack (c : CacheName) (pa core : Nat) (s : State) : hitOn 6#3 c pa core s = hitWriteBackOn c pa core s := rfl

/-- What the Hit operation of a kind makes of the record it finds (R105, R135). -/
def hitLine (kind : BitVec 3) (l : Line) : Line := if kind = 6#3 then l.cleaned else l.invalidated

/-- What the Hit operation of a kind sends to the pending write-backs for one core; Hit Invalidate drops dirty data (R126). -/
def hitSent (kind : BitVec 3) (s : State) (c : CacheName) (pa core : Nat) : List Pending :=
  if kind = 4#3 then [] else hitWrittenBack s c pa core

theorem hitSent_of_ne {kind : BitVec 3} (h : kind ≠ 4#3) (s : State) (c : CacheName) (pa : Nat) :
    hitSent kind s c pa = hitWrittenBack s c pa := funext fun _ => if_neg h

theorem flatMap_hitSent (kind : BitVec 3) (s : State) (c : CacheName) (pa : Nat) (cores : List Nat) :
    cores.flatMap (hitSent kind s c pa) = if kind = 4#3 then [] else cores.flatMap (hitWrittenBack s c pa) := by
  split
  · rename_i h
    simp [hitSent, h]
  · rename_i h
    rw [hitSent_of_ne h]

/-- The cores that a broadcast reaches (R108). -/
def State.reached (s : State) (op : BitVec 5) (cca : Nat) : List Nat :=
  if s.cfg.isGlobalized op cca then List.range (s.others.length + 1) else [0]

theorem reached_nodup (s : State) (op : BitVec 5) (cca : Nat) : (s.reached op cca).Nodup := by
  unfold State.reached
  split
  · exact List.nodup_range
  · exact List.nodup_singleton 0

theorem reached_of_globalized {s : State} {op : BitVec 5} {cca : Nat} (h : s.cfg.isGlobalized op cca = true) :
    s.reached op cca = List.range (s.others.length + 1) := if_pos h

theorem reached_own {s : State} {op : BitVec 5} {cca : Nat} (h : s.cfg.isGlobalized op cca = false) : s.reached op cca = [0] := by
  simp [State.reached, h]

/-- R53, R108: this core is reached, and every core where the operation is globalized. -/
theorem mem_reached {s : State} {op : BitVec 5} {cca core : Nat}
    (h : core = 0 ∨ (s.cfg.isGlobalized op cca = true ∧ core ≤ s.others.length)) : core ∈ s.reached op cca := by
  cases hg : s.cfg.isGlobalized op cca with
  | true =>
    rw [reached_of_globalized hg, List.mem_range]
    omega
  | false =>
    rw [reached_own hg, List.mem_singleton]
    exact h.resolve_right fun hr => Bool.eq_false_iff.1 hg hr.1

theorem operation_hitOn {kind : BitVec 3} {c : CacheName} (hk : HitKind kind c) (va : Word) (pa cca : Nat) (s : State) :
    operation (opOf kind c) va pa cca s = eachCore (hitOn kind c pa) (s.reached (opOf kind c) cca) s := by
  rcases hk with rfl | ⟨hc, rfl | rfl⟩
  · exact operation_hitInvalidate c va pa cca s
  · exact operation_hitWriteBackInvalidate c va pa cca s hc
  · exact operation_hitWriteBack c va pa cca s hc

/-! ### What a Hit operation does on a list of cores -/

/-- R101: a core that does not exist holds no line. -/
theorem core_le_of_hitSlot {s : State} {core pa t : Nat} {c : CacheName} (h : s.hitSlot core c pa = some t) :
    core ≤ s.others.length := by
  by_contra hlt
  have hl := (hitSlot_some h).2
  rw [line_of_lt (Nat.not_le.1 hlt)] at hl
  cases hl

/-- A lookup reads the line records of its own core and cache alone. -/
theorem hitSlot_congr {s t : State} {core : Nat} {c : CacheName} (hcfg : t.cfg = s.cfg)
    (hline : ∀ u, t.line core c u = s.line core c u) (pa : Nat) : t.hitSlot core c pa = s.hitSlot core c pa := by
  simp only [State.hitSlot, hcfg, hline]

theorem isOwnLine_congr {s t : State} (hcfg : t.cfg = s.cfg) (hpc : t.pc = s.pc) (c : CacheName) (l : Line) :
    t.isOwnLine c l = s.isOwnLine c l := by simp only [State.isOwnLine, State.ownBytes, hcfg, hpc]

/-- All that the Hit operation of a kind at address `pa` does to the caches and the pending write-backs when it acts on a list of cores in
turn: the slot each lookup finds changes, the data of the lines that must be written back are sent in order. -/
structure HitEffects (kind : BitVec 3) (c : CacheName) (pa : Nat) (cores : List Nat) (s t : State) : Prop where
  cfg : t.cfg = s.cfg
  pc : t.pc = s.pc
  line : ∀ core d u, t.line core d u =
    if core ∈ cores ∧ d = c ∧ s.hitSlot core c pa = some u then hitLine kind (s.line core d u) else s.line core d u
  wbPending : t.wbPending = s.wbPending ++ cores.flatMap (hitSent kind s c pa)

section
variable {kind : BitVec 3} {c : CacheName} {pa core : Nat} {cores : List Nat} {s t u : State}

theorem HitEffects.nil : HitEffects kind c pa [] s s := ⟨rfl, rfl, by simp, by simp⟩

theorem HitEffects.line_of_notMem (h : HitEffects kind c pa cores s t) (hcore : core ∉ cores) (d : CacheName) (v : Nat) :
    t.line core d v = s.line core d v := by rw [h.line, if_neg fun hm => hcore hm.1]

theorem HitEffects.hitSlot_of_notMem (h : HitEffects kind c pa cores s t) (hcore : core ∉ cores) :
    t.hitSlot core c pa = s.hitSlot core c pa := hitSlot_congr h.cfg (h.line_of_notMem hcore c) pa

theorem HitEffects.hitSent_of_notMem (h : HitEffects kind c pa cores s t) (hcore : core ∉ cores) :
    hitSent kind t c pa core = hitSent kind s c pa core := by
  simp only [hitSent, hitWrittenBack, h.hitSlot_of_notMem hcore, h.line_of_notMem hcore, writtenBack, h.cfg]

/-- The cores have caches of their own, so acting on one changes no lookup of another. -/
theorem HitEffects.cons (h : HitEffects kind c pa [core] s u) (k : HitEffects kind c pa cores u t) (hcore : core ∉ cores) :
    HitEffects kind c pa (core :: cores) s t where
  cfg := k.cfg.trans h.cfg
  pc := k.pc.trans h.pc
  line := fun j d v => by
    by_cases hj : j = core
    · subst hj
      rw [k.line_of_notMem hcore, h.line]
      simp
    · have hn : j ∉ [core] := by simpa using hj
      rw [k.line, h.hitSlot_of_notMem hn, h.line_of_notMem hn]
      simp [hj]
  wbPending := by
    have hsent : cores.flatMap (hitSent kind u c pa) = cores.flatMap (hitSent kind s c pa) :=
      List.flatMap_congr fun j hj => h.hitSent_of_notMem fun he => hcore (List.mem_singleton.1 he ▸ hj)
    rw [k.wbPending, h.wbPending, hsent]
    simp

theorem HitEffects.of_miss (h : s.hitSlot core c pa = none) : HitEffects kind c pa [core] s s where
  cfg := rfl
  pc := rfl
  line := fun j d v => by
    rw [if_neg]
    rintro ⟨hj, -, hv⟩
    rw [List.mem_singleton.1 hj, h] at hv
    cases hv
  wbPending := by simp [hitSent, hitWrittenBack, h]

/-- The record that is found is replaced in a state `u` that differs from `s` at most in what has been sent. -/
theorem HitEffects.of_hit {v : Nat} (h : s.hitSlot core c pa = some v) (hcfg : u.cfg = s.cfg) (hpc : u.pc = s.pc)
    (hlen : u.others.length = s.others.length) (hline : KeepsLines s u)
    (hwb : u.wbPending = s.wbPending ++ hitSent kind s c pa core) :
    HitEffects kind c pa [core] s (u.setLine core c v (hitLine kind (s.line core c v))) where
  cfg := by rw [setLine_cfg, hcfg]
  pc := by rw [setLine_pc, hpc]
  line := fun j d w => by
    have hle : core ≤ u.others.length := hlen ▸ core_le_of_hitSlot h
    rw [line_setLine, hline j d w]
    by_cases hp : j = core ∧ d = c ∧ w = v
    · obtain ⟨rfl, rfl, rfl⟩ := hp
      simp [hle, h]
    · rw [if_neg fun hq => hp ⟨hq.1, hq.2.2⟩, if_neg]
      rintro ⟨hj, hd, hw⟩
      obtain rfl := List.mem_singleton.1 hj
      exact hp ⟨rfl, hd, Option.some.inj (hw.symm.trans h)⟩
  wbPending := by rw [setLine_wbPending, hwb, List.flatMap_singleton]

/-- R102: the record that is found is sent where it must be, then replaced. -/
theorem HitEffects.of_writeBack {v : Nat} (h : s.hitSlot core c pa = some v) (hk : kind ≠ 4#3) : HitEffects kind c pa [core] s
    ((s.writeBackLine core c v).setLine core c v (hitLine kind (s.line core c v))) :=
  .of_hit h (by simp) (by simp) (by simp) (writeBackLine_line s core c v) (by
    rw [wbPending_writeBackLine, hitSent_of_ne hk, hitWrittenBack, h])

/-- R135: a Hit Writeback leaves a clean line as it is, which is the cleaned record. -/
theorem HitEffects.of_clean {v : Nat} (h : s.hitSlot core c pa = some v) (hd : (s.line core c v).dirty = false) :
    HitEffects 6#3 c pa [core] s s where
  cfg := rfl
  pc := rfl
  line := fun j d w => by
    split
    · rename_i hp
      obtain ⟨hj, rfl, hw⟩ := hp
      obtain rfl := List.mem_singleton.1 hj
      obtain rfl := Option.some.inj (hw.symm.trans h)
      simp [hitLine, Line.cleaned, ← hd]
    · rfl
  wbPending := by simp [hitSent, hitWrittenBack, h, writtenBack, hd]

/-! ### On one core -/

/-- R83 for a core: an operation that invalidates does not find the line the instruction is in. -/
def SparesOwnLine (kind : BitVec 3) (c : CacheName) (pa core : Nat) (s : State) : Prop :=
  kind ≠ 6#3 → ∀ v, s.hitSlot core c pa = some v → s.isOwnLine c (s.line core c v) = false

theorem ownLineCheck_passes {v : Nat} {rest : State → Result} (h : s.isOwnLine c (s.line core c v) = false) :
    ownLineCheck core c v s rest = rest s := by simp [ownLineCheck, h]

/-- R126, R131, R135 on one core: the operation completes where R83 does not stop it. -/
theorem hitOn_completes (hk : HitKind kind c) (hown : SparesOwnLine kind c pa core s) :
    ∃ t, hitOn kind c pa core s = .next t ∧ HitEffects kind c pa [core] s t := by
  cases hs : s.hitSlot core c pa with
  | none =>
    refine ⟨s, ?_, .of_miss hs⟩
    simp [hitOn, hitInvalidateOn, hitWriteBackInvalidateOn, hitWriteBackOn, hs]
  | some v =>
    rcases hk with rfl | ⟨-, rfl | rfl⟩
    · refine ⟨s.invalidateSlot core c v, ?_, .of_hit hs rfl rfl rfl (fun _ _ _ => rfl) (by simp [hitSent])⟩
      simp [hitOn_invalidate, hitInvalidateOn, hs, ownLineCheck_passes (hown (by decide) v hs)]
    · refine ⟨(s.writeBackLine core c v).invalidateSlot core c v, ?_, ?_⟩
      · simp [hitOn_writeBackInvalidate, hitWriteBackInvalidateOn, hs, ownLineCheck_passes (hown (by decide) v hs)]
      · rw [State.invalidateSlot, writeBackLine_line]
        exact .of_writeBack hs (by decide)
    · cases hd : (s.line core c v).dirty with
      | true =>
        refine ⟨_, ?_, .of_writeBack hs (by decide)⟩
        simp [hitOn_writeBack, hitWriteBackOn, hs, hd, hitLine]
      | false => exact ⟨s, by simp [hitOn_writeBack, hitWriteBackOn, hs, hd], .of_clean hs hd⟩

/-- R83: an operation that completes has passed its own-line test. -/
theorem sparesOwnLine_of_next (hk : HitKind kind c) (h : hitOn kind c pa core s = .next t) : SparesOwnLine kind c pa core s := by
  intro h6 v hv
  rcases hk with rfl | ⟨-, rfl | rfl⟩
  · simp only [hitOn_invalidate, hitInvalidateOn, hv] at h
    exact (ownLineCheck_next h).1
  · simp only [hitOn_writeBackInvalidate, hitWriteBackInvalidateOn, hv] at h
    exact (ownLineCheck_next h).1
  · exact absurd rfl h6

theorem hitOn_next (hk : HitKind kind c) (h : hitOn kind c pa core s = .next t) : HitEffects kind c pa [core] s t := by
  obtain ⟨u, hu, he⟩ := hitOn_completes hk (sparesOwnLine_of_next hk h)
  exact next_inj (hu.symm.trans h) ▸ he

/-! ### On several cores (R108) -/

theorem HitEffects.sparesOwnLine (h : HitEffects kind c pa cores s t) (hcore : core ∉ cores)
    (hown : SparesOwnLine kind c pa core s) : SparesOwnLine kind c pa core t := by
  intro h6 v hv
  rw [h.hitSlot_of_notMem hcore] at hv
  rw [isOwnLine_congr h.cfg h.pc, h.line_of_notMem hcore]
  exact hown h6 v hv

theorem eachCore_hitOn_completes (hk : HitKind kind c) : ∀ (cores : List Nat) (s : State), cores.Nodup →
    (∀ core ∈ cores, SparesOwnLine kind c pa core s) →
    ∃ t, eachCore (hitOn kind c pa) cores s = .next t ∧ HitEffects kind c pa cores s t := by
  intro cores
  induction cores with
  | nil => exact fun s _ _ => ⟨s, rfl, .nil⟩
  | cons core cores ih =>
    intro s hnd hown
    obtain ⟨hcore, hnd⟩ := List.nodup_cons.1 hnd
    obtain ⟨u, hu, he⟩ := hitOn_completes hk (hown core (List.mem_cons_self ..))
    obtain ⟨t, ht, hf⟩ := ih u hnd fun j hj => he.sparesOwnLine (fun hm => hcore (List.mem_singleton.1 hm ▸ hj))
      (hown j (List.mem_cons_of_mem _ hj))
    exact ⟨t, by rw [eachCore, hu, andThen_next, ht], he.cons hf hcore⟩

theorem eachCore_hitOn_next (hk : HitKind kind c) : ∀ (cores : List Nat) (s : State), cores.Nodup →
    eachCore (hitOn kind c pa) cores s = .next t → HitEffects kind c pa cores s t := by
  intro cores
  induction cores with
  | nil => exact fun s _ h => next_inj h ▸ .nil
  | cons core cores ih =>
    intro s hnd h
    obtain ⟨hcore, hnd⟩ := List.nodup_cons.1 hnd
    obtain ⟨u, hu, h⟩ := andThen_eq_next h
    exact (hitOn_next hk hu).cons (ih u hnd h) hcore

/-- R53, R108: what a Hit operation that completes did, on every core it reaches. -/
theorem operation_hitEffects {va : Word} {cca : Nat} (hk : HitKind kind c)
    (h : operation (opOf kind c) va pa cca s = .next t) : HitEffects kind c pa (s.reached (opOf kind c) cca) s t :=
  eachCore_hitOn_next hk _ _ (reached_nodup ..) (operation_hitOn hk va pa cca s ▸ h)

/-! ### The line of the address afterwards (R52) -/

variable {v : Nat}

/-- R25, R52: a slot that holds the line of the address afterwards held it before, and is what the operation made of it. -/
theorem HitEffects.holds (h : HitEffects kind c pa cores s t) (hu : s.UniqueLines) (hcore : core ∈ cores)
    (ht : Holds t core c v (s.cfg.lineAddr c pa)) : kind = 6#3 ∧ (t.line core c v).dirty = false := by
  rw [Holds, h.cfg, h.line] at ht
  rw [h.line]
  split at ht
  · rename_i hp
    rw [if_pos hp]
    obtain ⟨-, hv, -⟩ := ht
    by_cases h6 : kind = 6#3
    · simp [hitLine, h6, Line.cleaned]
    · simp [hitLine, h6, Line.invalidated] at hv
  · rename_i hp
    exact absurd ⟨hcore, rfl, hitSlot_of_holds hu ht⟩ hp

/-- R25, R102: the dirty data of the line are among the pending write-backs afterwards. -/
theorem HitEffects.mem_wbPending (h : HitEffects kind c pa cores s t) (hu : s.UniqueLines) (hcore : core ∈ cores)
    (hk : kind ≠ 4#3) (hs : Holds s core c v (s.cfg.lineAddr c pa)) {p : Pending}
    (hp : p ∈ writtenBack s c (s.line core c v)) : p ∈ t.wbPending := by
  rw [h.wbPending]
  refine List.mem_append_right _ (List.mem_flatMap.2 ⟨core, hcore, ?_⟩)
  rwa [hitSent_of_ne hk, hitWrittenBack, hitSlot_of_holds hu hs]

end

/-- Settles O31: by what the operation does on the cores it reaches, and R25. -/
theorem hitOperationPostcondition : Obligations.HitOperationPostcondition := by
  intro isEva kind c rs offset s t pa cca core he hu hcore h
  rw [exec_of_entersOp he] at h
  obtain ⟨r, hr, h⟩ := andThen_eq_next h
  obtain rfl := next_inj h
  have hits (hk : HitKind kind c) : HitEffects kind c pa (s.reached (opOf kind c) cca) s r := operation_hitEffects hk hr
  have hmem := mem_reached hcore
  refine ⟨fun hk v hv => ?_, fun hc hk v hv => ?_, fun hc hk v hv p hp => ?_⟩
  · have hkind : HitKind kind c := hk.imp_right fun ⟨hc, h5⟩ => ⟨hc, .inl h5⟩
    obtain ⟨rfl, -⟩ := (hits hkind).holds hu hmem (by simpa [Holds] using hv)
    rcases hk with h4 | ⟨-, h5⟩
    · cases h4
    · cases h5
  · simpa using ((hits (.inr ⟨hc, .inr hk⟩)).holds hu hmem (by simpa [Holds] using hv)).2
  · have h4 : kind ≠ 4#3 := by rcases hk with rfl | rfl <;> decide
    simpa using (hits (.inr ⟨hc, hk⟩)).mem_wbPending hu hmem h4 hv hp

/-- No Hit operation is among the values that may write the tag registers (R142). -/
theorem not_loadTag_not_implDep_of_hitKind : ∀ (kind : BitVec 3) (c : CacheName), HitKind kind c →
    ¬(4 ≤ (opOf kind c).toNat ∧ (opOf kind c).toNat ≤ 7) ∧ ¬(12 ≤ (opOf kind c).toNat ∧ (opOf kind c).toNat ≤ 15) := by
  intro kind c
  cases c <;> revert kind <;> decide

/-- Settles O32: no core's own-line test stops the operation, and what it does on every core is said by `HitEffects`. -/
theorem globalizedHitOperationResult : Obligations.GlobalizedHitOperationResult := by
  intro isEva kind c rs offset s pa cca hk he hg hown
  have hspares : ∀ core ∈ s.reached (opOf kind c) cca, SparesOwnLine kind c pa core s := by
    intro core hcore h6 v hv
    obtain ⟨hlt, hvalid, haddr⟩ := holds_of_hitSlot hv
    refine isOwnLine_eq_false fun _ hin => ?_
    exact hown h6 (haddr ▸ hin) core (core_le_of_hitSlot hv) v ⟨hlt, hvalid, haddr⟩
  obtain ⟨r, hr, hits⟩ := eachCore_hitOn_completes hk _ s (reached_nodup ..) hspares
  have hx : exec (cacheop isEva (opOf kind c) rs offset) s = .next r.errorTaken.advance := by
    rw [exec_of_entersOp he, operation_hitOn hk, hr, andThen_next]
  obtain ⟨hpc, hm⟩ := completionMovesPcAndWritesNoGeneralRegister _ _ _ hx
  obtain ⟨hload, himpl⟩ := not_loadTag_not_implDep_of_hitKind kind c hk
  have htags := onlyLoadTagWritesTagRegisters _ _ _ _ _ _ hx hload himpl
  refine ⟨_, hx, fun core u hcore hu => ?_, fun core d u hne => ?_, ?_, htags, hm, hpc⟩
  · rw [advance_line, errorTaken_line, hits.line, if_pos ⟨mem_reached (.inr ⟨hg, hcore⟩), rfl, hu⟩]
    rfl
  · rw [advance_line, errorTaken_line, hits.line, if_neg fun hp => hne hp.2]
  · rw [advance_wbPending, errorTaken_wbPending, hits.wbPending, reached_of_globalized hg, flatMap_hitSent]

end Sys2Proof.Machine

/-! SUPPORT. What Fetch and Lock leaves (spec/20_memory.md R52, spec/41_cache_operations.md R138), and the caches an operation does not act on
(spec/20_memory.md R53, R54, spec/30_encoding.md R62). -/

namespace Sys2Proof.Machine

/-! ### Fetch and Lock of one line (R138) -/

section
variable {c : CacheName} {pa choice : Nat} {va : Word} {s t : State}

/-- Slot v of cache c of this core, which was not locked or holds the line already, is left with a record of the line that is locked; no other
record changes. -/
structure LocksLine (c : CacheName) (a v : Nat) (l : Line) (s t : State) : Prop where
  cfg : t.cfg = s.cfg
  slot : v < s.cfg.slots c
  valid : l.valid = true
  locked : l.locked = true
  addr : l.addr = a
  displaced : (s.line 0 c v).locked = false ∨ (s.line 0 c v).addr = a
  line : ∀ k d u, t.line k d u = if k = 0 ∧ d = c ∧ u = v then l else s.line k d u

/-- Everything Fetch and Lock of a line does to the line records, on a hit and on a miss. -/
theorem fetchAndLockLine_next (h : fetchAndLockLine c va pa choice s = .next t) :
    ∃ v l, LocksLine c (s.cfg.lineAddr c pa) v l s t := by
  unfold fetchAndLockLine at h
  split at h
  · rename_i v hv
    obtain rfl := next_inj (lockAllWaysCheck_next h).2
    obtain ⟨hlt, hvalid, haddr⟩ := holds_of_hitSlot hv
    exact ⟨v, (s.line 0 c v).lockSet, setLine_cfg .., hlt, hvalid, rfl, haddr, .inr haddr, fun k d u => by simp [line_setLine]⟩
  · obtain ⟨v, hv, hl, h⟩ := chooseVictim_next h
    obtain rfl := next_inj (lockAllWaysCheck_next h).2
    have haddr : ((s.writeBackLine 0 c v).filledLine c pa).lockSet.addr = s.cfg.lineAddr c pa := by
      simp [Line.lockSet, State.filledLine]
    refine ⟨v, _, by simp, setOf_lt hv, rfl, rfl, haddr, .inl hl, fun k d u => ?_⟩
    by_cases hp : k = 0 ∧ d = c ∧ u = v
    · simp [hp, line_setLine, line_fillLine]
    · have hn : (k, d, u) ≠ (0, c, v) := fun he => hp (by simpa using he)
      rw [if_neg hp, line_setLine_ne _ _ hn, State.fillLine, busOp_line, line_setLine_ne _ _ hn, writeBackLine_line]

/-- A locked slot of cache c of this core holds the line with address a. -/
def HoldsLocked (s : State) (c : CacheName) (a : Nat) : Prop := ∃ v, Holds s 0 c v a ∧ (s.line 0 c v).locked = true

theorem LocksLine.holdsLocked {a v : Nat} {l : Line} (h : LocksLine c a v l s t) : HoldsLocked t c a := by
  have hv : t.line 0 c v = l := by simp [h.line]
  exact ⟨v, ⟨h.cfg ▸ h.slot, hv ▸ h.valid, hv ▸ h.addr⟩, hv ▸ h.locked⟩

/-- R104: a victim is not locked, so a line that is locked stays. -/
theorem LocksLine.keepsLocked {a b v : Nat} {l : Line} (h : LocksLine c a v l s t) (hs : HoldsLocked s c b) :
    HoldsLocked t c b := by
  obtain ⟨w, ⟨hlt, hw, hb⟩, hl⟩ := hs
  by_cases hwv : w = v
  · subst hwv
    have hsame : a = b := (h.displaced.resolve_left fun hno => Bool.eq_false_iff.1 hno hl).symm.trans hb
    exact hsame ▸ h.holdsLocked
  · have hkept : t.line 0 c w = s.line 0 c w := by simp [h.line, hwv]
    exact ⟨w, ⟨h.cfg ▸ hlt, hkept ▸ hw, hkept ▸ hb⟩, hkept ▸ hl⟩

theorem holdsLocked_drawn {a : Nat} (h : HoldsLocked s c a) : HoldsLocked s.drawn c a := by
  simpa [HoldsLocked, Holds] using h

/-- R138: every line of the list is held and locked at the end, and those that were stay so. -/
theorem fetchAndLockLines_holdsLocked : ∀ (qs : List (Word × Nat)) (s : State), fetchAndLockLines c qs s = .next t →
    (∀ a, HoldsLocked s c a → HoldsLocked t c a) ∧ ∀ q ∈ qs, HoldsLocked t c (s.cfg.lineAddr c q.2) := by
  intro qs
  induction qs with
  | nil => exact fun s h => next_inj h ▸ ⟨fun _ => id, nofun⟩
  | cons q qs ih =>
    intro s h
    obtain ⟨u, hu, h⟩ := andThen_eq_next h
    obtain ⟨v, l, hl⟩ := fetchAndLockLine_next hu
    obtain ⟨hkeeps, hlocks⟩ := ih _ h
    have hcfg : u.drawn.cfg = s.cfg := hl.cfg
    refine ⟨fun a ha => hkeeps a (holdsLocked_drawn (hl.keepsLocked ha)), fun r hr => ?_⟩
    rcases List.mem_cons.1 hr with rfl | hr
    · exact hkeeps _ (holdsLocked_drawn hl.holdsLocked)
    · exact hcfg ▸ hlocks r hr

end

/-- Settles O39: each line is locked in its turn, and no later one displaces it. -/
theorem fetchAndLockLocksEveryTarget : Obligations.FetchAndLockLocksEveryTarget := by
  intro isEva c rs offset s t pa cca q hc he h hq
  rw [exec_of_entersOp he, operation_fetchAndLock _ _ _ _ _ hc] at h
  obtain ⟨u, hu, h⟩ := andThen_eq_next h
  obtain rfl := next_inj h
  have hlocked : HoldsLocked u c (s.cfg.lineAddr c q.2) := (fetchAndLockLines_holdsLocked _ s hu).2 q hq
  simpa [HoldsLocked, Holds] using hlocked

/-! ### The other caches (R53, R54, R62) -/

/-- Only lines of cache c change: this core's, and those of the other cores where it is `shared`. -/
structure KeepsOutside (c : CacheName) (shared : Prop) (s t : State) : Prop where
  line : ∀ k d u, ¬(d = c ∧ (k = 0 ∨ shared)) → t.line k d u = s.line k d u

section
variable {c : CacheName} {shared : Prop} {s t u : State}

theorem KeepsOutside.trans (h : KeepsOutside c shared s t) (k : KeepsOutside c shared t u) : KeepsOutside c shared s u :=
  ⟨fun j d v hne => (k.line j d v hne).trans (h.line j d v hne)⟩

theorem KeepsLines.keepsOutside (h : KeepsLines s t) : KeepsOutside c shared s t := ⟨fun j d v _ => h j d v⟩

theorem KeepsOutside.refl (s : State) : KeepsOutside c shared s s := ⟨fun _ _ _ _ => rfl⟩

theorem KeepsOutside.setLine (s : State) (k : Nat) (l : Line) : KeepsOutside c shared s (s.setLine 0 c k l) :=
  ⟨fun j d v hne => line_setLine_ne s l fun he => hne (by cases he; exact ⟨rfl, .inl rfl⟩)⟩

theorem KeepsOutside.invalidateSlot (s : State) (k : Nat) : KeepsOutside c shared s (s.invalidateSlot 0 c k) := .setLine ..

theorem KeepsOutside.writeBackLine (s : State) (k : Nat) : KeepsOutside c shared s (s.writeBackLine 0 c k) :=
  KeepsLines.keepsOutside (writeBackLine_line s 0 c k)

theorem KeepsOutside.busOp (s : State) (n : Nat) : KeepsOutside c shared s (s.busOp n) := ⟨fun _ _ _ _ => busOp_line ..⟩

theorem KeepsOutside.drawn (s : State) : KeepsOutside c shared s s.drawn := ⟨fun _ _ _ _ => drawn_line ..⟩

theorem indexStoreTag_keepsOutside {va : Word} (h : indexStoreTag c va s = .next t) : KeepsOutside c shared s t := by
  unfold indexStoreTag storeTag at h
  split at h
  · cases h
  · split at h
    · cases h
    · exact next_inj h ▸ .setLine ..

theorem fill_keepsOutside {va : Word} {pa : Nat} (h : fill c va pa s = .next t) : KeepsOutside c shared s t := by
  unfold fill at h
  split at h
  · obtain rfl := next_inj h
    refine .trans ?_ (.drawn _)
    unfold refill
    split
    · exact .refl s
    · exact .trans (.setLine ..) (.busOp ..)
  · obtain ⟨v, _, _, h⟩ := chooseVictim_next h
    obtain rfl := next_inj h
    exact .trans (.trans (.setLine ..) (.busOp ..)) (.drawn _)

theorem fetchAndLockLine_keepsOutside {va : Word} {pa choice : Nat} (h : fetchAndLockLine c va pa choice s = .next t) :
    KeepsOutside c shared s t := by
  obtain ⟨v, l, hl⟩ := fetchAndLockLine_next h
  refine ⟨fun j d w hne => ?_⟩
  rw [hl.line, if_neg]
  rintro ⟨hj, hd, -⟩
  exact hne ⟨hd, .inl hj⟩

theorem fetchAndLockLines_keepsOutside : ∀ (qs : List (Word × Nat)) (s : State), fetchAndLockLines c qs s = .next t →
    KeepsOutside c shared s t := by
  intro qs
  induction qs with
  | nil => exact fun s h => next_inj h ▸ .refl s
  | cons q qs ih =>
    intro s h
    obtain ⟨u, hu, h⟩ := andThen_eq_next h
    exact .trans (.trans (fetchAndLockLine_keepsOutside hu) (.drawn u)) (ih _ h)

theorem writeSlots_keepsOutside : ∀ (ws : List (Nat × Line)) (s : State), KeepsOutside c shared s (s.writeSlots c ws)
  | [], s => .refl s
  | w :: ws, s => by
    refine .trans ⟨fun j d v hne => line_writeSlot_other s c w.1 w.2 fun he => hne ?_⟩ (writeSlots_keepsOutside ws _)
    cases he
    exact ⟨rfl, .inl rfl⟩

theorem sendAll_keepsLines : ∀ (ps : List Pending) (s : State), KeepsLines s (s.sendAll c ps)
  | [], _ => fun _ _ _ => rfl
  | _ :: ps, _ => fun j d v => (sendAll_keepsLines ps _ j d v).trans (send_line ..)

/-- R62, R71: an implementation dependent operation of another behaviour writes records of its own cache of this core. -/
theorem answered_keepsOutside (s : State) (a : ImplDepAnswer) : KeepsOutside c shared s (s.answered c a) := by
  refine (writeSlots_keepsOutside a.lines s).trans ⟨fun j d v _ => ?_⟩
  simp [State.answered, sendAll_keepsLines a.sent _ j d v]

/-! ### Operations -/

variable {va : Word} {pa cca : Nat} {op : BitVec 5}

/-- R62: an operation that is neither a Hit operation nor implementation dependent acts on the cache of op of this core. -/
theorem Runs.keepsOutside (h : Runs va pa cca s t op) (hhit : ¬HitKind (opKind op) (opCache op)) (himpl : opKind op ≠ 3#3) :
    KeepsOutside (opCache op) shared s t := by
  cases h
  all_goals simp only [opCache_opOf, opKind_opOf] at hhit himpl ⊢
  case indexInvalidate h => exact next_inj (ownLineCheck_next h).2 ▸ .invalidateSlot ..
  case indexWriteBackInvalidate h =>
    obtain rfl := next_inj (ownLineCheck_next h).2
    exact .trans (.writeBackLine ..) (.invalidateSlot ..)
  case indexLoadTag h => exact next_inj h ▸ ⟨fun _ _ _ _ => by simp⟩
  case indexStoreTag h => exact indexStoreTag_keepsOutside h
  case implDep => exact absurd rfl himpl
  case hitInvalidate => exact absurd (.inl rfl) hhit
  case fill h => exact fill_keepsOutside h
  case hitWriteBackInvalidate hc _ => exact absurd (.inr ⟨hc, .inl rfl⟩) hhit
  case hitWriteBack hc _ => exact absurd (.inr ⟨hc, .inr rfl⟩) hhit
  case fetchAndLock h => exact fetchAndLockLines_keepsOutside _ _ h

/-- R53, R108: a Hit operation acts on its cache of the cores it reaches. -/
theorem HitEffects.keepsOutside {kind : BitVec 3} (h : HitEffects kind c pa (s.reached op cca) s t)
    (hshared : s.cfg.isGlobalized op cca = true → shared) : KeepsOutside c shared s t := by
  refine ⟨fun k d v hne => ?_⟩
  rw [h.line, if_neg]
  rintro ⟨hk, hd, -⟩
  cases hg : s.cfg.isGlobalized op cca with
  | true => exact hne ⟨hd, .inr (hshared hg)⟩
  | false =>
    rw [reached_own hg] at hk
    exact hne ⟨hd, .inl (List.mem_singleton.1 hk)⟩

theorem operation_keepsOutside {kind : BitVec 3} (h : operation (opOf kind c) va pa cca s = .next t) (himpl : kind ≠ 3#3)
    (hshared : HitKind kind c → s.cfg.isGlobalized (opOf kind c) cca = true → shared) : KeepsOutside c shared s t := by
  by_cases hk : HitKind kind c
  · exact (operation_hitEffects hk h).keepsOutside (hshared hk)
  · have hr := (operation_runs h).keepsOutside (shared := shared)
    simp only [opCache_opOf, opKind_opOf] at hr
    exact hr hk himpl

/-- The described operations are those of the kinds that are not implementation dependent. -/
theorem standardOp_next {kind : BitVec 3} (h : standardOp (opOf kind c) va pa cca s = .next t) :
    kind ≠ 3#3 ∧ operation (opOf kind c) va pa cca s = .next t := by
  rcases kind_cases kind with rfl | rfl | rfl | rfl | rfl | rfl | rfl | rfl
  case inr.inr.inr.inl => cases c <;> cases h
  all_goals exact ⟨by decide, by cases c <;> exact h⟩

/-- R54, R62: described operations performed in order act on one cache, on the other cores where one of them may be broadcast. -/
theorem standardOps_keepsOutside : ∀ (kinds : List (BitVec 3)) (s : State), s.cfg.present c = true → pa < 2 ^ s.cfg.palen →
    (∀ kind, HitKind kind c → s.cfg.isGlobalized (opOf kind c) cca = true → shared) →
    standardOps c kinds va pa cca s = .next t → KeepsOutside c shared s t := by
  intro kinds
  induction kinds with
  | nil => exact fun s _ _ _ h => next_inj h ▸ .refl s
  | cons kind kinds ih =>
    intro s hp hpa hshared h
    obtain ⟨u, hu, h⟩ := andThen_eq_next h
    obtain ⟨hk, ho⟩ := standardOp_next hu
    have hcfg : u.cfg = s.cfg := (standardOp_effects (by rwa [opCache_opOf]) hpa hu).cfg
    exact (operation_keepsOutside ho hk (hshared kind)).trans
      (ih u (by rwa [hcfg]) (by rwa [hcfg]) (by rwa [hcfg]) h)

theorem implDep_keepsOutside (hp : s.cfg.present (opCache op) = true) (hpa : pa < 2 ^ s.cfg.palen)
    (hshared : ∀ kind, HitKind kind (opCache op) → s.cfg.isGlobalized (opOf kind (opCache op)) cca = true → shared)
    (h : implDep op va pa cca s = .next t) : KeepsOutside (opCache op) shared s t := by
  unfold implDep at h
  split at h
  · exact standardOps_keepsOutside _ _ hp hpa hshared h
  · exact next_inj h ▸ answered_keepsOutside ..
  · cases h

/-! ### Instructions -/

/-- A Hit operation that op may perform is globalized at a cca: the one of its kind, or for an implementation dependent value any of its
cache (R122, log entry 28). -/
def MayBroadcast (cfg : Config) (op : BitVec 5) (cca : Nat) : Prop :=
  ∃ kind, (kind = opKind op ∨ opKind op = 3#3) ∧ HitKind kind (opCache op) ∧ cfg.isGlobalized (opOf kind (opCache op)) cca = true

theorem operation_keepsOutside_of_mayBroadcast (hp : s.cfg.present (opCache op) = true) (hpa : pa < 2 ^ s.cfg.palen)
    (h : operation op va pa cca s = .next t) : KeepsOutside (opCache op) (MayBroadcast s.cfg op cca) s t := by
  by_cases himpl : opKind op = 3#3
  · rw [← opOf_opKind_opCache op, himpl, operation_implDep, ← himpl, opOf_opKind_opCache] at h
    exact implDep_keepsOutside hp hpa (fun kind hk hg => ⟨kind, .inr himpl, hk, hg⟩) h
  · rw [← opOf_opKind_opCache op] at h
    exact operation_keepsOutside h himpl fun hk hg => ⟨_, .inl rfl, hk, hg⟩

/-- R53, R54, R62: the caches an instruction that completes acts on; at an uncached address there are none. -/
theorem exec_keepsOutside {isEva : Bool} {rs : BitVec 5} {offset : Int} (h : exec (cacheop isEva op rs offset) s = .next t)
    (hshared : ∀ pa cca, s.cfg.translate (addressOf s rs offset) isEva = .ok pa cca → MayBroadcast s.cfg op cca → shared) :
    KeepsOutside (opCache op) shared s t := by
  rw [exec_cacheop] at h
  obtain ⟨pa, cca, htr, ⟨_, _, rfl⟩ | ⟨_, r, hc, rfl⟩⟩ := cacheInstr_next h
  · exact ⟨fun _ _ _ _ => advance_line ..⟩
  · obtain ⟨ho, v, hv, rfl⟩ := cacheOp_next hc
    have hops := operation_keepsOutside_of_mayBroadcast (opImplemented_present ho).2 (translate_lt htr) hv
    refine ⟨fun k d w hne => ?_⟩
    rw [advance_line, errorTaken_line]
    exact hops.line k d w fun ⟨hd, hk⟩ => hne ⟨hd, hk.imp_right (hshared pa cca htr)⟩

theorem mem_of_hitKind : ∀ op : BitVec 5, HitKind (opKind op) (opCache op) ∨ opKind op = 3#3 →
    op.toNat ∈ [16, 17, 18, 19, 21, 22, 23, 25, 26, 27, 12, 13, 14, 15] := by decide

theorem MayBroadcast.mem {cfg : Config} (h : MayBroadcast cfg op cca) :
    op.toNat ∈ [16, 17, 18, 19, 21, 22, 23, 25, 26, 27, 12, 13, 14, 15] := by
  obtain ⟨kind, rfl | himpl, hk, -⟩ := h
  · exact mem_of_hitKind op (.inl hk)
  · exact mem_of_hitKind op (.inr himpl)

/-- The premise of the third clause of the statement, as one word. -/
theorem not_mayBroadcast {cfg : Config} (h : if 12 ≤ op.toNat ∧ op.toNat ≤ 15 then
    ∀ kind, cfg.isGlobalized (opOf kind (opCache op)) cca = false else cfg.isGlobalized op cca = false) :
    ¬MayBroadcast cfg op cca := by
  rintro ⟨kind, hkind, -, hg⟩
  split at h
  · exact Bool.eq_false_iff.1 (h kind) hg
  · rename_i hno
    obtain rfl := hkind.resolve_right (opKind_ne_implDep op hno)
    rw [opOf_opKind_opCache] at hg
    exact Bool.eq_false_iff.1 h hg

end

/-- Settles O47: the three clauses are the frame of an instruction, with the other cores reached, not reached at any cca, and not reached
at the cca of the address. -/
theorem operationsStayInTheirCache : Obligations.OperationsStayInTheirCache := by
  intro isEva op rs offset s t h
  refine ⟨fun core c u hc => ?_, fun hop core c u hcore => ?_, fun pa cca htr hno core c u hcore => ?_⟩
  · exact (exec_keepsOutside (shared := True) h fun _ _ _ _ => trivial).line core c u fun hp => hc hp.1
  · exact (exec_keepsOutside (shared := False) h fun _ _ _ hb => hop hb.mem).line core c u fun hp => hcore (hp.2.resolve_right id)
  · refine (exec_keepsOutside (shared := False) h fun pa' cca' htr' hb => ?_).line core c u fun hp => hcore (hp.2.resolve_right id)
    obtain ⟨-, rfl⟩ : pa = pa' ∧ cca = cca' := by simpa [htr] using htr'
    exact not_mayBroadcast hno hb

end Sys2Proof.Machine

/-! SUPPORT. The encoding (spec/30_encoding.md R56 to R61): a word as its eight fields, the decoder and the encoder said once by the fields
(`decode_eq_ok_iff_fields`, `encode_eq_iff_fields`), and from the two that each undoes the other; and what a word that is neither
instruction, or an op that selects nothing, comes to. -/

namespace Sys2Proof.Machine

/-! ### A word as its fields (R56) -/

theorem append_eq_append_iff {m n : Nat} {a c : BitVec m} {b d : BitVec n} : a ++ b = c ++ d ↔ a = c ∧ b = d := by
  refine ⟨fun h => ⟨?_, ?_⟩, fun ⟨ha, hb⟩ => ha ▸ hb ▸ rfl⟩
  · rw [← BitVec.extractLsb'_append_eq_left (a := a) (b := b), h, BitVec.extractLsb'_append_eq_left]
  · rw [← BitVec.extractLsb'_append_eq_right (a := a) (b := b), h, BitVec.extractLsb'_append_eq_right]

/-- The eight fields of R56, leftmost most significant, each of any value. -/
def wordOfFields (major : BitVec 6) (op rs : BitVec 5) (s8 : BitVec 1) (minor : BitVec 4) (fixed : BitVec 1) (selector : BitVec 2)
    (s0 : BitVec 8) : Word := major ++ op ++ rs ++ s8 ++ minor ++ fixed ++ selector ++ s0

/-- The fields are all of the word. -/
theorem wordOfFields_extractLsb' (w : Word) : wordOfFields (w.extractLsb' 26 6) (w.extractLsb' 21 5) (w.extractLsb' 16 5)
    (w.extractLsb' 15 1) (w.extractLsb' 11 4) (w.extractLsb' 10 1) (w.extractLsb' 8 2) (w.extractLsb' 0 8) = w := by
  apply BitVec.eq_of_getLsbD_eq
  intro i hi
  simp only [wordOfFields, BitVec.getLsbD_append]
  interval_cases i <;> simp

section
variable {major major' : BitVec 6} {op rs op' rs' : BitVec 5} {s8 fixed s8' fixed' : BitVec 1} {minor minor' : BitVec 4}
  {selector selector' : BitVec 2} {s0 s0' : BitVec 8}

theorem wordOfFields_eq_iff :
    wordOfFields major op rs s8 minor fixed selector s0 = wordOfFields major' op' rs' s8' minor' fixed' selector' s0' ↔
      major = major' ∧ op = op' ∧ rs = rs' ∧ s8 = s8' ∧ minor = minor' ∧ fixed = fixed' ∧ selector = selector' ∧ s0 = s0' := by
  refine append_eq_append_iff.trans ?_
  simp only [append_eq_append_iff, and_assoc]

theorem wordOfFields_and :
    wordOfFields major op rs s8 minor fixed selector s0 &&& wordOfFields major' op' rs' s8' minor' fixed' selector' s0' =
      wordOfFields (major &&& major') (op &&& op') (rs &&& rs') (s8 &&& s8') (minor &&& minor') (fixed &&& fixed')
        (selector &&& selector') (s0 &&& s0') := by
  refine BitVec.and_append.trans ?_
  simp only [wordOfFields, BitVec.and_append]

end

/-! ### The fixed bits (R57, R58) -/

/-- Bits 9:8, which tell CACHE from CACHEE (R57). -/
def selectorOf (isEva : Bool) : BitVec 2 := if isEva then 0b10#2 else 0b01#2

/-- The fixed bits of the word are those of the instruction (R57). -/
structure FixedBits (isEva : Bool) (w : Word) : Prop where
  major : w.extractLsb' 26 6 = majorOpcode
  minor : w.extractLsb' 11 4 = minorOpcode
  fixed : w.extractLsb' 10 1 = 0#1
  selector : w.extractLsb' 8 2 = selectorOf isEva

/-- R58: the mask keeps the fixed bits and nothing else. -/
theorem fixedBits_iff_mask {isEva : Bool} {w : Word} :
    FixedBits isEva w ↔ w &&& 0xFC007F00#32 = if isEva then 0xA4003A00#32 else 0xA4003900#32 := by
  have hmask : 0xFC007F00#32 = wordOfFields (BitVec.allOnes 6) 0#5 0#5 0#1 (BitVec.allOnes 4) (BitVec.allOnes 1)
      (BitVec.allOnes 2) 0#8 := by decide
  have hmatch : (if isEva then 0xA4003A00#32 else 0xA4003900#32) =
      wordOfFields majorOpcode 0#5 0#5 0#1 minorOpcode 0#1 (selectorOf isEva) 0#8 := by cases isEva <;> decide
  conv_rhs => rw [hmatch, hmask, ← wordOfFields_extractLsb' w, wordOfFields_and, wordOfFields_eq_iff]
  simp only [BitVec.and_allOnes, BitVec.and_zero, true_and, and_true]
  exact ⟨fun ⟨hmajor, hminor, hfixed, hselector⟩ => ⟨hmajor, hminor, hfixed, hselector⟩,
    fun ⟨hmajor, hminor, hfixed, hselector⟩ => ⟨hmajor, hminor, hfixed, hselector⟩⟩

/-! ### The offset (R59) -/

/-- The field is its bit 8 above its bits 7:0. -/
theorem offsetField_eq_iff {w : Word} {s : BitVec 9} :
    offsetField w = s ↔ w.extractLsb' 15 1 = s.extractLsb' 8 1 ∧ w.extractLsb' 0 8 = s.extractLsb' 0 8 := by
  have hs : s = s.extractLsb' 8 1 ++ s.extractLsb' 0 8 := (BitVec.extractLsb'_append_extractLsb' (w := 1) (len := 8)).symm
  exact (Eq.congr_right hs).trans append_eq_append_iff

theorem offsetFits_iff {offset : Int} : offsetFits offset = true ↔ -256 ≤ offset ∧ offset ≤ 255 := by simp [offsetFits]

theorem offsetFits_toInt (s : BitVec 9) : offsetFits s.toInt = true :=
  offsetFits_iff.2 ⟨s.le_toInt, Int.le_of_lt_add_one s.toInt_lt⟩

/-- The nine-bit fields are the offsets that fit. -/
theorem toInt_eq_iff_offsetFits {s : BitVec 9} {offset : Int} :
    s.toInt = offset ↔ offsetFits offset = true ∧ s = BitVec.ofInt 9 offset := by
  refine ⟨fun h => h ▸ ⟨offsetFits_toInt s, BitVec.ofInt_toInt.symm⟩, fun ⟨hfits, hs⟩ => ?_⟩
  obtain ⟨hlo, hhi⟩ := offsetFits_iff.1 hfits
  rw [hs, BitVec.toInt_ofInt_eq_self (by decide) hlo (by omega)]

/-! ### The two instructions as one (R60) -/

theorem exists_eq_cacheop (i : Instr) : ∃ isEva op rs offset, i = cacheop isEva op rs offset := by
  cases i with
  | cache op rs offset => exact ⟨false, op, rs, offset, rfl⟩
  | cachee op rs offset => exact ⟨true, op, rs, offset, rfl⟩

theorem cacheop_inj {isEva isEva' : Bool} {op rs op' rs' : BitVec 5} {offset offset' : Int} :
    cacheop isEva op rs offset = cacheop isEva' op' rs' offset' ↔ isEva = isEva' ∧ op = op' ∧ rs = rs' ∧ offset = offset' := by
  cases isEva <;> cases isEva' <;> simp [cacheop]

theorem wellFormed_cacheop (isEva : Bool) (op rs : BitVec 5) (offset : Int) :
    (cacheop isEva op rs offset).wellFormed = offsetFits offset := by cases isEva <;> rfl

theorem encode_cacheop (isEva : Bool) (op rs : BitVec 5) (offset : Int) : encode (cacheop isEva op rs offset) =
    wordOfFields majorOpcode op rs ((BitVec.ofInt 9 offset).extractLsb' 8 1) minorOpcode 0#1 (selectorOf isEva)
      ((BitVec.ofInt 9 offset).extractLsb' 0 8) := by cases isEva <;> rfl

/-! ### The decoder and the encoder by the fields (R57, R59, R61) -/

theorem decode_of_fixedBits {isEva : Bool} {w : Word} (h : FixedBits isEva w) :
    decode w = .ok (cacheop isEva (w.extractLsb' 21 5) (w.extractLsb' 16 5) (offsetField w).toInt) := by
  cases isEva <;> simp [decode, h.major, h.minor, h.fixed, h.selector, selectorOf, cacheop]

theorem fixedBits_of_decode {w : Word} {i : Instr} (h : decode w = .ok i) : ∃ isEva, FixedBits isEva w := by
  unfold decode at h
  split_ifs at h with hmajor hminor hfixed hcache hcachee
  · exact ⟨false, not_not.1 hmajor, not_not.1 hminor, not_not.1 hfixed, hcache⟩
  · exact ⟨true, not_not.1 hmajor, not_not.1 hminor, not_not.1 hfixed, hcachee⟩

theorem decode_eq_ok_iff_fields {isEva : Bool} {op rs : BitVec 5} {offset : Int} {w : Word} :
    decode w = .ok (cacheop isEva op rs offset) ↔
      FixedBits isEva w ∧ w.extractLsb' 21 5 = op ∧ w.extractLsb' 16 5 = rs ∧ (offsetField w).toInt = offset := by
  refine ⟨fun h => ?_, fun ⟨hf, hop, hrs, hoff⟩ => hop ▸ hrs ▸ hoff ▸ decode_of_fixedBits hf⟩
  obtain ⟨isEva', hf⟩ := fixedBits_of_decode h
  rw [decode_of_fixedBits hf, Except.ok.injEq, cacheop_inj] at h
  obtain ⟨rfl, hfields⟩ := h
  exact ⟨hf, hfields⟩

theorem encode_eq_iff_fields {isEva : Bool} {op rs : BitVec 5} {offset : Int} {w : Word} :
    encode (cacheop isEva op rs offset) = w ↔
      FixedBits isEva w ∧ w.extractLsb' 21 5 = op ∧ w.extractLsb' 16 5 = rs ∧ offsetField w = BitVec.ofInt 9 offset := by
  rw [eq_comm, encode_cacheop, offsetField_eq_iff]
  conv_lhs => rw [← wordOfFields_extractLsb' w]
  rw [wordOfFields_eq_iff]
  exact ⟨fun ⟨hmajor, hop, hrs, hs8, hminor, hfixed, hselector, hs0⟩ => ⟨⟨hmajor, hminor, hfixed, hselector⟩, hop, hrs, hs8, hs0⟩,
    fun ⟨⟨hmajor, hminor, hfixed, hselector⟩, hop, hrs, hs8, hs0⟩ => ⟨hmajor, hop, hrs, hs8, hminor, hfixed, hselector, hs0⟩⟩

/-- The words that decode are the words of the well-formed instructions, each of its own. -/
theorem decode_eq_ok_iff_encode {w : Word} {i : Instr} : decode w = .ok i ↔ i.wellFormed = true ∧ encode i = w := by
  obtain ⟨isEva, op, rs, offset, rfl⟩ := exists_eq_cacheop i
  rw [decode_eq_ok_iff_fields, encode_eq_iff_fields, wellFormed_cacheop, toInt_eq_iff_offsetFits]
  tauto

/-! ### The statements about the encoding -/

/-- Settles O3: a well-formed instruction is what its own word decodes to. -/
theorem decodeOfEncode : Obligations.DecodeOfEncode := fun _ hwf => decode_eq_ok_iff_encode.2 ⟨hwf, rfl⟩

/-- Settles O4: the other direction of the same equivalence. -/
theorem encodeOfDecode : Obligations.EncodeOfDecode := fun _ _ h => decode_eq_ok_iff_encode.1 h

/-- Settles O2: the masked bits are the fixed bits, and these decide which instruction a word is. -/
theorem decodesByMatchAndMask : Obligations.DecodesByMatchAndMask := by
  refine fun w => ⟨fun h => decode_of_fixedBits (isEva := false) (fixedBits_iff_mask.2 h),
    fun h => decode_of_fixedBits (isEva := true) (fixedBits_iff_mask.2 h), fun hcache hcachee => ?_⟩
  cases hd : decode w with
  | error e => exact ⟨e, rfl⟩
  | ok i =>
    obtain ⟨isEva, hf⟩ := fixedBits_of_decode hd
    cases isEva with
    | false => exact absurd (fixedBits_iff_mask.1 hf) hcache
    | true => exact absurd (fixedBits_iff_mask.1 hf) hcachee

/-- Settles O5: the offset is the signed value of the field, and sign extension keeps the signed value. -/
theorem offsetIsSignExtended : Obligations.OffsetIsSignExtended := by
  refine ⟨fun w isEva op rs offset h => ?_, by decide⟩
  obtain ⟨-, -, -, rfl⟩ := decode_eq_ok_iff_fields.1 h
  obtain ⟨hlo, hhi⟩ := offsetFits_iff.1 (offsetFits_toInt (offsetField w))
  exact ⟨hlo, hhi, rfl, rfl⟩

/-- Settles O1: the decoder run on the eleven words. -/
theorem decodesWrittenWords : Obligations.DecodesWrittenWords := by
  unfold Obligations.DecodesWrittenWords
  decide

/-! ### Words and values of op that have no meaning (R61, R65, R80) -/

theorem coreStep_of_undecodable {s : State} {bytes : List Byte} {why : DecodeError} (hb : s.fetchBytes = some bytes)
    (hd : decodeBytes s.cfg.fetchOrder bytes = .error why) : coreStep s = .refused (.notAnInstruction why) := by
  simp only [coreStep, hb, hd]

/-- Settles O7: the turn is taken, the four bytes are fetched, and the decoder's error is the refusal. -/
theorem stepRefusesOtherWords : Obligations.StepRefusesOtherWords := by
  intro s pa0 pa1 pa2 pa3 cca0 cca1 cca2 cca3 why hturn h0 h1 h2 h3 hd
  have hb := fetchBytes_of_translate h0 h1 h2 h3
  calc step s = coreStep s.turnTaken := step_of_coreTurn hturn
    _ = .refused (.notAnInstruction why) := coreStep_of_undecodable ((fetchBytes_turnTaken s).trans hb) hd

/-- R80: an unused value and a value whose cache is absent are not implemented. -/
theorem opImplemented_eq_false {cfg : Config} {op : BitVec 5} (h : op = 24#5 ∨ op = 30#5 ∨ op = 31#5 ∨
    cfg.present (opCache op) = false ∨ cfg.opImplemented op = false) : cfg.opImplemented op = false := by
  refine Bool.eq_false_iff.2 fun himpl => ?_
  obtain ⟨hused, hpresent⟩ := opImplemented_present himpl
  rcases h with rfl | rfl | rfl | habsent | hnot
  · exact absurd hused (by decide)
  · exact absurd hused (by decide)
  · exact absurd hused (by decide)
  · exact absurd (hpresent.symm.trans habsent) (by decide)
  · exact absurd (himpl.symm.trans hnot) (by decide)

/-- Settles O14: the tests pass, the address is not uncached, and `CacheOp` refuses an op that is not implemented (decision D8). -/
theorem opThatSelectsNothingIsRefused : Obligations.OpThatSelectsNothingIsRefused := by
  intro isEva op rs offset s pa cca htr h2 h7 hsel
  rw [exec_of_translates htr]
  simp [operateAndAdvance, uncached_eq_false ⟨h2, h7⟩, cacheOp, opImplemented_eq_false hsel, andThen]

end Sys2Proof.Machine

/-! SUPPORT. The tests before an operation (spec/40_cache.md R73 to R79): each said once by the fault it raises (`StopsWith`), and told from the
faults that steps 7 and 8 of R70 raise (`exec_eq_fault_iff`); and where an operation itself stops (R83, R84, R107). -/

namespace Sys2Proof

/-! ### Line blocks (R82) -/

theorem dvd_commonLine_left (block size : Nat) : block ∣ commonLine block size := by
  unfold commonLine
  split
  · exact dvd_rfl
  · exact Nat.dvd_lcm_left ..

theorem dvd_commonLine_right (block : Nat) {size : Nat} (h : 0 < size) : size ∣ commonLine block size := by
  rw [commonLine, if_neg h.ne']
  exact Nat.dvd_lcm_right ..

/-- A block is a whole number of lines of every cache. -/
theorem lineSize_dvd_lineBlock {cfg : Config} {c : CacheName} (h : 0 < cfg.lineSize c) : cfg.lineSize c ∣ cfg.lineBlock := by
  unfold Config.lineBlock
  have grow {d block : Nat} (size : Nat) (hd : d ∣ block) : d ∣ commonLine block size := hd.trans (dvd_commonLine_left block size)
  cases c with
  | icache => exact grow _ (grow _ (grow _ (dvd_commonLine_right _ h)))
  | dcache => exact grow _ (grow _ (dvd_commonLine_right _ h))
  | tcache => exact grow _ (dvd_commonLine_right _ h)
  | scache => exact dvd_commonLine_right _ h

/-- Two addresses in one line are in one block of any whole number of lines. -/
theorem sub_mod_eq_of_div_eq {a b size block : Nat} (hd : size ∣ block) (h : a / size = b / size) :
    a - a % block = b - b % block := by
  obtain ⟨k, rfl⟩ := hd
  have hdiv : a / (size * k) = b / (size * k) := by rw [← Nat.div_div_eq_div_mul, h, Nat.div_div_eq_div_mul]
  rw [← Nat.mul_div_self_eq_mod_sub_self, ← Nat.mul_div_self_eq_mod_sub_self, hdiv]

/-- Settles O16: `AddrErr` sees an address by its block, which is a whole number of lines of the cache. -/
theorem alignmentNeverRaisesAddressError : Obligations.AlignmentNeverRaisesAddressError := by
  intro cfg c va va' isEva hsize hline
  rw [Config.addrErr, Config.addrErr, sub_mod_eq_of_div_eq (lineSize_dvd_lineBlock hsize) hline]

/-- The values 12 to 15. -/
theorem opImplDep_iff : ∀ op : BitVec 5, opImplDep op = true ↔ 12 ≤ op.toNat ∧ op.toNat ≤ 15 := by decide

/-- R77: the Index operations, those of decision D20 included. -/
theorem isIndexOp_iff {cfg : Config} {op : BitVec 5} : cfg.isIndexOp op = true ↔
    op.toNat ≤ 11 ∨ (12 ≤ op.toNat ∧ op.toNat ≤ 15 ∧ (cfg.cacheOf (opCache op)).implDepIsIndex = true) := by
  rw [Config.isIndexOp, Bool.or_eq_true, decide_eq_true_eq, Bool.and_eq_true, opImplDep_iff, and_assoc]

namespace Machine

/-! ### The faults of steps 7 and 8 (R79 to R81) -/

/-- The faults that an instruction whose address has translated can raise: R79, R83, R84, R104, R109. -/
def Fault.afterTranslation : Fault → Bool
  | .exception .cacheError => true
  | .exception .busError => true
  | .unpredictable .uncachedAddress => true
  | .unpredictable .ownLine => true
  | .undefined _ => true
  | _ => false

/-- A fault of the outcome, if it is one, is a fault of steps 7 and 8. -/
structure FaultsLate (o : Result) : Prop where
  afterTranslation : ∀ r, o = .fault r → r.afterTranslation = true

theorem FaultsLate.next (s : State) : FaultsLate (.next s) := ⟨nofun⟩

theorem FaultsLate.refused (r : Refusal) : FaultsLate (.refused r) := ⟨nofun⟩

theorem FaultsLate.fault {r : Fault} (h : r.afterTranslation = true) : FaultsLate (.fault r) := ⟨fun _ hr => by cases hr; exact h⟩

section
variable {o : Result} {c : CacheName} {s : State}

theorem FaultsLate.andThen {f : State → Result} (ho : FaultsLate o) (hf : ∀ s, FaultsLate (f s)) : FaultsLate (andThen o f) := by
  cases o with
  | next s => exact hf s
  | fault r => exact .fault (ho.afterTranslation r rfl)
  | refused r => exact .refused r

/-- A fault that the second part does not raise is one of the first. -/
theorem andThen_eq_fault {f : State → Result} {r : Fault} (h : andThen o f = .fault r) (hf : ∀ s, f s ≠ .fault r) :
    o = .fault r := by
  cases o with
  | next s => exact absurd h (hf s)
  | fault q => exact h
  | refused q => cases h

theorem FaultsLate.eachCore {act : Nat → State → Result} (h : ∀ core s, FaultsLate (act core s)) :
    ∀ (cores : List Nat) (s : State), FaultsLate (eachCore act cores s)
  | [], s => .next s
  | core :: cores, s => .andThen (h core s) (FaultsLate.eachCore h cores)

theorem FaultsLate.ownLineCheck {core t : Nat} {rest : State → Result} (h : FaultsLate (rest s)) :
    FaultsLate (ownLineCheck core c t s rest) := by
  unfold Machine.ownLineCheck
  split
  · exact .fault rfl
  · exact h

theorem FaultsLate.lockAllWaysCheck {t : Nat} {rest : State → Result} (h : FaultsLate (rest s)) :
    FaultsLate (lockAllWaysCheck c t s rest) := by
  unfold Machine.lockAllWaysCheck
  split
  · exact .fault rfl
  · exact h

theorem FaultsLate.chooseVictim {pa choice : Nat} {va : Word} {rest : Nat → State → Result} (h : ∀ t, FaultsLate (rest t s)) :
    FaultsLate (chooseVictim c pa va choice s rest) := by
  unfold Machine.chooseVictim
  split
  · exact .fault rfl
  · exact h _

variable (c s) (va : Word) (pa cca : Nat)

theorem indexInvalidate_faultsLate : FaultsLate (indexInvalidate c va s) := .ownLineCheck (.next _)

theorem indexWriteBackInvalidate_faultsLate : FaultsLate (indexWriteBackInvalidate c va s) := .ownLineCheck (.next _)

theorem indexStoreTag_faultsLate : FaultsLate (indexStoreTag c va s) := by
  unfold indexStoreTag storeTag
  split
  · exact .refused _
  · split
    · exact .fault rfl
    · exact .next _

theorem hitInvalidate_faultsLate (op : BitVec 5) : FaultsLate (hitInvalidate op c pa cca s) := by
  refine .eachCore (fun core s => ?_) _ s
  unfold hitInvalidateOn
  split
  · exact .next s
  · exact .ownLineCheck (.next _)

theorem hitWriteBackInvalidate_faultsLate (op : BitVec 5) : FaultsLate (hitWriteBackInvalidate op c pa cca s) := by
  refine .eachCore (fun core s => ?_) _ s
  unfold hitWriteBackInvalidateOn
  split
  · exact .next s
  · exact .ownLineCheck (.next _)

theorem hitWriteBack_faultsLate (op : BitVec 5) : FaultsLate (hitWriteBack op c pa cca s) := by
  refine .eachCore (fun core s => ?_) _ s
  unfold hitWriteBackOn
  split
  · exact .next s
  · split <;> exact .next _

theorem fill_faultsLate : FaultsLate (fill c va pa s) := by
  unfold fill
  split
  · exact .next _
  · exact .chooseVictim fun _ => .next _

theorem fetchAndLockLine_faultsLate (choice : Nat) : FaultsLate (fetchAndLockLine c va pa choice s) := by
  unfold fetchAndLockLine
  split
  · exact .lockAllWaysCheck (.next _)
  · exact .chooseVictim fun _ => .lockAllWaysCheck (.next _)

theorem fetchAndLockLines_faultsLate : ∀ (qs : List (Word × Nat)) (s : State), FaultsLate (fetchAndLockLines c qs s)
  | [], s => .next s
  | (va, pa) :: qs, s => .andThen (fetchAndLockLine_faultsLate c s va pa _) fun u => fetchAndLockLines_faultsLate qs u.drawn

/-- R110 to R141, by the kind of op and its cache. -/
theorem standardOp_faultsLate (kind : BitVec 3) : FaultsLate (standardOp (opOf kind c) va pa cca s) := by
  rcases kind_cases kind with rfl | rfl | rfl | rfl | rfl | rfl | rfl | rfl
  · cases c with
    | icache => exact indexInvalidate_faultsLate ..
    | _ => exact indexWriteBackInvalidate_faultsLate ..
  · cases c <;> exact .next _
  · cases c <;> exact indexStoreTag_faultsLate ..
  · cases c <;> exact .refused _
  · cases c <;> exact hitInvalidate_faultsLate ..
  · cases c with
    | icache => exact fill_faultsLate ..
    | _ => exact hitWriteBackInvalidate_faultsLate ..
  · cases c with
    | icache => exact .refused _
    | _ => exact hitWriteBack_faultsLate ..
  · cases c with
    | icache | dcache => exact fetchAndLockLines_faultsLate ..
    | tcache | scache => exact .refused _

theorem standardOps_faultsLate : ∀ (kinds : List (BitVec 3)) (s : State), FaultsLate (standardOps c kinds va pa cca s)
  | [], s => .next s
  | kind :: kinds, s => .andThen (standardOp_faultsLate c s va pa cca kind) (standardOps_faultsLate kinds)

theorem implDep_faultsLate (op : BitVec 5) : FaultsLate (implDep op va pa cca s) := by
  unfold implDep
  split
  · exact standardOps_faultsLate ..
  · exact .next _
  · exact .refused _

/-- R100: the rule of an op that is not implementation dependent is that of a described operation. -/
theorem operation_eq_standardOp {kind : BitVec 3} (h : kind ≠ 3#3) :
    operation (opOf kind c) va pa cca s = standardOp (opOf kind c) va pa cca s := by
  rcases kind_cases kind with rfl | rfl | rfl | rfl | rfl | rfl | rfl | rfl
  case inr.inr.inr.inl => exact absurd rfl h
  all_goals cases c <;> rfl

theorem operation_faultsLate (op : BitVec 5) : FaultsLate (operation op va pa cca s) := by
  rw [← opOf_opKind_opCache op]
  by_cases h : opKind op = 3#3
  · rw [h, operation_implDep]
    exact implDep_faultsLate ..
  · rw [operation_eq_standardOp _ _ _ _ _ h]
    exact standardOp_faultsLate ..

theorem reportError_faultsLate (op : BitVec 5) (u : State) : FaultsLate (reportError op s u) := by
  unfold reportError
  split
  · exact .next _
  · exact .fault rfl
  · exact .fault rfl

/-- R79 to R81. -/
theorem operateAndAdvance_faultsLate (op : BitVec 5) : FaultsLate (operateAndAdvance op va pa cca s) := by
  unfold operateAndAdvance
  split
  · split
    · exact .next _
    · exact .fault rfl
  · refine .andThen ?_ fun _ => .next _
    unfold cacheOp
    split
    · exact .andThen (operation_faultsLate ..) (reportError_faultsLate s op)
    · exact .refused _

end

/-! ### The tests of steps 1 to 6 (R73 to R78) -/

/-- The first test of R70 that does not pass, and the fault that it raises. -/
inductive StopsWith (isEva : Bool) (op : BitVec 5) (va : Word) (s : State) : Fault → Prop where
  /-- R73. -/
  | noCaches : s.cfg.config5NMS = true → s.cfg.noCaches = true → StopsWith isEva op va s (.exception .reservedInstruction)
  /-- R74. -/
  | noEva : isEva = true → s.cfg.config5EVA = false → StopsWith isEva op va s (.exception .reservedInstruction)
  /-- R75. -/
  | coprocessorUnusable : ¬(s.cfg.config5NMS = true ∧ s.cfg.noCaches = true) → ¬(isEva = true ∧ s.cfg.config5EVA = false) →
      s.cp0Enabled = false → StopsWith isEva op va s (.exception (.coprocessorUnusable 0))
  /-- R76. -/
  | addressError : Enabled isEva s → s.cfg.addrErr va isEva = true → StopsWith isEva op va s (.exception (.addressError va))
  /-- R77. -/
  | indexNotUnmapped : Enabled isEva s → s.cfg.addrErr va isEva = false → s.cfg.isIndexOp op = true →
      s.cfg.isUnmapped va isEva = false → StopsWith isEva op va s (.unpredictable .indexNotUnmapped)
  /-- R78, R154. -/
  | tlbRefill : Enabled isEva s → s.cfg.addrErr va isEva = false → (s.cfg.isIndexOp op = true → s.cfg.isUnmapped va isEva = true) →
      s.cfg.translate va isEva = .refill → StopsWith isEva op va s (.exception (.tlbRefill va))
  /-- R78, R155. -/
  | tlbInvalid : Enabled isEva s → s.cfg.addrErr va isEva = false → (s.cfg.isIndexOp op = true → s.cfg.isUnmapped va isEva = true) →
      s.cfg.translate va isEva = .invalid → StopsWith isEva op va s (.exception (.tlbInvalid va))

theorem enabled_iff {isEva : Bool} {s : State} : Enabled isEva s ↔ ¬(s.cfg.config5NMS = true ∧ s.cfg.noCaches = true) ∧
    ¬(isEva = true ∧ s.cfg.config5EVA = false) ∧ s.cp0Enabled = true := by
  rw [not_and, not_and, Bool.not_eq_true, Bool.not_eq_false]
  exact ⟨fun h => ⟨h.caches, h.eva, h.cp0⟩, fun ⟨hcaches, heva, hcp0⟩ => ⟨hcaches, heva, hcp0⟩⟩

section
variable {isEva : Bool} {op rs : BitVec 5} {offset : Int} {s : State} {r : Fault}

/-- R70: a test stops the instruction, or its address translates. -/
theorem stopsWith_or_translates (isEva : Bool) (op : BitVec 5) (va : Word) (s : State) :
    (∃ r, StopsWith isEva op va s r) ∨ ∃ pa cca, Translates isEva op va pa cca s := by
  by_cases hcaches : s.cfg.config5NMS = true ∧ s.cfg.noCaches = true
  · exact .inl ⟨_, .noCaches hcaches.1 hcaches.2⟩
  by_cases heva : isEva = true ∧ s.cfg.config5EVA = false
  · exact .inl ⟨_, .noEva heva.1 heva.2⟩
  cases hcp0 : s.cp0Enabled with
  | false => exact .inl ⟨_, .coprocessorUnusable hcaches heva hcp0⟩
  | true =>
    have hen : Enabled isEva s := enabled_iff.2 ⟨hcaches, heva, hcp0⟩
    cases haddr : s.cfg.addrErr va isEva with
    | true => exact .inl ⟨_, .addressError hen haddr⟩
    | false =>
      by_cases hindex : s.cfg.isIndexOp op = true → s.cfg.isUnmapped va isEva = true
      · cases htr : s.cfg.translate va isEva with
        | ok pa cca => exact .inr ⟨pa, cca, hen, haddr, hindex, htr⟩
        | refill => exact .inl ⟨_, .tlbRefill hen haddr hindex htr⟩
        | invalid => exact .inl ⟨_, .tlbInvalid hen haddr hindex htr⟩
      · obtain ⟨hi, hu⟩ := Classical.not_imp.1 hindex
        exact .inl ⟨_, .indexNotUnmapped hen haddr hi (Bool.eq_false_iff.2 hu)⟩

/-- A test that does not pass raises its fault. -/
theorem exec_of_stopsWith (h : StopsWith isEva op (addressOf s rs offset) s r) :
    exec (cacheop isEva op rs offset) s = .fault r := by
  have passes (hindex : s.cfg.isIndexOp op = true → s.cfg.isUnmapped (addressOf s rs offset) isEva = true) :
      (s.cfg.isIndexOp op && !s.cfg.isUnmapped (addressOf s rs offset) isEva) = false := by simpa using hindex
  rw [exec_cacheop]
  cases h with
  | noCaches hn hc => simp [cacheInstr, hn, hc, raiseException]
  | noEva he hn => simp [cacheInstr, he, hn, raiseException]
  | coprocessorUnusable hc he h0 =>
    have hc' : (s.cfg.config5NMS && s.cfg.noCaches) = false := by simpa using hc
    have he' : (isEva && !s.cfg.config5EVA) = false := by simpa using he
    simp [cacheInstr, hc', he', h0, raiseException]
  | addressError hen ha => simp [cacheInstr_of_enabled hen, cacheAt, ha, raiseException]
  | indexNotUnmapped hen ha hi hu => simp [cacheInstr_of_enabled hen, cacheAt, ha, hi, hu]
  | tlbRefill hen ha hi ht => simp [cacheInstr_of_enabled hen, cacheAt, ha, passes hi, ht, raiseException]
  | tlbInvalid hen ha hi ht => simp [cacheInstr_of_enabled hen, cacheAt, ha, passes hi, ht, raiseException]

/-- R70: a fault that steps 7 and 8 do not raise is raised exactly by the test it belongs to. -/
theorem exec_eq_fault_iff (hr : r.afterTranslation = false) :
    exec (cacheop isEva op rs offset) s = .fault r ↔ StopsWith isEva op (addressOf s rs offset) s r := by
  refine ⟨fun h => ?_, exec_of_stopsWith⟩
  rcases stopsWith_or_translates isEva op (addressOf s rs offset) s with ⟨q, hq⟩ | ⟨pa, cca, htr⟩
  · cases (exec_of_stopsWith hq).symm.trans h
    exact hq
  · rw [exec_of_translates htr] at h
    cases hr.symm.trans ((operateAndAdvance_faultsLate s _ pa cca op).afterTranslation r h)

end

/-- Settles O9: R75 is the one test that raises it. -/
theorem coprocessorUnusableExactlyWhen : Obligations.CoprocessorUnusableExactlyWhen := fun _ _ _ _ _ _ =>
  (exec_eq_fault_iff rfl).trans ⟨fun | .coprocessorUnusable hcaches heva hcp0 => ⟨rfl, hcp0, hcaches, heva⟩,
    fun ⟨hn, hcp0, hcaches, heva⟩ => hn ▸ .coprocessorUnusable hcaches heva hcp0⟩

/-- Settles O10: R76 is the one test that raises it, and no operation writes a general register. -/
theorem addressErrorExactlyWhen : Obligations.AddressErrorExactlyWhen := by
  refine fun isEva op rs offset s => ⟨fun va => (exec_eq_fault_iff rfl).trans ⟨?_, ?_⟩, fun t => exec_x⟩
  · exact fun | .addressError hen haddr => ⟨hen, rfl, haddr⟩
  · rintro ⟨hen, rfl, haddr⟩
    exact .addressError hen haddr

/-- Settles O11: R77 is the one test that raises it. -/
theorem indexNotUnmappedExactlyWhen : Obligations.IndexNotUnmappedExactlyWhen := by
  intro isEva op rs offset s
  rw [← isIndexOp_iff]
  exact (exec_eq_fault_iff rfl).trans ⟨fun | .indexNotUnmapped hen haddr hindex hmapped => ⟨hen, haddr, hindex, hmapped⟩,
    fun ⟨hen, haddr, hindex, hmapped⟩ => .indexNotUnmapped hen haddr hindex hmapped⟩

/-- Decision D19: an Index operation whose address passes R77 translates. -/
theorem translate_ne_of_index {cfg : Config} {op : BitVec 5} {va : Word} {isEva : Bool} (hop : op.toNat ≤ 11)
    (hindex : cfg.isIndexOp op = true → cfg.isUnmapped va isEva = true) :
    cfg.translate va isEva ≠ .refill ∧ cfg.translate va isEva ≠ .invalid := by
  obtain ⟨pa, cca, hok⟩ := translate_of_unmapped (hindex (isIndexOp_iff.2 (.inl hop)))
  simp [hok]

/-- Settles O12: R78 alone raises them, and the address of an op of at most 11 that passes R77 translates. -/
theorem tlbExceptionsExactlyWhen : Obligations.TlbExceptionsExactlyWhen := by
  intro isEva op rs offset s va
  refine ⟨(exec_eq_fault_iff rfl).trans ⟨?_, ?_⟩, (exec_eq_fault_iff rfl).trans ⟨?_, ?_⟩, fun hop => ⟨fun h => ?_, fun h => ?_⟩⟩
  · exact fun | .tlbRefill hen haddr hindex htr => ⟨hen, rfl, haddr, hindex, htr⟩
  · rintro ⟨hen, rfl, haddr, hindex, htr⟩
    exact .tlbRefill hen haddr hindex htr
  · exact fun | .tlbInvalid hen haddr hindex htr => ⟨hen, rfl, haddr, hindex, htr⟩
  · rintro ⟨hen, rfl, haddr, hindex, htr⟩
    exact .tlbInvalid hen haddr hindex htr
  · cases (exec_eq_fault_iff rfl).1 h with
    | tlbRefill _ _ hindex htr => exact (translate_ne_of_index hop hindex).1 htr
  · cases (exec_eq_fault_iff rfl).1 h with
    | tlbInvalid _ _ hindex htr => exact (translate_ne_of_index hop hindex).2 htr

/-- Settles O13: the tests pass, and R79 looks at the cca before op. -/
theorem uncachedAddressResult : Obligations.UncachedAddressResult := by
  intro isEva op rs offset s pa cca htr hcca
  have hu : uncached cca = true := by simpa [uncached] using hcca
  rw [exec_of_translates htr, operateAndAdvance, if_pos hu, State.advance]

/-! ### Index Store Tag (R107) -/

theorem heldElsewhere_iff {s : State} {c : CacheName} {t a : Nat} :
    s.heldElsewhere c t a = true ↔ ∃ u, u ≠ t ∧ Holds s 0 c u a := by
  simp only [State.heldElsewhere, List.any_eq_true, List.mem_range, Bool.and_eq_true, decide_eq_true_eq, holds_iff]
  exact ⟨fun ⟨u, hlt, hne, hl⟩ => ⟨u, hne, hlt, hl⟩, fun ⟨u, hne, hlt, hl⟩ => ⟨u, hlt, hne, hl⟩⟩

theorem othersLocked_iff {s : State} {c : CacheName} {t : Nat} :
    s.othersLocked c t = true ↔ ∀ u, u ∈ s.cfg.setOfSlot c t → u ≠ t → (s.line 0 c u).locked = true := by
  simp only [State.othersLocked, List.all_eq_true, Bool.or_eq_true, decide_eq_true_eq, or_iff_not_imp_left]

section
variable {s : State} {c : CacheName} {t : Nat} {tag : Tag}

/-- R107: the first test. -/
theorem storeTag_of_held (hv : tag.valid = true) (h : s.heldElsewhere c t tag.addr = true) :
    storeTag c t tag s = .refused (.duplicateLine c tag.addr) := by simp [storeTag, hv, h]

/-- R84: the test that follows. -/
theorem storeTag_of_othersLocked (hd : ¬(tag.valid = true ∧ s.heldElsewhere c t tag.addr = true)) (hl : tag.locked = true)
    (h : s.othersLocked c t = true) : storeTag c t tag s = .fault (.undefined .allWaysLocked) := by
  rw [storeTag, if_neg (by rwa [Bool.and_eq_true]), hl, h]
  rfl

/-- R83 has no part in an Index Store Tag. -/
theorem storeTag_ne_ownLine : storeTag c t tag s ≠ .fault (.unpredictable .ownLine) := by
  unfold storeTag
  split
  · nofun
  · split <;> nofun

end

/-- Settles O23: the operation is entered, and R107 makes its two tests in order. -/
theorem indexStoreTagStops : Obligations.IndexStoreTagStops := by
  intro isEva c rs offset s pa cca slot tag he hslot htag
  rw [exec_of_entersOp he, operation_indexStoreTag, indexStoreTag, ← hslot, ← htag, ← heldElsewhere_iff, ← othersLocked_iff]
  refine ⟨fun ⟨hv, hd⟩ => ?_, fun hd hl ho => ?_⟩
  · rw [storeTag_of_held hv hd, andThen_refused]
  · rw [storeTag_of_othersLocked hd hl ho, andThen_fault]

/-! ### The own line (R83) -/

section
variable {s : State} {c : CacheName} {kind : BitVec 3} {core pa t : Nat}

theorem ownLineCheck_stops {rest : State → Result} (h : s.isOwnLine c (s.line core c t) = true) :
    ownLineCheck core c t s rest = .fault (.unpredictable .ownLine) := if_pos h

/-- R110 to R113: every Index operation that invalidates makes the test of its slot. -/
theorem operation_index_ownLine {va : Word} (h : s.isOwnLine c (s.line 0 c (s.cfg.indexSlot c va)) = true) (cca : Nat) :
    operation (opOf 0#3 c) va pa cca s = .fault (.unpredictable .ownLine) := by
  by_cases hc : c = .icache
  · subst hc
    rw [operation_indexInvalidate]
    exact ownLineCheck_stops h
  · rw [operation_indexWriteBackInvalidate _ _ _ _ _ hc]
    exact ownLineCheck_stops h

/-- A Hit operation that misses on a core leaves the state to the next core as it was. -/
theorem hitOn_of_miss (h : s.hitSlot core c pa = none) : hitOn kind c pa core s = .next s := by
  simp [hitOn, hitInvalidateOn, hitWriteBackInvalidateOn, hitWriteBackOn, h]

/-- R83 on one core. -/
theorem hitOn_ownLine (hk : kind = 4#3 ∨ kind = 5#3) (h : s.hitSlot core c pa = some t)
    (hin : InstructionIn s c (s.cfg.lineAddr c pa)) : hitOn kind c pa core s = .fault (.unpredictable .ownLine) := by
  obtain ⟨-, hv, ha⟩ := holds_of_hitSlot h
  have hown : s.isOwnLine c (s.line core c t) = true := isOwnLine_iff.2 ⟨hv, ha ▸ hin⟩
  rcases hk with rfl | rfl
  · simp [hitOn_invalidate, hitInvalidateOn, h, ownLineCheck_stops hown]
  · simp [hitOn_writeBackInvalidate, hitWriteBackInvalidateOn, h, ownLineCheck_stops hown]

/-- R83, R108: the first core of the list that holds the line stops the broadcast, and those before it change nothing. -/
theorem eachCore_hitOn_ownLine (hk : kind = 4#3 ∨ kind = 5#3) (hin : InstructionIn s c (s.cfg.lineAddr c pa)) :
    ∀ cores : List Nat, (∃ core ∈ cores, ¬Misses s core c (s.cfg.lineAddr c pa)) →
      eachCore (hitOn kind c pa) cores s = .fault (.unpredictable .ownLine) := by
  intro cores
  induction cores with
  | nil => exact fun ⟨_, hmem, _⟩ => nomatch hmem
  | cons core cores ih =>
    rintro ⟨holder, hmem, hhit⟩
    cases hs : s.hitSlot core c pa with
    | some t => rw [eachCore, hitOn_ownLine hk hs hin, andThen_fault]
    | none =>
      have hne : holder ≠ core := fun he => hhit (he ▸ hitSlot_eq_none_iff.1 hs)
      rw [eachCore, hitOn_of_miss hs, andThen_next]
      exact ih ⟨holder, (List.mem_cons.1 hmem).resolve_left hne, hhit⟩

end

/-- Settles O30: the own-line test on the slot that an index selects, on the cores that a Hit operation reaches in turn, and none in Index
Store Tag. -/
theorem ownLineIsUnpredictable : Obligations.OwnLineIsUnpredictable := by
  intro isEva kind c rs offset s pa cca he
  rw [exec_of_entersOp he]
  refine ⟨?_, fun hk ⟨core, hcore, hhit⟩ hin => ?_, ?_⟩
  · rintro rfl _ rfl hv hin
    rw [operation_index_ownLine (isOwnLine_iff.2 ⟨hv, hin⟩), andThen_fault]
  · have hkind : HitKind kind c := hk.imp_right fun ⟨hc, h5⟩ => ⟨hc, .inl h5⟩
    rw [operation_hitOn hkind, eachCore_hitOn_ownLine (hk.imp_right And.right) hin _ ⟨core, mem_reached hcore, hhit⟩, andThen_fault]
  · rintro rfl
    rw [operation_indexStoreTag, indexStoreTag]
    exact fun h => storeTag_ne_ownLine (andThen_eq_fault h fun _ => nofun)

/-! ### Locking the last way (R84) -/

section
variable {s : State} {c : CacheName} {va : Word} {pa choice t : Nat}

theorem lockSlot_of_othersLocked (h : s.othersLocked c t = true) : lockSlot c t s = .fault (.undefined .allWaysLocked) := if_pos h

/-- R84, R138 on a hit. -/
theorem fetchAndLockLine_of_lastWay_hit (h : s.hitSlot 0 c pa = some t) (hl : s.othersLocked c t = true) :
    fetchAndLockLine c va pa choice s = .fault (.undefined .allWaysLocked) := by
  simp only [fetchAndLockLine, h, lockSlot_of_othersLocked hl]

/-- R104: where one slot of the set is not locked, every free value picks it. -/
theorem chooseVictim_of_lastWay (hmem : t ∈ s.cfg.setOf c pa va) (hfree : (s.line 0 c t).locked = false)
    (hl : ∀ u, u ∈ s.cfg.setOf c pa va → u ≠ t → (s.line 0 c u).locked = true) (rest : Nat → State → Result) :
    chooseVictim c pa va choice s rest = rest t s := by
  have hne : (s.victims c pa va).isEmpty = false := by
    rw [List.isEmpty_eq_false_iff]
    exact List.ne_nil_of_mem (mem_victims.2 ⟨hmem, hfree⟩)
  obtain ⟨hset, hunlocked⟩ := mem_victims.1 (pickFrom_mem hne choice)
  have hpick : pickFrom (s.victims c pa va) choice = t :=
    Decidable.byContradiction fun hn => Bool.eq_false_iff.1 hunlocked (hl _ hset hn)
  rw [chooseVictim, hne, hpick]
  rfl

/-- The write-back and the fill of a slot change no other slot, so they do not decide whether the others are locked. -/
theorem othersLocked_fillLine : ((s.writeBackLine 0 c t).fillLine 0 c t pa).othersLocked c t = s.othersLocked c t := by
  have hline {u : Nat} (hne : u ≠ t) : ((s.writeBackLine 0 c t).fillLine 0 c t pa).line 0 c u = s.line 0 c u := by
    rw [line_fillLine, if_neg fun h => hne h.2.2.2, writeBackLine_line]
  rw [Bool.eq_iff_iff, othersLocked_iff, othersLocked_iff, fillLine_cfg, writeBackLine_cfg]
  exact forall₃_congr fun u _ hne => by rw [hline hne]

/-- R84, R138 on a miss that leaves one way to choose. -/
theorem fetchAndLockLine_of_lastWay_miss (h : s.hitSlot 0 c pa = none) (hmem : t ∈ s.cfg.setOf c pa va)
    (hfree : (s.line 0 c t).locked = false) (hl : ∀ u, u ∈ s.cfg.setOf c pa va → u ≠ t → (s.line 0 c u).locked = true) :
    fetchAndLockLine c va pa choice s = .fault (.undefined .allWaysLocked) := by
  have hothers : s.othersLocked c t = true := othersLocked_iff.2 (setOfSlot_of_mem_setOf hmem ▸ hl)
  simp only [fetchAndLockLine, h]
  rw [chooseVictim_of_lastWay hmem hfree hl]
  exact lockSlot_of_othersLocked (othersLocked_fillLine.trans hothers)

/-- The line of the address is locked first, so its neighbours do not matter (R138). -/
theorem fetchAndLock_of_fault {r : Fault} (h : fetchAndLockLine c va pa (Config.freeVictim s.draws) s = .fault r) :
    fetchAndLock c va pa s = .fault r := by
  rw [fetchAndLock, Config.lockTargets, fetchAndLockLines, h, andThen_fault]

end

/-- Settles O38: the line of the address is the first to be locked, and its slot fails the test of R84 on a hit and on a miss. -/
theorem lockingEveryWayIsUndefined : Obligations.LockingEveryWayIsUndefined := by
  intro isEva c rs offset s pa cca slot hc he
  rw [exec_of_entersOp he, operation_fetchAndLock _ _ _ _ _ hc]
  refine ⟨fun hu hholds hl => ?_, fun hmiss hmem hfree hl => ?_⟩
  · have hline := fetchAndLockLine_of_lastWay_hit (va := addressOf s rs offset) (choice := Config.freeVictim s.draws)
      (hitSlot_of_holds hu hholds) (othersLocked_iff.2 hl)
    rw [fetchAndLock_of_fault hline, andThen_fault]
  · have hline := fetchAndLockLine_of_lastWay_miss (choice := Config.freeVictim s.draws) (hitSlot_eq_none_iff.2 hmiss) hmem hfree hl
    rw [fetchAndLock_of_fault hline, andThen_fault]

end Machine

end Sys2Proof

/-! SUPPORT. The operations that write one slot of this core's cache (spec/41_cache_operations.md R101 to R137): what such an operation leaves
is said once (`WritesSlot`), with what completion adds to it (`completes`), and each statement names the record and the write-back. -/

namespace Sys2Proof.Machine

/-! ### Choosing the slot (R101) -/

/-- Settles O18: `IndexSlot` reads the line address alone, and every value of `SetOf` is the set of each of its slots. -/
theorem indexAndSetSelectSlots : Obligations.IndexAndSetSelectSlots := by
  intro cfg c hp
  refine ⟨fun va va' => ⟨indexSlot_lt hp va, fun hline _ => ?_⟩,
    fun pa va => ⟨?_, fun t ht => ⟨setOf_lt ht, setOfSlot_of_mem_setOf ht⟩⟩, fun pa va pa' va' => ?_, fun hlegal t ht => ?_⟩
  · have haddr : cfg.lineAddr c va.toNat = cfg.lineAddr c va'.toNat := sub_mod_eq_of_div_eq dvd_rfl hline
    rw [Config.indexSlot, Config.indexSlot, haddr]
  · obtain ⟨t, ht⟩ := exists_mem_setOf hp pa va
    exact List.ne_nil_of_mem ht
  · by_cases hcommon : ∃ t, t ∈ cfg.setOf c pa va ∧ t ∈ cfg.setOf c pa' va'
    · obtain ⟨t, ht, ht'⟩ := hcommon
      exact .inl ((setOfSlot_of_mem_setOf ht).symm.trans (setOfSlot_of_mem_setOf ht'))
    · exact .inr fun t ht ht' => hcommon ⟨t, ht, ht'⟩
  · obtain ⟨pa, va, -, hmem⟩ := hlegal.sets c hp t ht
    exact ⟨pa, va, hmem⟩

/-! ### Writing one slot -/

/-- Slot v of cache c of this core is left with record l and the write-backs `sent` are started; no other record changes. -/
structure WritesSlot (c : CacheName) (v : Nat) (l : Line) (sent : List Pending) (s t : State) : Prop where
  line : t.line 0 c v = l
  other : KeepsOtherLines s t c v
  wbPending : t.wbPending = s.wbPending ++ sent

section
variable {c : CacheName} {v : Nat} {l : Line} {sent : List Pending} {s t u : State}

/-- A record is written once the write-backs have been started. -/
theorem WritesSlot.setLine (hlines : KeepsLines s t) (hwb : t.wbPending = s.wbPending ++ sent) :
    WritesSlot c v l sent s (t.setLine 0 c v l) where
  line := line_setLine_own ..
  other := fun k d w hne => (line_setLine_ne t l hne).trans (hlines k d w)
  wbPending := by rw [setLine_wbPending, hwb]

theorem WritesSlot.keepsLines (h : WritesSlot c v l sent s t) (hlines : KeepsLines t u) (hwb : u.wbPending = t.wbPending) :
    WritesSlot c v l sent s u where
  line := (hlines 0 c v).trans h.line
  other := fun k d w hne => (hlines k d w).trans (h.other k d w hne)
  wbPending := hwb.trans h.wbPending

theorem writesSlot_setLine (s : State) (c : CacheName) (v : Nat) (l : Line) : WritesSlot c v l [] s (s.setLine 0 c v l) :=
  .setLine (fun _ _ _ => rfl) (List.append_nil _).symm

/-- R105: an invalidation. -/
theorem writesSlot_invalidateSlot (s : State) (c : CacheName) (v : Nat) :
    WritesSlot c v (s.line 0 c v).invalidated [] s (s.invalidateSlot 0 c v) := writesSlot_setLine ..

/-- R102, R105: an invalidation after a write-back. -/
theorem writesSlot_writeBack_invalidateSlot (s : State) (c : CacheName) (v : Nat) :
    WritesSlot c v (s.line 0 c v).invalidated (writtenBack s c (s.line 0 c v)) s
      ((s.writeBackLine 0 c v).invalidateSlot 0 c v) := by
  rw [State.invalidateSlot, writeBackLine_line]
  exact .setLine (writeBackLine_line s 0 c v) (wbPending_writeBackLine s 0 c v)

end

/-! ### Completion (R81, R142) -/

section
variable {isEva : Bool} {op rs : BitVec 5} {offset : Int} {s u : State} {pa cca : Nat}

theorem exec_of_operation (he : EntersOp isEva op (addressOf s rs offset) pa cca s)
    (h : operation op (addressOf s rs offset) pa cca s = .next u) :
    exec (cacheop isEva op rs offset) s = .next u.errorTaken.advance := by rw [exec_of_entersOp he, h, andThen_next]

theorem keepsLines_completed (u : State) : KeepsLines u u.errorTaken.advance := fun _ _ _ => by simp

/-- What an entered operation that completes leaves as it was, where it is neither Index Load Tag nor implementation dependent. -/
theorem completes (he : EntersOp isEva op (addressOf s rs offset) pa cca s) (hkind : opKind op ≠ 1#3 ∧ opKind op ≠ 3#3)
    (h : operation op (addressOf s rs offset) pa cca s = .next u) :
    exec (cacheop isEva op rs offset) s = .next u.errorTaken.advance ∧ KeepsTags s u.errorTaken.advance ∧
      KeepsMachine s u.errorTaken.advance ∧ u.errorTaken.advance.pc = s.pc + 4#32 := by
  have hx := exec_of_operation he h
  obtain ⟨hpc, hm⟩ := completionMovesPcAndWritesNoGeneralRegister _ _ _ hx
  exact ⟨hx, keepsTags_iff.2 ((operation_runs h).tagRegs hkind.1 hkind.2), hm, hpc⟩

/-- An entered operation that writes one slot, with what completion adds. -/
theorem WritesSlot.completes {c : CacheName} {v : Nat} {l : Line} {sent : List Pending} (w : WritesSlot c v l sent s u)
    (he : EntersOp isEva op (addressOf s rs offset) pa cca s) (hkind : opKind op ≠ 1#3 ∧ opKind op ≠ 3#3)
    (h : operation op (addressOf s rs offset) pa cca s = .next u) :
    exec (cacheop isEva op rs offset) s = .next u.errorTaken.advance ∧ WritesSlot c v l sent s u.errorTaken.advance ∧
      KeepsTags s u.errorTaken.advance ∧ KeepsMachine s u.errorTaken.advance ∧ u.errorTaken.advance.pc = s.pc + 4#32 := by
  obtain ⟨hx, hframe⟩ := Machine.completes he hkind h
  exact ⟨hx, w.keepsLines (keepsLines_completed u) rfl, hframe⟩

end

/-! ### Index operations (R110 to R113) -/

/-- Settles O19: the own-line test passes, and the operation is one invalidation. -/
theorem indexInvalidateResult : Obligations.IndexInvalidateResult := by
  intro isEva rs offset s pa cca slot l he hslot hl hown
  subst hslot hl
  have hop : operation 0#5 (addressOf s rs offset) pa cca s = .next (s.invalidateSlot 0 .icache _) :=
    (operation_indexInvalidate ..).trans (ownLineCheck_passes (isOwnLine_eq_false hown))
  obtain ⟨hx, ⟨hline, hother, hwb⟩, hframe⟩ := (writesSlot_invalidateSlot ..).completes he (by decide) hop
  exact ⟨_, hx, hline, hother, hwb.trans (List.append_nil _), hframe⟩

/-- Settles O20: the own-line test passes, and the operation is a write-back and an invalidation of one slot. -/
theorem indexWritebackInvalidateResult : Obligations.IndexWritebackInvalidateResult := by
  intro isEva c rs offset s pa cca slot l hc he hslot hl hown
  subst hslot hl
  have hop := (operation_indexWriteBackInvalidate c (addressOf s rs offset) pa cca s hc).trans
    (ownLineCheck_passes (isOwnLine_eq_false hown))
  obtain ⟨hx, ⟨hline, hother, hwb⟩, hframe⟩ := (writesSlot_writeBack_invalidateSlot ..).completes he (by simp) hop
  exact ⟨_, hx, hline, hwb, hother, hframe⟩

/-! ### Index Store Tag (R107, R118 to R121) -/

/-- R107: an Index Store Tag that neither of its tests stops. -/
theorem storeTag_passes {s : State} {c : CacheName} {t : Nat} {tag : Tag} (hd : tag.valid = true → s.heldElsewhere c t tag.addr = false)
    (hl : tag.locked = true → s.othersLocked c t = false) :
    storeTag c t tag s = .next (s.setLine 0 c t ((s.line 0 c t).retagged tag)) := by
  have hdup : (tag.valid && s.heldElsewhere c t tag.addr) = false := by simpa using hd
  have hlock : (tag.locked && s.othersLocked c t) = false := by simpa using hl
  simp [storeTag, hdup, hlock]

theorem heldElsewhere_eq_false {s : State} {c : CacheName} {t a : Nat} (h : ∀ u, u ≠ t → ¬Holds s 0 c u a) :
    s.heldElsewhere c t a = false :=
  Bool.eq_false_iff.2 fun hheld => by
    obtain ⟨u, hne, hu⟩ := heldElsewhere_iff.1 hheld
    exact h u hne hu

theorem othersLocked_eq_false {s : State} {c : CacheName} {t : Nat}
    (h : ∃ u, u ∈ s.cfg.setOfSlot c t ∧ u ≠ t ∧ (s.line 0 c u).locked = false) : s.othersLocked c t = false := by
  obtain ⟨u, hmem, hne, hfree⟩ := h
  exact Bool.eq_false_iff.2 fun hall => Bool.eq_false_iff.1 hfree (othersLocked_iff.1 hall u hmem hne)

/-- Settles O22: both tests of R107 pass, and the operation retags one slot. -/
theorem indexStoreTagResult : Obligations.IndexStoreTagResult := by
  intro isEva c rs offset s pa cca slot l tag he hslot hl htag hdup hlock
  subst hslot hl htag
  have hop := (operation_indexStoreTag c (addressOf s rs offset) pa cca s).trans
    (storeTag_passes (fun hv => heldElsewhere_eq_false (hdup hv)) fun hk => othersLocked_eq_false (hlock hk))
  obtain ⟨hx, ⟨hline, hother, hwb⟩, hframe⟩ := (writesSlot_setLine ..).completes he (by simp) hop
  exact ⟨_, hx, hline, hother, hwb.trans (List.append_nil _), hframe⟩

/-- Settles O24: zero registers decode to no flag (R107), so the two tests of Index Store Tag ask nothing of the cache. -/
theorem zeroTagInitialisesAnySlot : Obligations.ZeroTagInitialisesAnySlot := by
  intro isEva c rs offset s pa cca slot he hlo hhi hslot
  have htag : decodeTag s.cfg c 0#32 0#32 = decodeTag s.cfg c (s.tagLoOf c) (s.tagHiOf c) := by rw [hlo, hhi]
  obtain ⟨hvalid, hdirty, hlocked⟩ := decodeTag_zero s.cfg c
  obtain ⟨t, hx, hline, hother, hwb, -⟩ := indexStoreTagResult isEva c rs offset s pa cca slot _ _ he hslot rfl htag
    (fun hv => absurd hv (Bool.eq_false_iff.1 hvalid)) (fun hk => absurd hk (Bool.eq_false_iff.1 hlocked))
  exact ⟨t, hx, by rw [hline, hvalid], by rw [hline, hdirty], by rw [hline, hlocked], by rw [hline], hother, hwb⟩

/-- The general registers decide an operation only through its address. -/
theorem EntersOp.withRegisters {isEva : Bool} {op : BitVec 5} {va : Word} {pa cca : Nat} {s : State} (x : Vector Word 32)
    (h : EntersOp isEva op va pa cca s) : EntersOp isEva op va pa cca { s with x := x } where
  translates := { h.translates with enabled := { h.translates.enabled with } }
  cached := h.cached
  implemented := h.implemented
  noError := h.noError

/-- Settles O25: a legal record indexes the slot by some line of the range, and a zero tag initialises any slot. -/
theorem initialisationReachesEverySlot : Obligations.InitialisationReachesEverySlot := by
  intro isEva c s base slot hlegal hslot hrange hlo hhi henters
  have hp : s.cfg.present c = true := by
    obtain ⟨pa, cca, he⟩ := henters slot hslot
    simpa using he.present
  obtain ⟨k, hk, hindex⟩ := hlegal.index c hp base hrange slot hslot
  refine ⟨k, hk, fun x rs offset haddr => ?_⟩
  obtain ⟨pa, cca, he⟩ := henters k hk
  rw [← haddr] at he hindex
  obtain ⟨t, hx, hvalid, hdirty, hlocked, -⟩ := zeroTagInitialisesAnySlot isEva c rs offset { s with x := x } pa cca slot
    (he.withRegisters x) hlo hhi hindex.symm
  exact ⟨t, hx, hvalid, hdirty, hlocked⟩

/-! ### Hit operations that are not globalized (R126 to R137) -/

section
variable {kind : BitVec 3} {c : CacheName} {va : Word} {pa cca v : Nat} {s u : State}

/-- R108: a Hit operation that is not globalized acts on this core alone. -/
theorem operation_hitOn_own (hk : HitKind kind c) (hg : s.cfg.isGlobalized (opOf kind c) cca = false) :
    operation (opOf kind c) va pa cca s = hitOn kind c pa 0 s := by
  rw [operation_hitOn hk, reached_own hg, eachCore]
  cases hitOn kind c pa 0 s <;> rfl

/-- What a Hit operation on this core alone does to the slot that its lookup finds. -/
theorem HitEffects.writesSlot (h : HitEffects kind c pa [0] s u) (hit : s.hitSlot 0 c pa = some v) :
    WritesSlot c v (hitLine kind (s.line 0 c v)) (if kind = 4#3 then [] else writtenBack s c (s.line 0 c v)) s u where
  line := by rw [h.line, if_pos ⟨List.mem_singleton_self 0, rfl, hit⟩]
  other := fun k d w hne => by
    rw [h.line, if_neg]
    rintro ⟨hk, rfl, hw⟩
    obtain rfl := List.mem_singleton.1 hk
    exact hne (by rw [Option.some.inj (hw.symm.trans hit)])
  wbPending := by rw [h.wbPending, List.flatMap_singleton, hitSent, hitWrittenBack, hit]

/-- R25, R83: an operation that is not globalized, on a line that one slot holds and that is not the instruction's where it is invalidated. -/
theorem operation_hit_writesSlot (hk : HitKind kind c) (hg : s.cfg.isGlobalized (opOf kind c) cca = false) (hu : s.UniqueLines)
    (hholds : Holds s 0 c v (s.cfg.lineAddr c pa)) (hown : kind ≠ 6#3 → ¬InstructionIn s c (s.cfg.lineAddr c pa)) :
    ∃ u, operation (opOf kind c) va pa cca s = .next u ∧
      WritesSlot c v (hitLine kind (s.line 0 c v)) (if kind = 4#3 then [] else writtenBack s c (s.line 0 c v)) s u := by
  have hit := hitSlot_of_holds hu hholds
  have hspares : SparesOwnLine kind c pa 0 s := by
    intro h6 w hw
    obtain ⟨-, -, haddr⟩ := holds_of_hitSlot hw
    exact isOwnLine_eq_false fun _ => haddr ▸ hown h6
  obtain ⟨u, hx, heffects⟩ := hitOn_completes hk hspares
  exact ⟨u, (operation_hitOn_own hk hg).trans hx, heffects.writesSlot hit⟩

end

/-- Settles O26: the slot that is found is the one slot written, and nothing is sent. -/
theorem hitInvalidateResult : Obligations.HitInvalidateResult := by
  intro isEva c rs offset s pa cca slot l he hg hu hholds hl hown
  subst hl
  obtain ⟨u, hop, w⟩ := operation_hit_writesSlot (.inl rfl) hg hu hholds fun _ => hown
  obtain ⟨hx, ⟨hline, hother, hwb⟩, hframe⟩ := w.completes he (by simp) hop
  exact ⟨_, hx, hline, hother, by simpa using hwb, hframe⟩

/-- Settles O27: the slot that is found is the one slot written, after its write-back. -/
theorem hitWritebackInvalidateResult : Obligations.HitWritebackInvalidateResult := by
  intro isEva c rs offset s pa cca slot l hc he hg hu hholds hl hown
  subst hl
  obtain ⟨u, hop, w⟩ := operation_hit_writesSlot (.inr ⟨hc, .inl rfl⟩) hg hu hholds fun _ => hown
  obtain ⟨hx, ⟨hline, hother, hwb⟩, hframe⟩ := w.completes he (by simp) hop
  exact ⟨_, hx, hline, hwb, hother, hframe⟩

/-- Settles O28: as for the invalidations, but the record is cleaned and no own-line test is made. -/
theorem hitWritebackResult : Obligations.HitWritebackResult := by
  intro isEva c rs offset s pa cca slot l hc he hg hu hholds hl
  subst hl
  obtain ⟨u, hop, w⟩ := operation_hit_writesSlot (.inr ⟨hc, .inr rfl⟩) hg hu hholds fun h6 => absurd rfl h6
  obtain ⟨hx, ⟨hline, hother, hwb⟩, hframe⟩ := w.completes he (by simp) hop
  exact ⟨_, hx, hline, hwb, hother, hframe⟩

/-- Settles O29: a lookup that misses leaves the state as it was. -/
theorem hitOperationMissChangesNothing : Obligations.HitOperationMissChangesNothing := by
  intro isEva kind c rs offset s pa cca hk he hg hmiss
  have hop := (operation_hitOn_own (va := addressOf s rs offset) hk hg).trans (hitOn_of_miss (hitSlot_eq_none_iff.2 hmiss))
  have hkind : kind ≠ 1#3 ∧ kind ≠ 3#3 := by rcases hk with rfl | ⟨-, rfl | rfl⟩ <;> decide
  obtain ⟨hx, hframe⟩ := completes he (by simpa using hkind) hop
  exact ⟨_, hx, keepsLines_completed s, rfl, hframe⟩

end Sys2Proof.Machine

/-! SUPPORT. Fill and Fetch and Lock of a single line (spec/41_cache_operations.md R104, R130, R138, R139): the victim of a miss, said once
(`chooseVictim_completes`, `chooseVictim_of_allLocked`), and the slot that each operation writes. -/

namespace Sys2Proof.Machine

/-! ### The victim (R104) -/

section
variable {c : CacheName} {pa choice : Nat} {va : Word} {s : State}

/-- R104: where some slot of the set is not locked, one that is not is chosen. -/
theorem chooseVictim_completes (h : ∃ v, v ∈ s.cfg.setOf c pa va ∧ (s.line 0 c v).locked = false) (rest : Nat → State → Result) :
    ∃ v, v ∈ s.cfg.setOf c pa va ∧ (s.line 0 c v).locked = false ∧ chooseVictim c pa va choice s rest = rest v s := by
  obtain ⟨v, hv⟩ := h
  have hne : (s.victims c pa va).isEmpty = false := List.isEmpty_eq_false_iff.2 (List.ne_nil_of_mem (mem_victims.2 hv))
  obtain ⟨hmem, hfree⟩ := mem_victims.1 (pickFrom_mem hne choice)
  exact ⟨_, hmem, hfree, by simp [chooseVictim, hne]⟩

/-- R104: where every slot of the set is locked there is none to choose. -/
theorem chooseVictim_of_allLocked (h : ∀ v, v ∈ s.cfg.setOf c pa va → (s.line 0 c v).locked = true) (rest : Nat → State → Result) :
    chooseVictim c pa va choice s rest = .fault (.undefined .missAllWaysLocked) := by
  have hnone : s.victims c pa va = [] :=
    List.eq_nil_iff_forall_not_mem.2 fun v hv => Bool.eq_false_iff.1 (mem_victims.1 hv).2 (h v (mem_victims.1 hv).1)
  simp [chooseVictim, hnone]

/-- R104: a set with two slots that are not locked has another such slot beside the one chosen. -/
theorem othersLocked_of_two {v : Nat} (hv : v ∈ s.cfg.setOf c pa va)
    (h : ∃ u w, u ≠ w ∧ u ∈ s.cfg.setOf c pa va ∧ w ∈ s.cfg.setOf c pa va ∧ (s.line 0 c u).locked = false ∧
      (s.line 0 c w).locked = false) : s.othersLocked c v = false := by
  obtain ⟨u, w, hne, hu, hw, hul, hwl⟩ := h
  refine othersLocked_eq_false ?_
  rw [setOfSlot_of_mem_setOf hv]
  by_cases huv : u = v
  · exact ⟨w, hw, fun hwv => hne (huv.trans hwv.symm), hwl⟩
  · exact ⟨u, hu, huv, hul⟩

/-! ### Fill (R130) -/

theorem fill_of_hit {t : Nat} (h : s.hitSlot 0 c pa = some t) :
    fill c va pa s = .next (refill c pa t (Config.freeFillKeeps s.draws) s).drawn := by simp only [fill, h]

theorem fill_of_miss (h : s.hitSlot 0 c pa = none) :
    fill c va pa s = chooseVictim c pa va (Config.freeVictim s.draws) s fun t s => .next (s.fillLine 0 c t pa).drawn := by
  simp only [fill, h]

/-- R103: a fill. -/
theorem writesSlot_fillLine (s : State) (c : CacheName) (v pa : Nat) :
    WritesSlot c v (s.filledLine c pa) [] s (s.fillLine 0 c v pa) :=
  (writesSlot_setLine ..).keepsLines (busOp_line _ 1) rfl

/-- R130, D25: a line that is present is kept, or read again with its lock, by the free value. -/
theorem writesSlot_refill (s : State) (c : CacheName) (v pa : Nat) (keep : Bool) : WritesSlot c v
    (if keep then s.line 0 c v else { s.filledLine c pa with locked := (s.line 0 c v).locked }) [] s (refill c pa v keep s) := by
  cases keep with
  | true => exact ⟨rfl, fun _ _ _ _ => rfl, (List.append_nil _).symm⟩
  | false => exact (writesSlot_setLine ..).keepsLines (busOp_line _ 1) rfl

theorem keepsLines_drawn (s : State) : KeepsLines s s.drawn := fun _ _ _ => by simp

end

/-- Settles O33: the slot that is chosen is the one slot written. -/
theorem fillMissResult : Obligations.FillMissResult := by
  intro isEva rs offset s pa cca he hmiss hfree
  obtain ⟨v, hv, hl, hchoose⟩ := chooseVictim_completes (choice := Config.freeVictim s.draws) hfree
    fun t s => .next (s.fillLine 0 .icache t pa).drawn
  have hop : operation 20#5 (addressOf s rs offset) pa cca s = _ := (fill_of_miss (hitSlot_eq_none_iff.2 hmiss)).trans hchoose
  have w := (writesSlot_fillLine s .icache v pa).keepsLines (keepsLines_drawn _) rfl
  obtain ⟨hx, ⟨hline, hother, hwb⟩, hframe⟩ := w.completes he (by decide) hop
  exact ⟨_, v, hx, hv, hl, hline, hother, hwb.trans (List.append_nil _), hframe⟩

/-- Settles O34: the slot that is found is the one slot written, with either record of decision D25. -/
theorem fillHitResult : Obligations.FillHitResult := by
  intro isEva rs offset s pa cca slot l he hu hholds hl
  subst hl
  have hop : operation 20#5 (addressOf s rs offset) pa cca s = _ := fill_of_hit (hitSlot_of_holds hu hholds)
  have w := (writesSlot_refill s .icache slot pa (Config.freeFillKeeps s.draws)).keepsLines (keepsLines_drawn _) rfl
  obtain ⟨hx, ⟨hline, hother, hwb⟩, hframe⟩ := w.completes he (by decide) hop
  refine ⟨_, hx, ?_, hother, hwb.trans (List.append_nil _), hframe⟩
  rw [hline]
  cases Config.freeFillKeeps s.draws with
  | true => exact .inl rfl
  | false => exact .inr rfl

/-! ### Fetch and Lock (R138) -/

section
variable {c : CacheName} {pa choice v : Nat} {va : Word} {s u : State}

theorem fetchAndLockLine_of_hit (h : s.hitSlot 0 c pa = some v) : fetchAndLockLine c va pa choice s = lockSlot c v s := by
  simp only [fetchAndLockLine, h]

theorem fetchAndLockLine_of_miss (h : s.hitSlot 0 c pa = none) : fetchAndLockLine c va pa choice s =
    chooseVictim c pa va choice s fun t s => lockSlot c t ((s.writeBackLine 0 c t).fillLine 0 c t pa) := by
  simp only [fetchAndLockLine, h]

theorem lockSlot_passes (h : s.othersLocked c v = false) :
    lockSlot c v s = .next (s.setLine 0 c v (s.line 0 c v).lockSet) := by simp [lockSlot, lockAllWaysCheck, h]

/-- `LockSpread` is the single line (its default): one line is locked, and one free value is used up. -/
theorem fetchAndLock_single (h : s.cfg.lockTargets c va pa = [(va, pa)]) :
    fetchAndLock c va pa s = andThen (fetchAndLockLine c va pa (Config.freeVictim s.draws) s) fun u => .next u.drawn := by
  rw [fetchAndLock, h]
  rfl

/-- R102 to R104, R138: the victim is written back, filled and locked. -/
theorem writesSlot_writeBack_fill_lock (s : State) (c : CacheName) (v pa : Nat) :
    WritesSlot c v ((s.writeBackLine 0 c v).filledLine c pa).lockSet (writtenBack s c (s.line 0 c v)) s
      (((s.writeBackLine 0 c v).fillLine 0 c v pa).setLine 0 c v
        (((s.writeBackLine 0 c v).fillLine 0 c v pa).line 0 c v).lockSet) := by
  have w := writesSlot_fillLine (s.writeBackLine 0 c v) c v pa
  rw [w.line]
  refine ⟨line_setLine_own .., fun k d u hne => ?_, ?_⟩
  · rw [line_setLine_ne _ _ hne, w.other k d u hne, writeBackLine_line]
  · rw [setLine_wbPending, fillLine_wbPending, wbPending_writeBackLine]

end

/-- Settles O35: the lookup misses, and no victim can be chosen for the line of the address. -/
theorem missWithAllWaysLockedIsUndefined : Obligations.MissWithAllWaysLockedIsUndefined := by
  intro isEva op rs offset s pa cca hop he hmiss hlocked
  have hnone := hitSlot_eq_none_iff.2 hmiss
  rw [exec_of_entersOp he]
  have lock (hc : opCache op = .icache ∨ opCache op = .dcache) (hk : op = opOf 7#3 (opCache op)) :
      operation op (addressOf s rs offset) pa cca s = .fault (.undefined .missAllWaysLocked) := by
    rw [hk, operation_fetchAndLock _ _ _ _ _ hc]
    exact fetchAndLock_of_fault ((fetchAndLockLine_of_miss hnone).trans (chooseVictim_of_allLocked hlocked _))
  rcases hop with rfl | rfl | rfl
  · have hfill : operation 20#5 (addressOf s rs offset) pa cca s = .fault (.undefined .missAllWaysLocked) :=
      (fill_of_miss hnone).trans (chooseVictim_of_allLocked hlocked _)
    rw [hfill, andThen_fault]
  · rw [lock (.inl rfl) rfl, andThen_fault]
  · rw [lock (.inr rfl) rfl, andThen_fault]

/-- Settles O36: another way is not locked, so the slot that is found is locked as it is. -/
theorem fetchAndLockHitResult : Obligations.FetchAndLockHitResult := by
  intro isEva c rs offset s pa cca slot l hc he hsingle hu hholds hl hfree
  subst hl
  have hop := (operation_fetchAndLock c (addressOf s rs offset) pa cca s hc).trans (fetchAndLock_single hsingle)
  rw [fetchAndLockLine_of_hit (hitSlot_of_holds hu hholds), lockSlot_passes (othersLocked_eq_false hfree), andThen_next] at hop
  have w := (writesSlot_setLine s c slot (s.line 0 c slot).lockSet).keepsLines (keepsLines_drawn _) rfl
  obtain ⟨hx, ⟨hline, hother, hwb⟩, hframe⟩ := w.completes he (by simp) hop
  exact ⟨_, hx, hline, hother, hwb.trans (List.append_nil _), hframe⟩

/-- Settles O37: another way stays unlocked beside the victim, which is written back, filled and locked. -/
theorem fetchAndLockMissResult : Obligations.FetchAndLockMissResult := by
  intro isEva c rs offset s pa cca hc he hsingle hmiss htwo
  obtain ⟨v, hv, hfree, hchoose⟩ := chooseVictim_completes (choice := Config.freeVictim s.draws)
    (htwo.imp fun u ⟨_, _, hu, _, hl, _⟩ => ⟨hu, hl⟩) fun t s => lockSlot c t ((s.writeBackLine 0 c t).fillLine 0 c t pa)
  have hothers := othersLocked_fillLine (pa := pa).trans (othersLocked_of_two hv htwo)
  have hop := (operation_fetchAndLock c (addressOf s rs offset) pa cca s hc).trans (fetchAndLock_single hsingle)
  rw [fetchAndLockLine_of_miss (hitSlot_eq_none_iff.2 hmiss), hchoose, lockSlot_passes hothers, andThen_next] at hop
  have w := (writesSlot_writeBack_fill_lock s c v pa).keepsLines (keepsLines_drawn _) rfl
  obtain ⟨hx, ⟨hline, hother, hwb⟩, hframe⟩ := w.completes he (by simp) hop
  refine ⟨_, v, hx, hv, hfree, hline.trans ?_, hwb, hother, hframe⟩
  simp [State.filledLine, Line.lockSet, State.memView]

end Sys2Proof.Machine

/-! SUPPORT. The bus operations of an execution and its hardware error (spec/41_cache_operations.md R109, R142, R156, R157): which
operations leave the count of bus operations as it was, which make one for each write-back, and what the drawn error comes to. -/

namespace Sys2Proof.Machine

/-! ### Bus operations (R102, R103, R109) -/

/-- The bus operations beyond one for each pending write-back. -/
def State.busBalance (s : State) : Int := s.busOps - s.wbPending.length

@[simp] theorem setLine_busBalance (s : State) (core : Nat) (c : CacheName) (k : Nat) (l : Line) :
    (s.setLine core c k l).busBalance = s.busBalance := by simp [State.busBalance]

/-- R102: a write-back is one bus operation and one pending write-back, or neither. -/
@[simp] theorem writeBackLine_busBalance (s : State) (core : Nat) (c : CacheName) (k : Nat) :
    (s.writeBackLine core c k).busBalance = s.busBalance := by
  rw [State.busBalance, State.busBalance, writeBackLine_busOps, writeBackLine_wbPending]
  split
  · simp
  · simp

/-- R103: a fill is one bus operation. -/
@[simp] theorem fillLine_busBalance (s : State) (core : Nat) (c : CacheName) (t pa : Nat) :
    (s.fillLine core c t pa).busBalance = s.busBalance + 1 := by
  simp only [State.busBalance, fillLine_busOps, fillLine_wbPending]
  omega

section
variable {c : CacheName} {va : Word} {pa cca : Nat} {s u : State}

/-- R109: Index Invalidate, the tag operations and Hit Invalidate make no bus operation. -/
theorem operation_busOps_of_none {kind : BitVec 3} (hk : kind ∈ [1#3, 2#3, 4#3] ∨ (kind = 0#3 ∧ c = .icache))
    (h : operation (opOf kind c) va pa cca s = .next u) : u.busOps = s.busOps := by
  simp only [List.mem_cons, List.not_mem_nil, or_false] at hk
  rcases hk with (rfl | rfl | rfl) | ⟨rfl, rfl⟩
  · rw [operation_indexLoadTag] at h
    exact next_inj h ▸ by simp
  · exact indexStoreTag_keeps setLine_busOps (operation_indexStoreTag .. ▸ h)
  · exact hitInvalidate_keeps setLine_busOps (operation_hitInvalidate .. ▸ h)
  · exact indexInvalidate_keeps setLine_busOps h

/-- R102, R109: the operations that write back make one bus operation for each write-back they start. -/
theorem operation_busBalance {kind : BitVec 3} (hk : kind ∈ [0#3, 5#3, 6#3]) (hc : c ≠ .icache)
    (h : operation (opOf kind c) va pa cca s = .next u) : u.busBalance = s.busBalance := by
  have hwb (s : State) (core k : Nat) := writeBackLine_busBalance s core c k
  simp only [List.mem_cons, List.not_mem_nil, or_false] at hk
  rcases hk with rfl | rfl | rfl
  · exact indexWriteBackInvalidate_keeps setLine_busBalance hwb (operation_indexWriteBackInvalidate _ _ _ _ _ hc ▸ h)
  · exact hitWriteBackInvalidate_keeps setLine_busBalance hwb (operation_hitWriteBackInvalidate _ _ _ _ _ hc ▸ h)
  · exact hitWriteBack_keeps setLine_busBalance hwb (operation_hitWriteBack _ _ _ _ _ hc ▸ h)

/-- R103, R130: a Fill that misses makes one bus operation. -/
theorem fill_busOps_of_miss (hmiss : s.hitSlot 0 c pa = none) (h : fill c va pa s = .next u) : u.busOps = s.busOps + 1 := by
  rw [fill_of_miss hmiss] at h
  obtain ⟨v, -, -, h⟩ := chooseVictim_next h
  exact next_inj h ▸ by simp

/-- R130, R109: a Fill that hits keeps every line, or reads one again, which is a bus operation. -/
theorem fill_busOps_of_hit {t : Nat} (hit : s.hitSlot 0 c pa = some t) (h : fill c va pa s = .next u) :
    (u.busOps = s.busOps ∧ KeepsLines s u) ∨ u.busOps = s.busOps + 1 := by
  rw [fill_of_hit hit] at h
  obtain rfl := next_inj h
  cases Config.freeFillKeeps s.draws with
  | true => exact .inl ⟨rfl, keepsLines_drawn s⟩
  | false => exact .inr (by simp [refill])

/-- R138: a line that is present is locked without a bus operation. -/
theorem fetchAndLockLine_busOps_of_hit {t choice : Nat} (hit : s.hitSlot 0 c pa = some t)
    (h : fetchAndLockLine c va pa choice s = .next u) : u.busOps = s.busOps := by
  rw [fetchAndLockLine_of_hit hit] at h
  exact next_inj (lockAllWaysCheck_next h).2 ▸ setLine_busOps ..

/-- R138: on a miss there is one bus operation for the fill, beside that of the write-back. -/
theorem fetchAndLockLine_busBalance_of_miss {choice : Nat} (hmiss : s.hitSlot 0 c pa = none)
    (h : fetchAndLockLine c va pa choice s = .next u) : u.busBalance = s.busBalance + 1 := by
  rw [fetchAndLockLine_of_miss hmiss] at h
  obtain ⟨v, -, -, h⟩ := chooseVictim_next h
  exact next_inj (lockAllWaysCheck_next h).2 ▸ by simp

theorem exists_hitSlot_of_not_misses {core : Nat} (h : ¬Misses s core c (s.cfg.lineAddr c pa)) : ∃ t, s.hitSlot core c pa = some t :=
  Option.ne_none_iff_exists'.1 fun hnone => h (hitSlot_eq_none_iff.1 hnone)

end

/-- Settles O41: the operations that make none, those that keep the balance with the pending write-backs, and the lookups of Fill and
Fetch and Lock. -/
theorem busOperationsAreWritebacksAndFills : Obligations.BusOperationsAreWritebacksAndFills := by
  intro c va pa cca s u
  refine ⟨fun kind hk h => operation_busOps_of_none hk h, fun kind hk hc h => ?_, fun h => ⟨fun hmiss => ?_, fun hhit => ?_⟩,
    fun hc hsingle h => ?_⟩
  · have hbalance := operation_busBalance hk hc h
    simp only [State.busBalance] at hbalance
    omega
  · exact fill_busOps_of_miss (hitSlot_eq_none_iff.2 hmiss) h
  · obtain ⟨t, ht⟩ := exists_hitSlot_of_not_misses hhit
    exact fill_busOps_of_hit ht h
  · rw [operation_fetchAndLock _ _ _ _ _ hc, fetchAndLock_single hsingle] at h
    obtain ⟨r, hr, h⟩ := andThen_eq_next h
    obtain rfl := next_inj h
    refine ⟨fun hhit => ?_, fun hmiss => ?_⟩
    · obtain ⟨t, ht⟩ := exists_hitSlot_of_not_misses hhit
      exact (drawn_busOps r).trans (fetchAndLockLine_busOps_of_hit ht hr)
    · have hbalance := fetchAndLockLine_busBalance_of_miss (hitSlot_eq_none_iff.2 hmiss) hr
      simp only [State.busBalance] at hbalance
      simp only [drawn_busOps, drawn_wbPending]
      omega

/-! ### The hardware error (R109, R142, R157) -/

theorem mayCacheError_iff : ∀ op : BitVec 5, mayCacheError op = true ↔ ¬(4 ≤ op.toNat ∧ op.toNat ≤ 11) := by decide

/-- R142: an operation that may end in no Bus Error is one that makes no bus operation. -/
theorem noBusOp_kind_of_mayBusError_eq_false : ∀ op : BitVec 5, mayBusError op = false →
    opKind op ∈ [1#3, 2#3, 4#3] ∨ (opKind op = 0#3 ∧ opCache op = .icache) := by decide

theorem mayBusError_tagOperation : ∀ op : BitVec 5, 4 ≤ op.toNat → op.toNat ≤ 11 → mayBusError op = false := by decide

/-- R109: an execution that makes a bus operation is one of an operation that may end in Bus Error. -/
theorem mayBusError_of_busOps_ne {op : BitVec 5} {va : Word} {pa cca : Nat} {s u : State}
    (h : operation op va pa cca s = .next u) (hbus : u.busOps ≠ s.busOps) : mayBusError op = true := by
  by_contra hno
  rw [← opOf_opKind_opCache op] at h
  exact hbus (operation_busOps_of_none (noBusOp_kind_of_mayBusError_eq_false op (Bool.not_eq_true _ ▸ hno)) h)

section
variable {isEva : Bool} {op rs : BitVec 5} {offset : Int} {s u : State} {pa cca : Nat}

/-- R109: what becomes of an instruction whose operation would complete is decided by its hardware error. -/
theorem exec_of_operation_next (htr : Translates isEva op (addressOf s rs offset) pa cca s) (hcca : cca ≠ 2 ∧ cca ≠ 7)
    (himpl : s.cfg.opImplemented op = true) (h : operation op (addressOf s rs offset) pa cca s = .next u) :
    exec (cacheop isEva op rs offset) s = andThen (reportError op s u) fun t => .next t.advance := by
  rw [exec_of_translates htr]
  simp [operateAndAdvance, uncached_eq_false hcca, cacheOp, himpl, h]

theorem reportError_of_hwError_eq_none (h : s.hwError op (decide (u.busOps ≠ s.busOps)) = .none) :
    reportError op s u = .next u.errorTaken := by simp only [reportError, h]

theorem reportError_of_cacheError (h : s.hwError op (decide (u.busOps ≠ s.busOps)) = .cacheError) :
    reportError op s u = .fault (.exception .cacheError) := by simp only [reportError, h, raiseException]

theorem reportError_of_busError (h : s.hwError op (decide (u.busOps ≠ s.busOps)) = .busError) :
    reportError op s u = .fault (.exception .busError) := by simp only [reportError, h, raiseException]

end

/-- Settles O42: the report of the error decides, and its three answers are read off the drawn entry. -/
theorem hardwareErrorsAreRaised : Obligations.HardwareErrorsAreRaised := by
  intro isEva op rs offset s u pa cca es htr h2 h7 himpl h
  rw [exec_of_operation_next htr ⟨h2, h7⟩ himpl h]
  refine ⟨fun hdrawn hop => ?_, fun hdrawn hbus => ?_, fun hdrawn => ?_⟩
  · have hmay : mayCacheError op = true := (mayCacheError_iff op).2 hop
    rw [reportError_of_cacheError (by simp [State.hwError, hdrawn, hmay]), andThen_fault]
  · have hmay := mayBusError_of_busOps_ne h hbus
    rw [reportError_of_busError (by simp [State.hwError, hdrawn, hmay, hbus]), andThen_fault]
  · have hnone : s.hwError op (decide (u.busOps ≠ s.busOps)) = .none := by
      rcases hdrawn with hd | hd | ⟨hd, hop⟩ | ⟨hd, hbus⟩
      · simp [State.hwError, hd]
      · simp [State.hwError, hd]
      · have hmay : mayCacheError op = false := Bool.eq_false_iff.2 fun hmay => (mayCacheError_iff op).1 hmay hop
        simp [State.hwError, hd, hmay]
      · simp [State.hwError, hd, hbus]
    have heffects := operation_effects (opImplemented_present himpl).2 (translate_lt htr.translation) h
    rw [reportError_of_hwError_eq_none hnone, andThen_next, State.advance, State.errorTaken, heffects.pc, heffects.hwErrors]

/-! ### The tag operations (R142, R157) -/

section
variable {op : BitVec 5} {va : Word} {pa cca : Nat} {s u : State} {r : Fault}

/-- R157: no error that is drawn for a tag operation is raised. -/
theorem reportError_tagOperation (h4 : 4 ≤ op.toNat) (h11 : op.toNat ≤ 11) : reportError op s u = .next u.errorTaken := by
  have hcache : mayCacheError op = false := Bool.eq_false_iff.2 fun hmay => (mayCacheError_iff op).1 hmay ⟨h4, h11⟩
  refine reportError_of_none ?_
  unfold State.hwError
  split
  all_goals simp [hcache, mayBusError_tagOperation op h4 h11]

theorem opKind_tagOperation : ∀ op : BitVec 5, 4 ≤ op.toNat → op.toNat ≤ 11 → opKind op = 1#3 ∨ opKind op = 2#3 := by decide

/-- R84: a tag operation itself has one fault. -/
theorem operation_tagOperation_fault (h4 : 4 ≤ op.toNat) (h11 : op.toNat ≤ 11) (h : operation op va pa cca s = .fault r) :
    r = .undefined .allWaysLocked := by
  rw [← opOf_opKind_opCache op] at h
  rcases opKind_tagOperation op h4 h11 with hk | hk
  · rw [hk, operation_indexLoadTag] at h
    cases h
  · rw [hk, operation_indexStoreTag, indexStoreTag, storeTag] at h
    split_ifs at h
    cases h
    rfl

/-- The faults of steps 7 and 8 for a tag operation are UNPREDICTABLE and UNDEFINED (R79, R84). -/
theorem operateAndAdvance_tagOperation_fault (h4 : 4 ≤ op.toNat) (h11 : op.toNat ≤ 11)
    (h : operateAndAdvance op va pa cca s = .fault r) : r = .unpredictable .uncachedAddress ∨ r = .undefined .allWaysLocked := by
  unfold operateAndAdvance at h
  split_ifs at h
  · cases h
    exact .inl rfl
  · have hop := andThen_eq_fault h fun _ => nofun
    unfold cacheOp at hop
    split_ifs at hop
    exact .inr (operation_tagOperation_fault h4 h11 (andThen_eq_fault hop fun u => by simp [reportError_tagOperation h4 h11]))

end

/-- Settles O43: no test before the operation raises a hardware error, and neither does a tag operation (R157). -/
theorem tagOperationsRaiseNoHardwareError : Obligations.TagOperationsRaiseNoHardwareError := by
  intro isEva op rs offset s h4 h11
  rcases stopsWith_or_translates isEva op (addressOf s rs offset) s with ⟨r, hr⟩ | ⟨pa, cca, htr⟩
  · rw [exec_of_stopsWith hr]
    cases hr <;> exact ⟨nofun, nofun⟩
  · rw [exec_of_translates htr]
    refine ⟨fun h => ?_, fun h => ?_⟩
    all_goals rcases operateAndAdvance_tagOperation_fault h4 h11 h with hr | hr <;> cases hr

end Sys2Proof.Machine

/-! SUPPORT. The implementation dependent operations (spec/41_cache_operations.md R122 to R125), and what a fill sees after a Hit Writeback
(R103, R135). -/

namespace Sys2Proof.Machine

/-! ### The two forms of a supplied behaviour (R122, log entry 28) -/

section
variable {c : CacheName} {kind : BitVec 3} {va : Word} {pa cca : Nat} {s : State}

theorem operation_implDep_operations {kinds : List (BitVec 3)} (h : (s.cfg.cacheOf c).implDepOp = some (.operations kinds)) :
    operation (opOf 3#3 c) va pa cca s = standardOps c kinds va pa cca s := by
  rw [operation_implDep, implDep, opCache_opOf, h]

theorem operation_implDep_other (h : (s.cfg.cacheOf c).implDepOp = some .other) : operation (opOf 3#3 c) va pa cca s =
    .next (s.answered c (Config.freeImplDep (opOf 3#3 c) va pa cca s)) := by rw [operation_implDep, implDep, opCache_opOf, h]

@[simp] theorem writeSlots_tagRegs (c : CacheName) : ∀ (ws : List (Nat × Line)) (s : State), (s.writeSlots c ws).tagRegs = s.tagRegs
  | [], _ => rfl
  | w :: ws, s => (writeSlots_tagRegs c ws _).trans (by simp [State.tagRegs])

@[simp] theorem sendAll_tagRegs (c : CacheName) : ∀ (ps : List Pending) (s : State), (s.sendAll c ps).tagRegs = s.tagRegs
  | [], _ => rfl
  | _ :: ps, _ => sendAll_tagRegs c ps _

@[simp] theorem drawn_tagLoOf (s : State) (d : CacheName) : s.drawn.tagLoOf d = s.tagLoOf d := rfl
@[simp] theorem drawn_tagHiOf (s : State) (d : CacheName) : s.drawn.tagHiOf d = s.tagHiOf d := rfl
@[simp] theorem busOp_tagLoOf (s : State) (n : Nat) (d : CacheName) : (s.busOp n).tagLoOf d = s.tagLoOf d := rfl
@[simp] theorem busOp_tagHiOf (s : State) (n : Nat) (d : CacheName) : (s.busOp n).tagHiOf d = s.tagHiOf d := rfl

/-- R18: the pair of a cache is a matter of the configuration. -/
theorem KeepsTags.tagsOf {s t : State} (h : KeepsTags s t) (hcfg : t.cfg = s.cfg) (d : CacheName) :
    t.tagLoOf d = s.tagLoOf d ∧ t.tagHiOf d = s.tagHiOf d := by simp [State.tagLoOf, State.tagHiOf, hcfg, h.tagLo, h.tagHi]

/-- R18, R19, R71: of the tag registers an answer writes the pair of its cache, and the data registers where they are implemented. -/
theorem answered_registers (s : State) (c : CacheName) (a : ImplDepAnswer) :
    (∀ d, s.cfg.tagRegShared c d = false →
      (s.answered c a).tagLoOf d = s.tagLoOf d ∧ (s.answered c a).tagHiOf d = s.tagHiOf d) ∧
    (s.cfg.dataRegs = false → (s.answered c a).dataLo = s.dataLo ∧ (s.answered c a).dataHi = s.dataHi) := by
  have hcfg : ((s.writeSlots c a.lines).sendAll c a.sent).cfg = s.cfg :=
    ((writeSlots_effects c a.lines s).trans (sendAll_effects c a.sent _)).cfg
  have hkeeps : KeepsTags s ((s.writeSlots c a.lines).sendAll c a.sent) := keepsTags_iff.2 (by simp)
  unfold State.answered
  generalize (s.writeSlots c a.lines).sendAll c a.sent = r at hcfg hkeeps
  refine ⟨fun d hd => ?_, fun hd => ?_⟩
  · obtain ⟨hlo, hhi⟩ := hkeeps.tagsOf hcfg d
    simp [setTag_tagLoOf, setTag_tagHiOf, hcfg, hd, hlo, hhi]
  · rw [setData_absent _ _ _ (by simpa [hcfg] using hd)]
    exact ⟨hkeeps.dataLo, hkeeps.dataHi⟩

end

/-- Settles O40: the described operations run as they are; an answer is carried out on its own cache and registers. -/
theorem implementationDependentResult : Obligations.ImplementationDependentResult := by
  intro isEva c rs offset s pa cca he
  refine ⟨fun kinds u hsupplied hu => ?_, fun hsupplied => ?_⟩
  · have hx := exec_of_operation he ((operation_implDep_operations hsupplied).trans hu)
    obtain ⟨hpc, hm⟩ := completionMovesPcAndWritesNoGeneralRegister _ _ _ hx
    exact ⟨_, hx, keepsLines_completed u, rfl, ⟨rfl, rfl, rfl, rfl⟩, hm, hpc⟩
  · have hx := exec_of_operation he (operation_implDep_other hsupplied)
    obtain ⟨hpc, hm⟩ := completionMovesPcAndWritesNoGeneralRegister _ _ _ hx
    obtain ⟨new, hnew⟩ := exec_wbPending hx
    obtain ⟨htags, hdata⟩ := answered_registers s c (Config.freeImplDep (opOf 3#3 c) (addressOf s rs offset) pa cca s)
    have hlines := answered_keepsOutside (c := c) (shared := False) s (Config.freeImplDep (opOf 3#3 c) (addressOf s rs offset) pa cca s)
    refine ⟨_, new, hx, fun core d u hne => ?_, htags, hdata, hnew, hm, hpc⟩
    rw [keepsLines_completed]
    exact hlines.line core d u fun ⟨hd, hcore⟩ => hne (by rw [hd, hcore.resolve_right id])

/-! ### A written-back line and the fills after it (R103, R135) -/

/-- R103: a fill sees the bytes of the write-back that was started last, where it lies in physical memory. -/
theorem memView_of_last {s t : State} {p : Pending} (hcfg : t.cfg = s.cfg) (hmem : t.mem = s.mem) (hm : s.CanonicalMemory)
    (hw : t.wbPending = s.wbPending ++ [p]) (hfit : p.pa + p.bytes.length ≤ 2 ^ s.cfg.palen) :
    t.memView p.pa p.bytes.length = p.bytes := by
  rw [State.memView, hcfg, hmem, hw, storeAll_append]
  exact readBytes_writeBytes _ _ _ _ (memoryWf_storeAll _ _ _ hm) hfit

/-- Settles O60: the Hit Writeback sends the dirty line, and a fill sees the write-back started last. -/
theorem writtenBackLineIsSeenByFills : Obligations.WrittenBackLineIsSeenByFills := by
  intro isEva c rs offset s t pa cca slot hc hwt he hg hu hm hholds hdirty hlen hfit h
  obtain ⟨r, hx, -, hwb, -⟩ := hitWritebackResult isEva c rs offset s pa cca slot _ hc he hg hu hholds rfl
  obtain rfl := next_inj (hx.symm.trans h)
  obtain ⟨-, hvalid, haddr⟩ := hholds
  have hsent : writtenBack s c (s.line 0 c slot) = [⟨s.cfg.lineAddr c pa, (s.line 0 c slot).data⟩] := by
    have hcan : s.cfg.canBeDirty c = true := by simp [Config.canBeDirty, hc, hwt]
    rw [writtenBack, if_pos ⟨hcan, hvalid, hdirty⟩, haddr]
  have hmem : r.mem = s.mem := exec_keeps (fun _ _ => Effect.mem) (fun _ => rfl) (fun _ => rfl) h
  rw [hsent] at hwb
  rw [← hlen] at hfit ⊢
  exact memView_of_last (exec_cfg h) hmem hm hwb hfit

end Sys2Proof.Machine

/-! SUPPORT. Reserved Instruction (spec/60_exceptions.md R151): its two causes are the first two tests of R70, and no other test and no
operation raises it. -/

namespace Sys2Proof

/-- R22, R73: without caches all five cache fields are zero. -/
theorem noCaches_iff {cfg : Config} : cfg.noCaches = true ↔
    cfg.config1DL = 0 ∧ cfg.config1IL = 0 ∧ cfg.config2SL = 0 ∧ cfg.config2TL = 0 ∧ cfg.config5L2C = 0 := by
  simp only [Config.noCaches, Bool.and_eq_true, decide_eq_true_eq, and_assoc]

namespace Machine

/-- Settles O8: R73 and R74 are the two tests that raise it, and they come before the test of coprocessor 0. -/
theorem reservedInstructionExactlyWhen : Obligations.ReservedInstructionExactlyWhen := by
  intro isEva op rs offset s
  rw [← noCaches_iff]
  refine (exec_eq_fault_iff rfl).trans ⟨?_, ?_⟩
  · rintro (⟨hnms, hcaches⟩ | ⟨heva, hno⟩)
    · exact .inl ⟨hnms, hcaches⟩
    · exact .inr ⟨heva, hno⟩
  · rintro (⟨hnms, hcaches⟩ | ⟨heva, hno⟩)
    · exact .noCaches hnms hcaches
    · exact .noEva heva hno

end Machine

end Sys2Proof
